-- ==== Sys2Proof/Word.lean ====
section
/-! DEFINITION. The value types of the block: bytes, the float datum `F` and its bit patterns (00_scope.md R10, R15, R17). -/

namespace Sys2Proof

/-- `u8`: one byte of a channel or of a descriptor (R10). -/
abbrev Byte := BitVec 8

/-- `FLEN`: which of the two float formats `F` is (R9, R17). -/
inductive FLen where
  | f32
  | f64
  deriving DecidableEq, Repr

/-- `RAWW`: the width of one raw sensor reading (R9). -/
inductive RawW where
  | w16
  | w32
  deriving DecidableEq, Repr

/-- Significand bits of a normal number, the hidden one included (binary32: 24, binary64: 53; R17). -/
def FLen.prec : FLen → Nat
  | .f32 => 24
  | .f64 => 53

/-- `2 ^ unitExp` of the smallest subnormal is one unit: every finite number of the format is a whole number of units
(binary32: 2^-149, binary64: 2^-1074; R17). -/
def FLen.unitExp : FLen → Nat
  | .f32 => 149
  | .f64 => 1074

/-- The magnitude bits of infinity: exponent field all ones, fraction zero. -/
def FLen.infMag : FLen → Nat
  | .f32 => 0x7F800000
  | .f64 => 0x7FF0000000000000

/-- An `F` operand as the descriptor carries it: its IEEE 754 bit pattern (30_encoding.md R114). -/
inductive FBits where
  | b32 (v : BitVec 32)
  | b64 (v : BitVec 64)
  deriving DecidableEq, Repr

/-- A float datum. `fin neg mag` is the finite number whose pattern has the sign bit `neg` and, below it, the exponent and
fraction fields `mag` read as one number, so `fin false 0` is +0.0 in both formats. The spec says nothing of NaN payloads
and no rule looks at one, so there is one `nan` (PRESUMED with the format, log 7). -/
inductive F where
  | nan
  | inf (neg : Bool)
  | fin (neg : Bool) (mag : Nat)
  deriving DecidableEq, Repr

/-- +0.0. -/
abbrev F.zero : F := .fin false 0

end Sys2Proof
end

