-- ==== Sys2Proof/Config.lean ====
section
/-! DEFINITION. What an instance of the block fixes (00_scope.md R7, R9; 10_state.md R37), and the free value. -/

namespace Sys2Proof

/-- The configuration registers: "every parameter of 00_scope.md rules R7 and R9 is a read-only, hardwired configuration
field, fixed when the block is instantiated and unchanged by any operation and by reset" (10_state.md R37). The first group
are the document's constants of R7 with their values as defaults, the second the parameters of R9. -/
structure Config where
  poly : BitVec 16 := 0x1021
  crcInit : BitVec 16 := 0
  ack : Byte := 0xFF
  retries : Nat := 2
  discard : Nat := 5
  idWaitMs : Nat := 100
  pollMs : Nat := 1000
  settleMs : Nat := 100
  address : Byte
  verifyBytes : List Byte
  verifyTimeoutMs : Nat
  txMax : Nat
  wMax : Nat
  idCmd : Byte
  retrieveCmd : Byte
  deviceId : BitVec 16
  scanFail : BitVec 16 := 0xFFFF
  scanWords : Nat := 361
  flen : FLen
  raww : RawW
  nAxes : Nat
  hAxis : Nat
  deadZone : F
  qCap : Nat
  sens : F
  odr : F
  microsteps : F
  dirCwLevel : Bool
  stopFiresComplete : Bool
  deriving DecidableEq, Repr

/-- The configuration of State.reset: the one at the head of 95_test_vectors.md ("ADDRESS = 0x80 ... FLEN = 32"), and, for
the five parameters it does not name, a value of the model's own. DESIGN CHOICE, unsafe, log 1: OPEN parameters have no
value in the spec; statements quantify over `State.cfg`. -/
def Config.initial : Config where
  address := 0x80
  verifyBytes := [0x80, 0x15]
  verifyTimeoutMs := 100
  txMax := 32
  wMax := 16
  idCmd := 0x49
  retrieveCmd := 0x47
  deviceId := 600
  flen := .f32
  raww := .w16
  nAxes := 1
  hAxis := 0
  deadZone := .fin false 0x41A00000
  qCap := 4
  sens := .fin false 0x3D800000
  odr := .fin false 0x42800000
  microsteps := .fin false 0x44000000
  dirCwLevel := true
  stopFiresComplete := false

/-- The free value of the model: the n-th level that the spec leaves open. The step reads it at `State.fresh` and advances
that counter. It stands for the level of `STEP` after a loop is stopped (93_implementation_defined.md U11, "any value"; log
6). It has no body: nothing can be proved of it. -/
opaque Config.freeLevel : Nat → Bool

/-- The free value a register read gives where R308 of 70_reset_and_hazards.md lets the host read and another rule keeps the value
from it (log 23): a number for each `entry` of what is read, at the number `State.fresh` of the read, which advances that counter;
its low bits stand for a value of fewer bits. It has no body: nothing can be proved of it. -/
opaque Config.freeNumber : (read entry : Nat) → Nat

end Sys2Proof
end

