-- ==== Sys2Proof/Machine/Bytes.lean ====
section
/-! DEFINITION. Field assembly: bytes to words and back, most significant byte first (20_memory.md R60, 30_encoding.md R109
to R113). -/

namespace Sys2Proof.Machine

/-- `v[15:8]` (R109, R112). -/
def hiByte (v : BitVec 16) : Byte := v.extractLsb' 8 8

/-- `v[7:0]` (R109, R112). -/
def loByte (v : BitVec 16) : Byte := v.extractLsb' 0 8

/-- `b0 ++ b1`, `b0` the first byte (R109, R111). -/
def word16 (b0 b1 : Byte) : BitVec 16 := b0 ++ b1

/-- `zext_32(b0) << 24 | zext_32(b1) << 16 | zext_32(b2) << 8 | zext_32(b3)`, `b0` the first byte (R110). -/
def word32 (b0 b1 b2 b3 : Byte) : BitVec 32 := b0 ++ b1 ++ b2 ++ b3

/-- Eight bytes, the first one in the high bits (R114, an `F` operand with `FLEN = 64`). -/
def word64 (b0 b1 b2 b3 b4 b5 b6 b7 : Byte) : BitVec 64 := b0 ++ b1 ++ b2 ++ b3 ++ b4 ++ b5 ++ b6 ++ b7

/-- The two bytes of a 16-bit field in wire order. -/
def bytes16 (v : BitVec 16) : List Byte := [hiByte v, loByte v]

/-- The four bytes of a 32-bit field in wire order. -/
def bytes32 (v : BitVec 32) : List Byte :=
  [v.extractLsb' 24 8, v.extractLsb' 16 8, v.extractLsb' 8 8, v.extractLsb' 0 8]

/-- The eight bytes of a 64-bit field in wire order. -/
def bytes64 (v : BitVec 64) : List Byte :=
  [v.extractLsb' 56 8, v.extractLsb' 48 8, v.extractLsb' 40 8, v.extractLsb' 32 8,
   v.extractLsb' 24 8, v.extractLsb' 16 8, v.extractLsb' 8 8, v.extractLsb' 0 8]

/-- The words of a response: four bytes each, in arrival order (R103, R110). Bytes past the last whole word make none. -/
def words32 : List Byte → List (BitVec 32)
  | b0 :: b1 :: b2 :: b3 :: rest => word32 b0 b1 b2 b3 :: words32 rest
  | _ => []

/-- The 16-bit words of a stream read in whole words (R108, R111). -/
def words16 : List Byte → List (BitVec 16)
  | b0 :: b1 :: rest => word16 b0 b1 :: words16 rest
  | _ => []

end Sys2Proof.Machine
end

