-- ==== Sys2Proof/Syntax.lean ====
section
/-! DEFINITION. The 21 operations of spec/opcode_table.json, with the operands of 30_encoding.md R114 and R123, and the ways
a descriptor can fail to name one. -/

namespace Sys2Proof

/-- `CW | CCW` (10_state.md R24). -/
inductive Dir where
  | cw
  | ccw
  deriving DecidableEq, Repr

/-- The five modes of the Sampling Pipeline (42_sampling_pipeline.md R180). -/
inductive Mode where
  | raw
  | cal
  | offset
  | deadZone
  | heading
  deriving DecidableEq, Repr

/-- One host operation of the block (30_encoding.md R114), operands in the document's order (R123). -/
inductive Instr where
  /-- `writeFrame(retries, expectAck, bytes...)`, R133 -/
  | ptWriteframe (retries : Byte) (expectAck : Bool) (bytes : List Byte)
  /-- `readWords(commandCode, wordCount)`, R134 -/
  | ptReadwords (commandCode : Byte) (wordCount : Byte)
  /-- `readBytePair(commandCode)`, R135 -/
  | ptReadbytepair (commandCode : Byte)
  /-- `verifyIdentity()`, R136 -/
  | ptVerifyid
  /-- `writeCommand(type)`, R160 -/
  | crWritecmd (type : Byte)
  /-- `writeCommandWithParam(type, param)`, R161 -/
  | crWritecmdp (type : Byte) (param : BitVec 16)
  /-- `readWord()`, R162 -/
  | crReadword
  /-- `readWords(n)`, R163 -/
  | crReadwordsn (n : BitVec 16)
  /-- the identity check, R164 -/
  | crIdcheck
  /-- `isTaskDone(wait)`, R165 -/
  | crIstaskdone (wait : Bool)
  /-- scan retrieval, R166 -/
  | crScanretr
  /-- activation in a mode, R182 -/
  | spActivate (mode : Mode)
  /-- deactivate, R183 -/
  | spDeactivate
  /-- calibration end, R184 -/
  | spCalend
  /-- the blocking consumer, R185 -/
  | spPop
  /-- the bounded-wait consumer, R186 -/
  | spPopt (timeoutMs : BitVec 32)
  /-- `run(direction, speedRPM)`, R212 -/
  | pgRun (dir : Dir) (speed : FBits)
  /-- `stepCount(count, direction, speedRPM, background, onComplete)`, R213 -/
  | pgStepcount (count : BitVec 32) (dir : Dir) (speed : FBits) (background : Bool) (cb : Bool)
  /-- `stop()`, R214 -/
  | pgStop
  /-- `getStepCount()`, R215 -/
  | pgGetstepcount
  /-- device close, R216 -/
  | pgClose
  deriving DecidableEq, Repr

/-- Why a list of descriptor bytes names no operation. -/
inductive Reject where
  /-- there is no descriptor byte at all -/
  | empty
  /-- the bytes end before the operand fields of the opcode's format do (R114) -/
  | truncated
  /-- the opcode byte is not in the map (R118) -/
  | opcode (b : Byte)
  /-- a `flags` field has a bit set above the defined ones (R119) -/
  | reservedFlags (b : Byte)
  /-- SP.ACTIVATE with a `mode` byte of 5 to 255 (R119) -/
  | reservedMode (b : Byte)
  deriving DecidableEq, Repr

end Sys2Proof
end

