-- ==== Sys2Proof/Decode.lean ====
section
/-! DEFINITION. The host command descriptor: the decoder, total on any bytes and rejecting by name, and the encoder
(30_encoding.md R114, R118, R119). -/

namespace Sys2Proof

/-- The mode byte of SP.ACTIVATE: "0 Raw, 1 Cal, 2 Offset, 3 DeadZone, 4 Heading", 5 to 255 refused (R114, R119). -/
def decodeMode (b : Byte) : Except Reject Mode :=
  match b.toNat with
  | 0 => .ok .raw
  | 1 => .ok .cal
  | 2 => .ok .offset
  | 3 => .ok .deadZone
  | 4 => .ok .heading
  | _ => .error (.reservedMode b)

/-- The number of a mode (10_state.md R36). -/
def Mode.code : Mode → BitVec 3
  | .raw => 0
  | .cal => 1
  | .offset => 2
  | .deadZone => 3
  | .heading => 4

/-- Flag bit 0 of a direction: "0 CW, 1 CCW" (R114). -/
def decodeDir (bit : Bool) : Dir := if bit then .ccw else .cw

/-- The direction bit of a direction (R114). -/
def Dir.bit : Dir → Bool
  | .cw => false
  | .ccw => true

/-- An `F` operand: "its IEEE 754 bit pattern in FLEN/8 bytes", most significant byte first (R114). -/
def decodeF : FLen → List Byte → Except Reject (FBits × List Byte)
  | .f32, b0 :: b1 :: b2 :: b3 :: rest => .ok (.b32 (Machine.word32 b0 b1 b2 b3), rest)
  | .f64, b0 :: b1 :: b2 :: b3 :: b4 :: b5 :: b6 :: b7 :: rest =>
    .ok (.b64 (Machine.word64 b0 b1 b2 b3 b4 b5 b6 b7), rest)
  | _, _ => .error .truncated

/-- Format HW: retries, flags (bit 0 expectAck), len, then `len` bytes (R114). -/
def decodeWriteframe : List Byte → Except Reject (Instr × List Byte)
  | retries :: flags :: l1 :: l0 :: rest =>
    if 1 < flags.toNat then .error (.reservedFlags flags)
    else if rest.length < (Machine.word16 l1 l0).toNat then .error .truncated
    else .ok (.ptWriteframe retries (flags.getLsbD 0) (rest.take (Machine.word16 l1 l0).toNat),
      rest.drop (Machine.word16 l1 l0).toNat)
  | _ => .error .truncated

/-- Format HBF: flags (bit 0 dir), speedRPM (R114). -/
def decodeRun (fl : FLen) : List Byte → Except Reject (Instr × List Byte)
  | flags :: rest =>
    if 1 < flags.toNat then .error (.reservedFlags flags)
    else
      match decodeF fl rest with
      | .ok (v, rest') => .ok (.pgRun (decodeDir (flags.getLsbD 0)) v, rest')
      | .error e => .error e
  | [] => .error .truncated

/-- Format HBWF: flags (bit 0 dir, bit 1 background, bit 2 onComplete present), count, speedRPM (R114). -/
def decodeStepcount (fl : FLen) : List Byte → Except Reject (Instr × List Byte)
  | flags :: n3 :: n2 :: n1 :: n0 :: rest =>
    if 7 < flags.toNat then .error (.reservedFlags flags)
    else
      match decodeF fl rest with
      | .ok (v, rest') =>
        .ok (.pgStepcount (Machine.word32 n3 n2 n1 n0) (decodeDir (flags.getLsbD 0)) v (flags.getLsbD 1)
          (flags.getLsbD 2), rest')
      | .error e => .error e
  | _ => .error .truncated

/-- One operand byte (formats HB). -/
def decodeB (k : Byte → Instr) : List Byte → Except Reject (Instr × List Byte)
  | b :: rest => .ok (k b, rest)
  | [] => .error .truncated

/-- The operand fields after the opcode byte `op`, by the map of R114; every opcode not in the map is refused (R118). -/
def decodeOperands (fl : FLen) (op : Byte) (bs : List Byte) : Except Reject (Instr × List Byte) :=
  match op.toNat with
  | 0x01 => decodeWriteframe bs
  | 0x02 =>
    match bs with
    | cc :: w :: rest => .ok (.ptReadwords cc w, rest)
    | _ => .error .truncated
  | 0x03 => decodeB .ptReadbytepair bs
  | 0x04 => .ok (.ptVerifyid, bs)
  | 0x10 => decodeB .crWritecmd bs
  | 0x11 =>
    match bs with
    | t :: p1 :: p0 :: rest => .ok (.crWritecmdp t (Machine.word16 p1 p0), rest)
    | _ => .error .truncated
  | 0x12 => .ok (.crReadword, bs)
  | 0x13 =>
    match bs with
    | n1 :: n0 :: rest => .ok (.crReadwordsn (Machine.word16 n1 n0), rest)
    | _ => .error .truncated
  | 0x14 => .ok (.crIdcheck, bs)
  | 0x15 =>
    match bs with
    | flags :: rest =>
      if 1 < flags.toNat then .error (.reservedFlags flags) else .ok (.crIstaskdone (flags.getLsbD 0), rest)
    | [] => .error .truncated
  | 0x16 => .ok (.crScanretr, bs)
  | 0x20 =>
    match bs with
    | b :: rest =>
      match decodeMode b with
      | .ok m => .ok (.spActivate m, rest)
      | .error e => .error e
    | [] => .error .truncated
  | 0x21 => .ok (.spDeactivate, bs)
  | 0x22 => .ok (.spCalend, bs)
  | 0x23 => .ok (.spPop, bs)
  | 0x24 =>
    match bs with
    | t3 :: t2 :: t1 :: t0 :: rest => .ok (.spPopt (Machine.word32 t3 t2 t1 t0), rest)
    | _ => .error .truncated
  | 0x30 => decodeRun fl bs
  | 0x31 => decodeStepcount fl bs
  | 0x32 => .ok (.pgStop, bs)
  | 0x33 => .ok (.pgGetstepcount, bs)
  | 0x34 => .ok (.pgClose, bs)
  | _ => .error (.opcode op)

/-- Reads one descriptor at the head of the bytes the host hands over: the operation, and the bytes after it (R114, R122). -/
def decode (fl : FLen) : List Byte → Except Reject (Instr × List Byte)
  | [] => .error .empty
  | op :: bs => decodeOperands fl op bs

/-- The bytes of an `F` operand. -/
def FBits.bytes : FBits → List Byte
  | .b32 v => Machine.bytes32 v
  | .b64 v => Machine.bytes64 v

/-- Flag bits 2 to 0 as a `flags` byte. -/
def flagsByte (b2 b1 b0 : Bool) : Byte := (if b2 then 4 else 0) + (if b1 then 2 else 0) + (if b0 then 1 else 0)

/-- The descriptor of an operation (R114). -/
def encode : Instr → List Byte
  | .ptWriteframe r ack bytes =>
    0x01 :: r :: flagsByte false false ack :: (Machine.bytes16 (BitVec.ofNat 16 bytes.length) ++ bytes)
  | .ptReadwords cc w => [0x02, cc, w]
  | .ptReadbytepair cc => [0x03, cc]
  | .ptVerifyid => [0x04]
  | .crWritecmd t => [0x10, t]
  | .crWritecmdp t p => 0x11 :: t :: Machine.bytes16 p
  | .crReadword => [0x12]
  | .crReadwordsn n => 0x13 :: Machine.bytes16 n
  | .crIdcheck => [0x14]
  | .crIstaskdone wait => [0x15, flagsByte false false wait]
  | .crScanretr => [0x16]
  | .spActivate m => [0x20, m.code.zeroExtend 8]
  | .spDeactivate => [0x21]
  | .spCalend => [0x22]
  | .spPop => [0x23]
  | .spPopt t => 0x24 :: Machine.bytes32 t
  | .pgRun d v => 0x30 :: flagsByte false false d.bit :: v.bytes
  | .pgStepcount n d v bg cb => 0x31 :: flagsByte cb bg d.bit :: (Machine.bytes32 n ++ v.bytes)
  | .pgStop => [0x32]
  | .pgGetstepcount => [0x33]
  | .pgClose => [0x34]

/-- The longest descriptor of fixed length, PG.STEPCOUNT with `FLEN = 64`, is 14 bytes (R114): as many zero bytes follow a
word of the opcode table. -/
def maxOperandBytes : Nat := 14

/-- The `nbits / 8` bytes of a word of spec/opcode_table.json, the first byte in its low bits, and zero bytes after them. -/
def tableBytes (nbits w : Nat) : List Byte :=
  (List.range (nbits / 8)).map (fun i => BitVec.ofNat 8 (w / 2 ^ (8 * i))) ++ List.replicate maxOperandBytes 0

/-- The operation the decoder reads from a word of spec/opcode_table.json at the configuration of reset. -/
def decodeTableWord (nbits w : Nat) : Option Instr :=
  match decode Config.initial.flen (tableBytes nbits w) with
  | .ok (i, _) => some i
  | .error _ => none

end Sys2Proof
end

