-- ==== Sys2Proof/Machine/State.lean ====
section
/-! DEFINITION. The state of the block (10_state.md), the environment's side of it as plain data (00_scope.md R12, R18;
20_memory.md R82), the reasons a step can stop, and the state after reset (10_state.md R47). -/

namespace Sys2Proof.Machine

/-- Where the value of a register comes from whose reset value is `unspecified` (10_state.md R25, R47). -/
inductive Standing where
  /-- nothing has written it since reset: it holds the value the model names (DESIGN CHOICE, log 5) -/
  | atReset
  /-- the operation that last wrote it left the value -/
  | written
  /-- the operation that last was to write it failed: it "holds no value" (R25, 92 D20) -/
  | failed
  deriving DecidableEq, Repr

/-- A register whose reset value is `unspecified`: its value, and where that comes from (10_state.md R25). While `held` is
`failed` no rule reads `val`. -/
structure Held (α : Type) where
  val : α
  held : Standing
  deriving DecidableEq, Repr

/-- The two byte channels (00_scope.md R12). -/
inductive Chan where
  | pt
  | cr
  deriving DecidableEq, Repr

/-- The two digital outputs (00_scope.md R12). -/
inductive Pin where
  | step
  | dir
  deriving DecidableEq, Repr

/-- The error classes (60_exceptions.md R240). -/
inductive ErrClass where
  | communicationFailure
  | integrityFailure
  | deviceUnavailable
  | protocolFault
  | queueOverrun
  | invalidStateError
  deriving DecidableEq, Repr

/-- phase[PT] (10_state.md R28). -/
inductive PtPhase where
  | idle
  | txBody (i : Nat)
  | txCrcHi
  | txCrcLo
  | rxAck
  | rxData (i : Nat)
  | rxCrcHi
  | rxCrcLo
  | check
  | idWait
  deriving DecidableEq, Repr

/-- phase[CR] (10_state.md R29). -/
inductive CrPhase where
  | idle
  | tx (i : Nat)
  | idWait
  | poll
  | rx (i : Nat)
  deriving DecidableEq, Repr

/-- phase[PG] (10_state.md R31). -/
inductive PgPhase where
  | noLoop
  | settling
  | high (k : Nat)
  | low (k : Nat)
  | completing
  | closed
  deriving DecidableEq, Repr

/-- pg_target: `Finite n | Infinite | None` (10_state.md R24). -/
inductive Target where
  | none
  | infinite
  | finite (n : BitVec 32)
  deriving DecidableEq, Repr

/-- The value of a Sample: raw integers in mode Raw (each sign-extended from RAWW bits), floats in Offset and DeadZone
(10_state.md R41). -/
inductive SampleValue where
  | raw (v : List (BitVec 32))
  | float (v : List F)
  deriving DecidableEq, Repr

/-- An element of the queue: `Sample(value, delta)` or `Angle(a)` (10_state.md R41). -/
inductive QElem where
  | sample (value : SampleValue) (delta : BitVec 64)
  | angle (a : F)
  deriving DecidableEq, Repr

/-- The four units. -/
inductive UnitName where
  | pt
  | cr
  | sp
  | pg
  deriving DecidableEq, Repr

/-- `data` of a result record (30_encoding.md R115). -/
inductive Data where
  | none
  | words (w : List (BitVec 32))
  | pair (b0 b1 : Byte)
  | word (w : BitVec 16)
  | wordList (w : List (BitVec 16))
  | bool (b : Bool)
  | elem (e : QElem)
  | count (n : BitVec 32)
  deriving DecidableEq, Repr

/-- The result record `(ok, err, data)` an operation returns to the host (30_encoding.md R115). -/
structure Result where
  unit : UnitName
  ok : Bool
  err : BitVec 3
  data : Data
  deriving DecidableEq, Repr

/-- What the block sends out: the two diagnostics of 60_exceptions.md R250. -/
inductive Diag where
  | queueOverrun
  | complete
  deriving DecidableEq, Repr

/-- The configuration registers whose value a host's read gives (10_state.md R37, 70_reset_and_hazards.md R308): all but the
fixed waits. -/
inductive Param where
  | poly | crcInit | ack | retries | discard | address | verifyBytes | txMax | wMax | idCmd | retrieveCmd | deviceId
  | scanFail | scanWords | flen | raww | nAxes | hAxis | deadZone | qCap | sens | odr | microsteps | dirCwLevel
  | stopFiresComplete
  deriving DecidableEq, Repr

/-- The configuration registers of the fixed waits, `ID_WAIT_MS`, `POLL_MS`, `SETTLE_MS` and `VERIFY_TIMEOUT_MS` (00_scope.md
R7, R9; 10_state.md R37), none of which "is readable or writable by the host" (60_exceptions.md R261). -/
inductive FixedWait where
  | idWait | poll | settle | verifyTimeout
  deriving DecidableEq, Repr

/-- The registers of 10_state.md by their names there, for the host's reads between operations (70_reset_and_hazards.md R308).
For `spLastTs`, `spCount`, `spSum` and `spAngle`, which only the handler computes, and for the fixed waits a read gives a free
value (20_memory.md R87, 10_state.md R40, 60_exceptions.md R261; log 23). -/
inductive RegName where
  | ptCrc | ptAttempts | ptRxcrc | ptData | ptPair | ptOk | ptErr
  | crWord | crData | crOk | crErr | crDone | crMatch
  | spActive | spMode | spLastTs | spCount | spSum | spOffset | spOffsetValid | spAngle | spOvr | spOk | spErr
  | pgDir | pgHalf | pgTarget | pgCount | pgCbEn | pgRunning | pgClosed | pgOk | pgErr
  /-- a configuration register of 10_state.md R37 -/
  | config (p : Param)
  /-- a configuration register of R37 that is a fixed wait -/
  | fixedWait (w : FixedWait)
  deriving DecidableEq, Repr

/-- The value a register read gives the host. -/
inductive RegVal where
  | bool (b : Bool)
  | u16 (v : BitVec 16)
  | u32 (v : BitVec 32)
  | i64 (v : BitVec 64)
  | i64s (v : List (BitVec 64))
  | nat (n : Nat)
  | words (w : List (BitVec 32))
  | pair (b0 b1 : Byte)
  | wordList (w : List (BitVec 16))
  | floats (v : List F)
  | float (v : F)
  | err (v : BitVec 3)
  | mode (m : Mode)
  | dir (d : Dir)
  | target (t : Target)
  | u8 (v : Byte)
  | bytes (v : List Byte)
  | flen (v : FLen)
  | raww (v : RawW)
  deriving DecidableEq, Repr

/-- What a host's read of a register comes to. -/
inductive HostRead where
  /-- the register's value -/
  | value (v : RegVal)
  /-- a failed operation left the register without a value (10_state.md R25) -/
  | noValue
  /-- a free value, since another rule keeps the register's from the host (20_memory.md R87, 60_exceptions.md R261; log 23) -/
  | free (v : RegVal)
  deriving DecidableEq, Repr

/-- One entry of the event history: a primitive call of 00_scope.md R12 with the answer it got, an Emit, a host read, a
reset. "Both are records in the event history" (60_exceptions.md R250). -/
inductive Call where
  /-- `ChWrite(ch, b)` and whether it answered ok -/
  | write (ch : Chan) (b : Byte) (ok : Bool)
  /-- `ChRead(ch)` and the byte, or none for IOFail -/
  | read (ch : Chan) (b : Option Byte)
  /-- `ChAvail(ch)` and the count -/
  | avail (ch : Chan) (n : Nat)
  /-- `ChWaitByte(ch, ms)` and whether a byte came -/
  | waitByte (ch : Chan) (ms : Nat) (got : Bool)
  /-- `BusReadRaw()` and the readings -/
  | busRead (v : List (BitVec 32))
  /-- `DoutSet(pin, level)` -/
  | dout (pin : Pin) (level : Bool)
  /-- `ToggleStart(high, low, n, bg, done)`; `n` is none for INF, `done` says whether a completion action is given -/
  | toggleStart (high low : F) (n : Option (BitVec 32)) (bg done : Bool)
  /-- `ToggleStop()` -/
  | toggleStop
  /-- `ToggleCycles()` and the count -/
  | toggleCycles (n : BitVec 32)
  /-- `Delay(ms)` -/
  | delay (ms : Nat)
  /-- the environment let the `timeout_ms` of SP.POPT pass -/
  | popTimeout (ms : BitVec 32)
  /-- `Emit(d)` -/
  | emit (d : Diag)
  /-- the host read a register -/
  | hostRead (r : RegName) (v : RegVal)
  /-- the block was reset -/
  | reset
  deriving DecidableEq, Repr

/-- How the environment answers the primitive call that is outstanding: `proceed` lets it complete, `fail` is IOFail or, for
a bounded wait, the time running out (00_scope.md R12, R18). -/
inductive Verdict where
  | proceed
  | fail
  deriving DecidableEq, Repr

/-- One move of the environment: an answer (EV.ANSWER, 30_encoding.md R116), or a change of a receive side, which "belongs to
the environment" (10_state.md R44). -/
inductive EnvMove where
  | answer (v : Verdict)
  | rx (ch : Chan) (bytes : List Byte)
  deriving DecidableEq, Repr

/-- Whose step comes next, one entry per step (20_memory.md R80, R82). -/
inductive Event where
  /-- the host: it issues its next descriptor, or goes on with the operation it is blocked in -/
  | host
  /-- EV.IRQ(ts); `raw` is what BusReadRaw() answers in this invocation -/
  | irq (ts : BitVec 64) (raw : List (BitVec 32))
  /-- EV.TOGGLE -/
  | toggle
  /-- EV.ANSWER, or a change of a receive side -/
  | answer (m : EnvMove)
  /-- the host reads a register -/
  | read (r : RegName)
  /-- the reset of 70_reset_and_hazards.md R280 -/
  | reset
  deriving DecidableEq, Repr

/-- Which PT operation is in progress, with its operands "held unchanged for all attempts" (10_state.md R43). -/
inductive PtKind where
  | writeFrame (expectAck : Bool) (bytes : List Byte)
  | readWords (commandCode : Byte) (wordCount : Nat)
  | readPair (commandCode : Byte)
  | verify
  deriving DecidableEq, Repr

/-- A PT operation in progress: the retry budget, the response bytes this attempt has read, and the first CRC byte read. -/
structure PtOp where
  kind : PtKind
  budget : Nat
  got : List Byte
  crcHi : Byte
  deriving DecidableEq, Repr

/-- Which CR operation is in progress, with its operands. -/
inductive CrKind where
  | cmd (type : Byte)
  | cmdParam (type : Byte) (param : BitVec 16)
  | word
  | words (n : Nat)
  | idCheck
  | taskDone (wait : Bool)
  | scan
  deriving DecidableEq, Repr

/-- A CR operation in progress: the first byte of the word being read, the words read so far, and whether the status word of a
scan retrieval has been read. -/
structure CrOp where
  kind : CrKind
  hi : Byte
  words : List (BitVec 16)
  statusRead : Bool
  deriving DecidableEq, Repr

/-- The individual actions of PG.RUN and PG.STEPCOUNT that are steps of their own (20_memory.md R82), in the order of
43_pulse_generator.md R212 and R213: each a primitive call, with the assignments the rule writes before it on its line. -/
inductive LaunchAct where
  /-- `Emit(Complete)` of the loop that PG.RUN has just stopped (R214) -/
  | emit
  /-- `Delay(SETTLE_MS)` -/
  | delay
  /-- `REG[pg_dir] <- direction; DoutSet(DIR, ...)` -/
  | dir
  /-- the half-period, target, callback and count registers, and the running flag -/
  | registers
  /-- `ToggleStart(...)` -/
  | start
  /-- `DoutSet(STEP, on); phase[PG] <- High(0)`, and the return or the wait -/
  | stepOn
  deriving DecidableEq, Repr

/-- PG.RUN or PG.STEPCOUNT in progress: what it programs, and its next action. -/
structure LaunchOp where
  dir : Dir
  half : F
  target : Target
  cbEn : Bool
  background : Bool
  act : LaunchAct
  deriving DecidableEq, Repr

/-- The operation the host is blocked in (20_memory.md R80, R86). -/
inductive Pending where
  | pt (op : PtOp)
  | cr (op : CrOp)
  /-- SP.POP on an empty queue -/
  | pop
  /-- SP.POPT on an empty queue -/
  | popt (ms : BitVec 32)
  | launch (op : LaunchOp)
  /-- PG.STEPCOUNT with `background = false`, waiting for the end of its loop -/
  | loopEnd
  deriving DecidableEq, Repr

/-- The PT unit (10_state.md R21, R28, R34, R35). -/
structure PtUnit where
  phase : PtPhase
  crc : BitVec 16
  attempts : Nat
  rxcrc : Held (BitVec 16)
  data : Held (List (BitVec 32))
  pair : Held (Byte × Byte)
  ok : Bool
  err : BitVec 3
  deriving DecidableEq, Repr

/-- The CR unit (10_state.md R22, R29, R34, R35). -/
structure CrUnit where
  phase : CrPhase
  word : Held (BitVec 16)
  data : Held (List (BitVec 16))
  ok : Bool
  err : BitVec 3
  done : Bool
  matched : Bool
  deriving DecidableEq, Repr

/-- The SP unit (10_state.md R23, R30, R32, R34 to R36, R39 to R41). -/
structure SpUnit where
  active : Bool
  mode : Mode
  lastTs : BitVec 64
  count : BitVec 32
  sum : List (BitVec 64)
  offset : Held (List F)
  offsetValid : Bool
  angle : F
  q : List QElem
  ovr : Bool
  ok : Bool
  err : BitVec 3
  deriving DecidableEq, Repr

/-- The PG unit and its two outputs (10_state.md R24, R31, R33 to R35, R42). -/
structure PgUnit where
  phase : PgPhase
  dir : Held Dir
  half : Held F
  target : Target
  count : BitVec 32
  cbEn : Bool
  running : Bool
  closed : Bool
  ok : Bool
  err : BitVec 3
  stepOut : Bool
  dirOut : Held Bool
  deriving DecidableEq, Repr

/-- The whole state. From `ptRx` on it is the environment's and the host's side, held as plain data so that a run is one
computation (log 2). `fresh` is the model's own: it numbers the free values (log 6, log 23). -/
structure State where
  cfg : Config
  pt : PtUnit
  cr : CrUnit
  sp : SpUnit
  pg : PgUnit
  /-- the operation in progress -/
  busy : Option Pending
  /-- the result record of the last operation that returned (30_encoding.md R115) -/
  ret : Option Result
  /-- the event history, oldest first (60_exceptions.md R250) -/
  hist : List Call
  fresh : Nat
  /-- the receive side of CH_PT (10_state.md R44) -/
  ptRx : List Byte
  /-- the receive side of CH_CR -/
  crRx : List Byte
  /-- the environment's next moves -/
  env : List EnvMove
  /-- whose steps come next; when it is empty the host moves (log 3) -/
  sched : List Event
  /-- the descriptor bytes the host has yet to issue (30_encoding.md R114) -/
  host : List Byte
  deriving DecidableEq, Repr

/-- The two `u32` counters of 93_implementation_defined.md U9. -/
inductive Counter where
  | spCount
  | pgCount
  deriving DecidableEq, Repr

/-- Why the machine stops. -/
inductive Fault where
  /-- The host reads a result register after the operation that writes it failed, or a data register after a failed operation
  (10_state.md R21, R22, R25, 93_implementation_defined.md U1: "fault"). Safe: nothing past it is provable. -/
  | noValue (r : RegName)
  /-- The handler or the toggle loop would carry a `u32` counter past 2^32 - 1 (93_implementation_defined.md U9: "fault").
  Safe. -/
  | counterOverflow (c : Counter)
  deriving DecidableEq, Repr

/-- Why a step is refused. -/
inductive Refusal where
  /-- raised by exec's arm of an instruction without a meaning; safe (no arm is left that answers it) -/
  | notModelled (mnemonic : String)
  /-- raised by the host's turn: the descriptor bytes name no operation (30_encoding.md R118, R119; U4: "refuse"); safe -/
  | descriptor (e : Reject)
  /-- raised by PT.WRITEFRAME, PT.READWORDS, PG.RUN, PG.STEPCOUNT on an operand value the spec reserves (R119; U4, U8, U10:
  "refuse"); safe -/
  | reservedOperand (field : String)
  /-- raised by every operation and by a host read while the host is blocked in another operation: "a second caller" (U15:
  "refuse: outside the model"); safe -/
  | hostBusy
  /-- raised by every step at a configuration outside its domains (U14: "refuse"); safe -/
  | illegalConfig
  deriving DecidableEq, Repr

/-- The PT unit after reset (10_state.md R47). The values under `held := .atReset` are the model's (DESIGN CHOICE, log 5). -/
def PtUnit.reset : PtUnit where
  phase := .idle
  crc := 0
  attempts := 0
  rxcrc := ⟨0, .atReset⟩
  data := ⟨[], .atReset⟩
  pair := ⟨(0, 0), .atReset⟩
  ok := false
  err := 0

/-- The CR unit after reset (10_state.md R47; log 5). -/
def CrUnit.reset : CrUnit where
  phase := .idle
  word := ⟨0, .atReset⟩
  data := ⟨[], .atReset⟩
  ok := false
  err := 0
  done := false
  matched := false

/-- The SP unit after reset, with `NAXES` sums and offsets (10_state.md R47; log 5). -/
def SpUnit.reset (nAxes : Nat) : SpUnit where
  active := false
  mode := .raw
  lastTs := 0
  count := 0
  sum := List.replicate nAxes 0
  offset := ⟨List.replicate nAxes F.zero, .atReset⟩
  offsetValid := false
  angle := F.zero
  q := []
  ovr := false
  ok := false
  err := 0

/-- The PG unit after reset: `STEP` driven off, no loop (10_state.md R47; log 5). -/
def PgUnit.reset : PgUnit where
  phase := .noLoop
  dir := ⟨.cw, .atReset⟩
  half := ⟨F.zero, .atReset⟩
  target := .none
  count := 0
  cbEn := false
  running := false
  closed := false
  ok := false
  err := 0
  stepOut := false
  dirOut := ⟨false, .atReset⟩

/-- The block right after reset at a configuration, the environment having done nothing and the host having nothing to issue. -/
def State.resetAt (c : Config) : State where
  cfg := c
  pt := PtUnit.reset
  cr := CrUnit.reset
  sp := SpUnit.reset c.nAxes
  pg := PgUnit.reset
  busy := none
  ret := none
  hist := []
  fresh := 0
  ptRx := []
  crRx := []
  env := []
  sched := []
  host := []

/-- The machine right after reset (10_state.md R47), at the configuration of log 1. -/
def State.reset : State := State.resetAt Config.initial

end Sys2Proof.Machine
end

