-- ==== Sys2Proof/Machine/Flags.lean ====
section
/-! DEFINITION. Result flags and error codes (10_state.md R34, R35; 60_exceptions.md R240). -/

namespace Sys2Proof.Machine

/-- The number of an error class: "1 CommunicationFailure, 2 IntegrityFailure, 3 DeviceUnavailable, 4 ProtocolFault,
5 QueueOverrun, 6 InvalidStateError" (R240). -/
def ErrClass.code : ErrClass → BitVec 3
  | .communicationFailure => 1
  | .integrityFailure => 2
  | .deviceUnavailable => 3
  | .protocolFault => 4
  | .queueOverrun => 5
  | .invalidStateError => 6

/-- `*_ok` and `*_err` of one unit; no other unit's are touched (R34, R35). -/
def State.setFlags (s : State) (u : UnitName) (ok : Bool) (err : BitVec 3) : State :=
  match u with
  | .pt => { s with pt := { s.pt with ok := ok, err := err } }
  | .cr => { s with cr := { s.cr with ok := ok, err := err } }
  | .sp => { s with sp := { s.sp with ok := ok, err := err } }
  | .pg => { s with pg := { s.pg with ok := ok, err := err } }

end Sys2Proof.Machine
end

