-- ==== Sys2Proof/Machine/Float.lean ====
section
/-! DEFINITION. The float operations of 00_scope.md R17: binary32 or binary64, each operation computed exactly and rounded
once, to nearest with ties to even. The format is the spec's own mark "from general knowledge" (R17, PRESUMED, log 7). -/

namespace Sys2Proof.Machine

/-- A finite magnitude as a whole number of units of `2 ^ -unitExp`. The fields of `mag` are the exponent field
`mag / 2^(prec-1)` and the fraction `mag % 2^(prec-1)`; a subnormal counts its own bits, and a normal number has the hidden
bit and is scaled by its exponent field less one. -/
def units (fl : FLen) (mag : Nat) : Nat :=
  let h := 2 ^ (fl.prec - 1)
  if mag < h then mag else (h + mag % h) * 2 ^ (mag / h - 1)

/-- The magnitude nearest to `num / den` units, ties to even. With at most `prec` bits before the point one unit is the
quantum; with more, the quantum is `2 ^ sh` units. A result of `infMag` or more is past the largest finite number. -/
def roundMag (fl : FLen) (num den : Nat) : Nat :=
  let sh := (num / den).log2 + 1 - fl.prec
  let d := den * 2 ^ sh
  let q := num / d
  let r := num % d
  let q' := if d < 2 * r ∨ (d = 2 * r ∧ q % 2 = 1) then q + 1 else q
  sh * 2 ^ (fl.prec - 1) + q'

/-- The datum of a sign and an exact value of `num / den` units, rounded; past the largest finite number it is infinity. -/
def roundF (fl : FLen) (neg : Bool) (num den : Nat) : F :=
  let m := roundMag fl num den
  if fl.infMag ≤ m then .inf neg else .fin neg m

/-- A finite datum as a signed number of units. -/
def signedUnits (fl : FLen) (neg : Bool) (mag : Nat) : Int := if neg then -(units fl mag : Int) else units fl mag

/-- The sign flipped. -/
def fNeg : F → F
  | .nan => .nan
  | .inf s => .inf (!s)
  | .fin s m => .fin (!s) m

/-- `a + b`, rounded once. An exact zero sum is +0.0 unless both addends are negative. -/
def fAdd (fl : FLen) : F → F → F
  | .nan, _ => .nan
  | _, .nan => .nan
  | .inf s, .inf t => if s = t then .inf s else .nan
  | .inf s, .fin _ _ => .inf s
  | .fin _ _, .inf t => .inf t
  | .fin s m, .fin t n =>
    let v := signedUnits fl s m + signedUnits fl t n
    if v = 0 then .fin (s && t) 0 else roundF fl (v < 0) v.natAbs 1

/-- `a - b`, rounded once. -/
def fSub (fl : FLen) (a b : F) : F := fAdd fl a (fNeg b)

/-- `a * b`, rounded once. -/
def fMul (fl : FLen) : F → F → F
  | .nan, _ => .nan
  | _, .nan => .nan
  | .inf s, .inf t => .inf (s ^^ t)
  | .inf s, .fin t n => if n = 0 then .nan else .inf (s ^^ t)
  | .fin s m, .inf t => if m = 0 then .nan else .inf (s ^^ t)
  | .fin s m, .fin t n => roundF fl (s ^^ t) (units fl m * units fl n) (2 ^ fl.unitExp)

/-- `a / b`, rounded once. -/
def fDiv (fl : FLen) : F → F → F
  | .nan, _ => .nan
  | _, .nan => .nan
  | .inf _, .inf _ => .nan
  | .inf s, .fin t _ => .inf (s ^^ t)
  | .fin s _, .inf t => .fin (s ^^ t) 0
  | .fin s m, .fin t n =>
    if n = 0 then (if m = 0 then .nan else .inf (s ^^ t))
    else roundF fl (s ^^ t) (units fl m * 2 ^ fl.unitExp) (units fl n)

/-- `F(n)`, the integer-to-float conversion, rounded once. -/
def fOfInt (fl : FLen) (n : Int) : F := roundF fl (n < 0) (n.natAbs * 2 ^ fl.unitExp) 1

/-- The place of a datum in the order of its format, none for a NaN. Magnitudes of one format are ordered as their fields
read as one number, and every one of them lies below `2 ^ 63`. -/
def fKey : F → Option Int
  | .nan => none
  | .inf neg => some (if neg then -(2 ^ 63) else 2 ^ 63)
  | .fin neg m => some (if neg then -(m : Int) else m)

/-- The IEEE comparison `a <= b`: false with a NaN. -/
def fLe (a b : F) : Bool :=
  match fKey a, fKey b with
  | some x, some y => x ≤ y
  | _, _ => false

/-- The datum of a magnitude field and a sign. -/
def fOfFields (infMag : Nat) (neg : Bool) (mag : Nat) : F :=
  if mag < infMag then .fin neg mag else if mag = infMag then .inf neg else .nan

/-- The datum of a bit pattern: the sign bit, then exponent and fraction. -/
def fOfBits : FBits → F
  | .b32 v => fOfFields (FLen.infMag .f32) (v.getLsbD 31) (v.toNat % 2 ^ 31)
  | .b64 v => fOfFields (FLen.infMag .f64) (v.getLsbD 63) (v.toNat % 2 ^ 63)

/-- `F(0.5)`: the exponent field of 1 less one step, fraction zero. -/
def half : FLen → F
  | .f32 => .fin false 0x3F000000
  | .f64 => .fin false 0x3FE0000000000000

/-- `PERIOD = F(1) / ODR` (10_state.md R37), one float division. -/
def period (c : Config) : F := fDiv c.flen (fOfInt c.flen 1) c.odr

/-- `HalfPeriod(speedRPM)`: "speedRPS <- speedRPM / F(60); stepFrequency <- speedRPS * MICROSTEPS; return F(0.5) /
stepFrequency" (43_pulse_generator.md R211). -/
def halfPeriod (c : Config) (speed : F) : F :=
  fDiv c.flen (half c.flen) (fMul c.flen (fDiv c.flen speed (fOfInt c.flen 60)) c.microsteps)

/-- `Clamp(c) = +0.0 if (-DEAD_ZONE <= c and c <= DEAD_ZONE) else c` (42_sampling_pipeline.md R194). -/
def clamp (c : Config) (x : F) : F :=
  if fLe (fNeg c.deadZone) x && fLe x c.deadZone then F.zero else x

end Sys2Proof.Machine
end

