-- ==== Sys2Proof/Machine/Legal.lean ====
section
/-! DEFINITION. Which operand values and which configurations are legal (30_encoding.md R119, 00_scope.md R9,
93_implementation_defined.md U8, U10, U14). The meanings and WellFormed both call these. -/

namespace Sys2Proof.Machine

/-- `speedRPM` is a pattern of the format `FLEN` that is "finite and greater than zero" (43_pulse_generator.md R211): the
sign bit clear, not zero, below infinity. -/
def legalSpeed : FLen → FBits → Bool
  | .f32, .b32 v => 0 < v.toNat && v.toNat < FLen.infMag .f32
  | .f64, .b64 v => 0 < v.toNat && v.toNat < FLen.infMag .f64
  | _, _ => false

/-- `count` is "1 to 2^31 - 1" (43_pulse_generator.md R213, R119). -/
def legalCount (n : BitVec 32) : Bool := 0 < n.toNat && n.toNat < 2 ^ 31

/-- `len <= TXMAX` (R119). The second bound is the descriptor's: its `len` field has 16 bits (R114), so a longer list is no
operand of any descriptor, whatever `TXMAX` is (DEDUCED, log 24). -/
def legalLen (c : Config) (bytes : List Byte) : Bool := bytes.length ≤ c.txMax && bytes.length < 2 ^ 16

/-- `wordCount <= WMAX` (R119). -/
def legalWords (c : Config) (w : Byte) : Bool := w.toNat ≤ c.wMax

/-- The datum is a finite number of the format. -/
def finiteIn (fl : FLen) : F → Bool
  | .fin _ m => m < fl.infMag
  | _ => false

/-- The datum is a finite number of the format and greater than zero. -/
def positiveIn (fl : FLen) : F → Bool
  | .fin neg m => !neg && 0 < m && m < fl.infMag
  | _ => false

/-- The domains of U14, for the parameters of R9. The document's constants of R7 are fields too ("each of these is a
configuration field of the model, not a literal inside a rule"), with R7's values as defaults; no domain is stated for
them. -/
def legalConfig (c : Config) : Bool :=
  2 ≤ c.verifyBytes.length && c.wMax < 2 ^ 8 && c.scanWords < 2 ^ 16
  && 1 ≤ c.nAxes && c.hAxis < c.nAxes && 1 ≤ c.qCap
  && finiteIn c.flen c.sens && positiveIn c.flen c.odr && positiveIn c.flen c.microsteps
  && (positiveIn c.flen c.deadZone || c.deadZone == .fin false 0 || c.deadZone == .fin true 0)

end Sys2Proof.Machine
end

