-- ==== Sys2Proof/Machine/Operands.lean ====
section
/-! DEFINITION. Operand forms: directions on the output, raw readings, per-axis values, register reads. -/

namespace Sys2Proof.Machine

/-- `DirLevel(CW) = DIR_CW_LEVEL`, `DirLevel(CCW)` its complement (00_scope.md R9, 92_eei_decisions.md D48). -/
def dirLevel (c : Config) : Dir → Bool
  | .cw => c.dirCwLevel
  | .ccw => !c.dirCwLevel

/-- One raw reading as RAWW bits, sign-extended: an `iRAWW` (00_scope.md R9, R12). -/
def rawNorm : RawW → BitVec 32 → BitVec 32
  | .w16, v => (v.extractLsb' 0 16).signExtend 32
  | .w32, v => v

/-- The answer of `BusReadRaw()` as a vector of NAXES readings (R12). An event's list stands for the vector of its first
NAXES entries, 0 where it has none, so that every list is an answer and every answer is a list (DESIGN CHOICE, safe, log 9). -/
def busVector (c : Config) (raw : List (BitVec 32)) : List (BitVec 32) :=
  (List.range c.nAxes).map (fun a => rawNorm c.raww (raw.getD a 0))

/-- `Correct(v, a) = F(v[a]) - REG[sp_offset[a]]` (42_sampling_pipeline.md R193). -/
def correct (c : Config) (offset : List F) (v : List (BitVec 32)) (a : Nat) : F :=
  fSub c.flen (fOfInt c.flen (v.getD a 0).toInt) (offset.getD a F.zero)

/-- The corrected values of all axes (R181, R190). -/
def correctAll (c : Config) (offset : List F) (v : List (BitVec 32)) : List F :=
  (List.range c.nAxes).map (correct c offset v)

/-- `sp_sum[a] + sext_64(v[a])` for every axis (42_sampling_pipeline.md R189). -/
def accumulate (c : Config) (sum : List (BitVec 64)) (v : List (BitVec 32)) : List (BitVec 64) :=
  (List.range c.nAxes).map (fun a => sum.getD a 0 + (v.getD a 0).signExtend 64)

/-- `F(sp_sum[a]) / F(n)` for every axis (42_sampling_pipeline.md R184). -/
def offsets (c : Config) (sum : List (BitVec 64)) (n : Nat) : List F :=
  (List.range c.nAxes).map (fun a => fDiv c.flen (fOfInt c.flen (sum.getD a 0).toInt) (fOfInt c.flen n))

/-- The three modes that read `sp_offset` (42_sampling_pipeline.md R182). -/
def usesOffset : Mode → Bool
  | .raw | .cal => false
  | .offset | .deadZone | .heading => true

/-- A toggle loop exists: `phase[PG] in {High(_), Low(_), Completing}` (43_pulse_generator.md R214, 60_exceptions.md R249). -/
def PgPhase.hasLoop : PgPhase → Bool
  | .high _ | .low _ | .completing => true
  | .noLoop | .settling | .closed => false

/-- A register whose reset value is `unspecified`: no value after a failed writing operation (10_state.md R25); the model's value
while nothing has written it (log 5). -/
def heldVal {α : Type} (r : Held α) (f : α → RegVal) : HostRead :=
  match r.held with
  | .atReset | .written => .value (f r.val)
  | .failed => .noValue

/-- A data register, once written "read by host, only when" the unit's `ok` is set (10_state.md R21, R22; log 12). -/
def resultVal {α : Type} (ok : Bool) (r : Held α) (f : α → RegVal) : HostRead :=
  match r.held with
  | .atReset => .value (f r.val)
  | .written => if ok then .value (f r.val) else .noValue
  | .failed => .noValue

/-- What the host reads from a configuration register (10_state.md R37). -/
def readParam (c : Config) : Param → RegVal
  | .poly => .u16 c.poly
  | .crcInit => .u16 c.crcInit
  | .ack => .u8 c.ack
  | .retries => .nat c.retries
  | .discard => .nat c.discard
  | .address => .u8 c.address
  | .verifyBytes => .bytes c.verifyBytes
  | .txMax => .nat c.txMax
  | .wMax => .nat c.wMax
  | .idCmd => .u8 c.idCmd
  | .retrieveCmd => .u8 c.retrieveCmd
  | .deviceId => .u16 c.deviceId
  | .scanFail => .u16 c.scanFail
  | .scanWords => .nat c.scanWords
  | .flen => .flen c.flen
  | .raww => .raww c.raww
  | .nAxes => .nat c.nAxes
  | .hAxis => .nat c.hAxis
  | .deadZone => .float c.deadZone
  | .qCap => .nat c.qCap
  | .sens => .float c.sens
  | .odr => .float c.odr
  | .microsteps => .float c.microsteps
  | .dirCwLevel => .bool c.dirCwLevel
  | .stopFiresComplete => .bool c.stopFiresComplete

/-- The float whose bit pattern is the low bits of a number. -/
def floatOfNat (fl : FLen) (n : Nat) : F :=
  fOfBits (match fl with | .f32 => .b32 (.ofNat 32 n) | .f64 => .b64 (.ofNat 64 n))

/-- What the host gets from `sp_last_ts`, `sp_count`, `sp_sum`, `sp_angle` or a fixed wait: free values, of the register's type
(20_memory.md R87, 10_state.md R23, R40; 60_exceptions.md R261; log 23). -/
def freeVal (s : State) (f : (Nat → Nat) → RegVal) : HostRead := .free (f (Config.freeNumber s.fresh))

/-- What a host's read of a register between operations comes to (70_reset_and_hazards.md R308): its value; no value where a
failed operation left it without one (10_state.md R25; log 5, log 12); and a free value, of the register's type, where the
handler computes it and 10_state.md R23 and R40 name no reader but the unit (20_memory.md R87), and for the fixed waits
(60_exceptions.md R261): R308 has the host read there too, and what it gets is left open (log 23). -/
def readReg (s : State) : RegName → HostRead
  | .ptCrc => .value (.u16 s.pt.crc)
  | .ptAttempts => .value (.nat s.pt.attempts)
  | .ptRxcrc => heldVal s.pt.rxcrc .u16
  | .ptData => resultVal s.pt.ok s.pt.data .words
  | .ptPair => resultVal s.pt.ok s.pt.pair (fun p => .pair p.1 p.2)
  | .ptOk => .value (.bool s.pt.ok)
  | .ptErr => .value (.err s.pt.err)
  | .crWord => heldVal s.cr.word .u16
  | .crData => resultVal s.cr.ok s.cr.data .wordList
  | .crOk => .value (.bool s.cr.ok)
  | .crErr => .value (.err s.cr.err)
  | .crDone => .value (.bool s.cr.done)
  | .crMatch => .value (.bool s.cr.matched)
  | .spActive => .value (.bool s.sp.active)
  | .spMode => .value (.mode s.sp.mode)
  | .spLastTs => freeVal s fun n => .i64 (.ofNat 64 (n 0))
  | .spCount => freeVal s fun n => .u32 (.ofNat 32 (n 0))
  | .spSum => freeVal s fun n => .i64s ((List.range s.cfg.nAxes).map fun a => .ofNat 64 (n a))
  | .spAngle => freeVal s fun n => .float (floatOfNat s.cfg.flen (n 0))
  | .spOffset => heldVal s.sp.offset .floats
  | .spOffsetValid => .value (.bool s.sp.offsetValid)
  | .spOvr => .value (.bool s.sp.ovr)
  | .spOk => .value (.bool s.sp.ok)
  | .spErr => .value (.err s.sp.err)
  | .pgDir => heldVal s.pg.dir .dir
  | .pgHalf => heldVal s.pg.half .float
  | .pgTarget => .value (.target s.pg.target)
  | .pgCount => .value (.u32 s.pg.count)
  | .pgCbEn => .value (.bool s.pg.cbEn)
  | .pgRunning => .value (.bool s.pg.running)
  | .pgClosed => .value (.bool s.pg.closed)
  | .pgOk => .value (.bool s.pg.ok)
  | .pgErr => .value (.err s.pg.err)
  | .config p => .value (readParam s.cfg p)
  | .fixedWait _ => freeVal s fun n => .nat (n 0)

end Sys2Proof.Machine
end

