-- ==== Sys2Proof/Machine/Ops.lean ====
section
/-! DEFINITION. The named operations over the state: the primitives of 00_scope.md R12, the queue of R13, issuing an
operation, returning from it and ending it with an error (60_exceptions.md R254), and running it on the environment's
answers (10_state.md R28). -/

namespace Sys2Proof.Machine

/-- What a step answers. -/
abbrev Outcome := Host.Outcome State Fault Refusal

/-! ### The event history and the channels -/

/-- Appends calls to the event history, in the order they are made (10_state.md R28). -/
def State.log (s : State) (cs : List Call) : State := { s with hist := s.hist ++ cs }

/-- The receive side of a channel (10_state.md R44). -/
def State.rx (s : State) : Chan → List Byte
  | .pt => s.ptRx
  | .cr => s.crRx

/-- The receive side of a channel becomes `bytes`. -/
def State.setRx (s : State) (ch : Chan) (bytes : List Byte) : State :=
  match ch with
  | .pt => { s with ptRx := bytes }
  | .cr => { s with crRx := bytes }

/-- What `ChRead` answers: a byte, IOFail, or nothing yet (20_memory.md R86). -/
inductive ReadAnswer where
  | byte (b : Byte)
  | ioFail
  | waiting
  deriving DecidableEq, Repr

/-- `ChRead(ch)` under the environment's verdict. It is destructive and takes the head of the receive side (20_memory.md R72,
R84); with nothing there it waits (41_command_response.md R162 corner case (a); log 22); an IOFail takes nothing. -/
def State.chRead (s : State) (ch : Chan) (v : Verdict) : ReadAnswer × State :=
  match v with
  | .fail => (.ioFail, s.log [.read ch none])
  | .proceed =>
    match s.rx ch with
    | [] => (.waiting, s)
    | b :: rest => (.byte b, (s.setRx ch rest).log [.read ch (some b)])

/-- `ChWrite(ch, b)`: ok unless the environment fails it (00_scope.md R12). -/
def State.chWrite (s : State) (ch : Chan) (b : Byte) (v : Verdict) : Bool × State :=
  (v == .proceed, s.log [.write ch b (v == .proceed)])

/-! ### The bounded queue -/

/-- `QPush(e)`: on a full queue the new element is dropped, `sp_ovr` set and QueueOverrun emitted (00_scope.md R13). -/
def qPush (e : QElem) (s : State) : State :=
  if s.cfg.qCap ≤ s.sp.q.length then
    { s with sp := { s.sp with ovr := true } }.log [.emit .queueOverrun]
  else { s with sp := { s.sp with q := s.sp.q ++ [e] } }

/-! ### Issuing an operation, returning, ending with an error -/

/-- The host issues one operation at a time (20_memory.md R80, R90); a second caller is refused (93 U15). -/
def issue (s : State) (k : State → Outcome) : Outcome :=
  if s.busy.isSome then .refused .hostBusy else k s

/-- A reserved operand value is refused: "no step, a refusal mark" (30_encoding.md R119). -/
def require (legal : Bool) (field : String) (o : Outcome) : Outcome :=
  if legal then o else .refused (.reservedOperand field)

/-- The unit's phase goes to its rest phase where an operation's end does that: PT and CR to Idle (40 R137, 41 R167). The
phases of SP and PG are set by the rules of their operations: a rejected PG.STEPCOUNT leaves "the running loop not
disturbed" (43 R213). -/
def State.rest (s : State) : UnitName → State
  | .pt => { s with pt := { s.pt with phase := .idle } }
  | .cr => { s with cr := { s.cr with phase := .idle } }
  | .sp => s
  | .pg => s

/-- `return (ok, err, data)`: the unit's flags, its rest phase and the result record are written and the host goes on
(30_encoding.md R115). -/
def opReturn (u : UnitName) (ok : Bool) (err : BitVec 3) (d : Data) (s : State) : State :=
  { (s.setFlags u ok err).rest u with busy := none, ret := some ⟨u, ok, err, d⟩ }

/-- `return (ok = true, data)`. -/
def opOk (u : UnitName) (d : Data) (s : State) : State := opReturn u true 0 d s

/-- TAKING AN ERROR: "it writes `*_ok <- false`, `*_err <- code`, leaves its data registers without a value, sets the unit's
phase to its rest phase and returns to the host. Nothing else is saved or changed" (60_exceptions.md R254). Which data
registers lose their value is the operation's to say, so its caller clears them first. There is no return from it to model:
"after an error result the host simply issues its next operation" (R258). -/
def opError (u : UnitName) (e : ErrClass) (s : State) : State := opReturn u false e.code .none s

/-! ### Running an operation on the environment's moves -/

/-- The operation in progress has a primitive call outstanding that the environment answers. SP.POP and a foreground
PG.STEPCOUNT wait for the other agents instead, and the actions of PG.RUN and PG.STEPCOUNT need no answer. -/
def State.callOutstanding (s : State) : Bool :=
  match s.busy with
  | some (.pt _) | some (.cr _) | some (.popt _) => true
  | some (.launch _) | some .pop | some .loopEnd | none => false

/-- Runs an operation: each answer of the environment is given to the call outstanding, each change of a receive side is made,
until the operation has returned or the moves run out. "A model may therefore run a whole PT operation as one function of
the environment's answers, provided it records the same calls in the same order" (10_state.md R28; log 10). The moves not
used stay for later. -/
def drive (advance : Verdict → State → State) : List EnvMove → State → State
  | [], s => { s with env := [] }
  | m :: rest, s =>
    if s.callOutstanding then
      match m with
      | .rx ch bytes => drive advance rest (s.setRx ch bytes)
      | .answer v => drive advance rest (advance v s)
    else { s with env := m :: rest }

end Sys2Proof.Machine
end

