-- ==== Sys2Proof/Machine/CommandResponse.lean ====
section
/-! DEFINITION. The Command/Response unit (41_command_response.md R160 to R167): its exchanges as the phases of 10_state.md
R29, and the meanings of its seven operations. -/

namespace Sys2Proof.Machine

/-- The command bytes an operation writes first (R160, R161, R164, R166; 30_encoding.md R106, R107). -/
def crCommand (c : Config) : CrKind → List Byte
  | .cmd t => [t]
  | .cmdParam t p => [t, hiByte p, loByte p]
  | .idCheck => [c.idCmd]
  | .scan => [c.retrieveCmd]
  | .word | .words _ | .taskDone _ => []

/-- The exchange goes on in phase `ph`. -/
def crGo (op : CrOp) (ph : CrPhase) (s : State) : State :=
  { s with busy := some (.cr op), cr := { s.cr with phase := ph } }

/-- A failed CR.READWORDSN or CR.SCANRETR leaves `cr_data` without a value (10_state.md R22, R25); `cr_word` keeps the last
whole word (R22). -/
def crDropData (k : CrKind) (s : State) : State :=
  match k with
  | .words _ | .scan => { s with cr := { s.cr with data := { s.cr.data with held := .failed } } }
  | .cmd _ | .cmdParam _ _ | .word | .idCheck | .taskDone _ => s

/-- The operation ends with an error; it is not retried (92 D23). -/
def crError (e : ErrClass) (op : CrOp) (s : State) : State := opError .cr e (crDropData op.kind s)

/-- `REG[cr_data] <- d; return (ok = true, data = d)` (R163, R166). -/
def crDeliver (d : List (BitVec 16)) (s : State) : State :=
  opOk .cr (.wordList d) { s with cr := { s.cr with data := ⟨d, .written⟩ } }

/-- The next of `n` words, or the end of the list (R163). -/
def crNextWord (op : CrOp) (n : Nat) (s : State) : State :=
  if op.words.length < n then crGo op (.rx 0) s else crDeliver op.words s

/-- What follows the command bytes: the return of a command; the 100 ms wait of the identity check, and then its availability
test; the status word of a scan retrieval; the first word or the first availability test of an operation that writes nothing
(R160 to R166). A Delay "always completes" (00_scope.md R18) and has no answer: it is made with the call before it (10_state.md
R29; log 11). -/
def crAfterTx (op : CrOp) (s : State) : State :=
  match op.kind with
  | .cmd _ | .cmdParam _ _ => opOk .cr .none s
  | .word | .scan => crGo op (.rx 0) s
  | .words n => crNextWord op n s
  | .idCheck => crGo op .idWait (s.log [.delay s.cfg.idWaitMs])
  | .taskDone _ => crGo op .poll s

/-- Byte `i` of the command is next, or what follows the last one. -/
def crToTx (op : CrOp) (i : Nat) (s : State) : State :=
  match (crCommand s.cfg op.kind)[i]? with
  | some _ => crGo op (.tx i) s
  | none => crAfterTx op s

/-- What an operation does with a word it has read (R162 to R166). -/
def crUse (op : CrOp) (w : BitVec 16) (s : State) : State :=
  match op.kind with
  | .word => opOk .cr (.word w) s
  | .words n => crNextWord { op with words := op.words ++ [w] } n s
  | .idCheck =>
    opOk .cr (.bool (w == s.cfg.deviceId)) { s with cr := { s.cr with matched := w == s.cfg.deviceId } }
  | .taskDone _ => opOk .cr (.bool true) { s with cr := { s.cr with done := true } }
  | .scan =>
    if op.statusRead then crNextWord { op with words := op.words ++ [w] } s.cfg.scanWords s
    else if w = s.cfg.scanFail then crError .protocolFault op s
    else crNextWord { op with statusRead := true } s.cfg.scanWords s
  | .cmd _ | .cmdParam _ _ => s

/-- A whole word `w` has been read: it goes to `cr_word`, then to the operation that asked for it (R162 to R166). -/
def crWord (op : CrOp) (w : BitVec 16) (s : State) : State :=
  crUse op w { s with cr := { s.cr with word := ⟨w, .written⟩ } }

/-- A `ChWrite(CH_CR, b)`: its failure ends the operation (R160, R161). -/
def crWrite (op : CrOp) (b : Byte) (k : State → State) (v : Verdict) (s : State) : State :=
  match s.chWrite .cr b v with
  | (true, s') => k s'
  | (false, s') => crError .communicationFailure op s'

/-- A `ChRead(CH_CR)`: its failure ends the operation (R162). -/
def crRead (op : CrOp) (k : Byte → State → State) (v : Verdict) (s : State) : State :=
  match s.chRead .cr v with
  | (.byte b, s') => k b s'
  | (.ioFail, s') => crError .communicationFailure op s'
  | (.waiting, s') => s'

/-- The identity check's one availability test after its wait: "if ChAvail(CH_CR) < 2 then raise DeviceUnavailable" (R164). -/
def crIdTest (op : CrOp) (s : State) : State :=
  if s.crRx.length < 2 then crError .deviceUnavailable op s else crGo op (.rx 0) s

/-- isTaskDone's availability test: a word is there; or not, and the answer is not-done, or the next Delay (R165). -/
def crPollTest (op : CrOp) (s : State) : State :=
  if 2 ≤ s.crRx.length then crGo op (.rx 0) s
  else if op.kind = .taskDone true then crGo op .poll (s.log [.delay s.cfg.pollMs])
  else opOk .cr (.bool false) { s with cr := { s.cr with done := false } }

/-- The primitive call outstanding in a phase, and what its answer does. A ChAvail has no failing answer: any answer of the
environment completes it (00_scope.md R12; log 17). -/
def crCall (op : CrOp) (v : Verdict) (s : State) : State :=
  match s.cr.phase with
  | .tx i => crWrite op ((crCommand s.cfg op.kind).getD i 0) (crToTx op (i + 1)) v s
  | .rx 0 => crRead op (fun b => crGo { op with hi := b } (.rx 1)) v s
  | .rx (_ + 1) => crRead op (fun b => crWord op (word16 op.hi b)) v s
  | .idWait => crIdTest op (s.log [.avail .cr s.crRx.length])
  | .poll => crPollTest op (s.log [.avail .cr s.crRx.length])
  | .idle => s

/-- One answer of the environment to the CR operation in progress. -/
def crAdvance (v : Verdict) (s : State) : State :=
  match s.busy with
  | some (.cr op) => crCall op v s
  | _ => s

/-- A CR operation starts with its first command byte. -/
def crStart (k : CrKind) (s : State) : State := crToTx ⟨k, 0, [], false⟩ 0 s

/-- A CR operation, run as far as the environment's moves go. -/
def crRun (k : CrKind) (s : State) : Outcome := .next (drive crAdvance s.env (crStart k s))

/-- CR.WRITECMD (R160). -/
def execCrWritecmd (type : Byte) (s : State) : Outcome := issue s (crRun (.cmd type))

/-- CR.WRITECMDP (R161). -/
def execCrWritecmdp (type : Byte) (param : BitVec 16) (s : State) : Outcome := issue s (crRun (.cmdParam type param))

/-- CR.READWORD (R162). -/
def execCrReadword (s : State) : Outcome := issue s (crRun .word)

/-- CR.READWORDSN (R163). -/
def execCrReadwordsn (n : BitVec 16) (s : State) : Outcome := issue s (crRun (.words n.toNat))

/-- CR.IDCHECK (R164). -/
def execCrIdcheck (s : State) : Outcome := issue s (crRun .idCheck)

/-- CR.ISTASKDONE (R165). -/
def execCrIstaskdone (wait : Bool) (s : State) : Outcome := issue s (crRun (.taskDone wait))

/-- CR.SCANRETR (R166). -/
def execCrScanretr (s : State) : Outcome := issue s (crRun .scan)

end Sys2Proof.Machine
end

