-- ==== Sys2Proof/Machine/Crc.lean ====
section
/-! DEFINITION. The CRC of the Packet Transport unit (40_packet_transport.md R130, R131). -/

namespace Sys2Proof.Machine

/-- One of the eight shifts: "if c[15] = 1 then c <- trunc_16(c << 1) ^ POLY else c <- trunc_16(c << 1)" (R130). -/
def crcShift (poly c : BitVec 16) : BitVec 16 :=
  if c.getLsbD 15 then (c <<< 1) ^^^ poly else c <<< 1

/-- `Crc16Update(crc, b)`: the byte enters bits 15:8, then eight shifts (R130). -/
def crc16Update (poly crc : BitVec 16) (b : Byte) : BitVec 16 :=
  Nat.repeat (crcShift poly) 8 (crc ^^^ (b.zeroExtend 16 <<< 8))

/-- The CRC of a byte list from an initial value, first byte first (R131). -/
def crc16 (poly init : BitVec 16) (bytes : List Byte) : BitVec 16 := bytes.foldl (crc16Update poly) init

end Sys2Proof.Machine
end

