-- ==== Sys2Proof/Machine/PacketTransport.lean ====
section
/-! DEFINITION. The Packet Transport unit, the CRC16 framer (40_packet_transport.md R130 to R139): the attempt loop as the
phases of 10_state.md R28, and the meanings of its four operations. -/

namespace Sys2Proof.Machine

/-- The bytes written at the head of an attempt: the frame body of a write, the request `ADDRESS, commandCode` of a read,
`VERIFY_BYTES` (R133 to R136; 30_encoding.md R100, R102, R105). -/
def ptRequest (c : Config) : PtKind → List Byte
  | .writeFrame _ bytes => bytes
  | .readWords cc _ => [c.address, cc]
  | .readPair cc => [c.address, cc]
  | .verify => c.verifyBytes

/-- The request is followed by its CRC bytes on the wire: "the request carries no CRC" in the read operations (R134 corner
case (e); 30_encoding.md R102). -/
def ptFramed : PtKind → Bool
  | .writeFrame _ _ | .verify => true
  | .readWords _ _ | .readPair _ => false

/-- Response bytes before the two CRC bytes (30_encoding.md R103, R104). -/
def ptDataLen : PtKind → Nat
  | .readWords _ w => 4 * w
  | .readPair _ => 2
  | .writeFrame _ _ | .verify => 0

/-- `REG[pt_crc] <- v`. -/
def ptSetCrc (v : BitVec 16) (s : State) : State := { s with pt := { s.pt with crc := v } }

/-- The attempt goes on in phase `ph`. -/
def ptGo (op : PtOp) (ph : PtPhase) (s : State) : State :=
  { s with busy := some (.pt op), pt := { s.pt with phase := ph } }

/-- The next response byte, or the first CRC byte once the data bytes are in. -/
def ptToRx (op : PtOp) (s : State) : State :=
  if op.got.length < ptDataLen op.kind then ptGo op (.rxData op.got.length) s else ptGo op .rxCrcHi s

/-- Byte `i` of the request is next on the wire, or what follows the last one. In a read the byte enters the running CRC
before it is written (R134, R135). -/
def ptToTx (op : PtOp) (i : Nat) (s : State) : State :=
  match (ptRequest s.cfg op.kind)[i]? with
  | some b =>
    if ptFramed op.kind then ptGo op (.txBody i) s
    else ptGo op (.txBody i) (ptSetCrc (crc16Update s.cfg.poly s.pt.crc b) s)
  | none => if ptFramed op.kind then ptGo op .txCrcHi s else ptToRx op s

/-- An attempt starts: it is counted, the CRC is cleared (and, in a framed write, computed over the bytes), and the request is
written from its first byte. "Nothing is carried from one attempt to the next except `pt_attempts`" (R132). -/
def ptBegin (op : PtOp) (s : State) : State :=
  ptToTx { op with got := [], crcHi := 0 } 0
    { s with pt := { s.pt with
        attempts := s.pt.attempts + 1
        crc := if ptFramed op.kind then crc16 s.cfg.poly s.cfg.crcInit (ptRequest s.cfg op.kind) else s.cfg.crcInit } }

/-- A failed read leaves its own data register without a value (10_state.md R25, 92 D20). -/
def ptDropData (k : PtKind) (s : State) : State :=
  match k with
  | .readWords _ _ => { s with pt := { s.pt with data := { s.pt.data with held := .failed } } }
  | .readPair _ => { s with pt := { s.pt with pair := { s.pt.pair with held := .failed } } }
  | .writeFrame _ _ | .verify => s

/-- The operation ends with an error. -/
def ptError (e : ErrClass) (op : PtOp) (s : State) : State := opError .pt e (ptDropData op.kind s)

/-- `next attempt(E)`: the next attempt while the budget lasts, else the operation ends with the class of this failure
(R132, R137). -/
def ptNextAttempt (e : ErrClass) (op : PtOp) (s : State) : State :=
  if s.pt.attempts ≤ op.budget then ptBegin op s else ptError e op s

/-- After the two CRC bytes of a frame: the acknowledge if one is expected, else success (R133); the wait of verifyIdentity
(R136). -/
def ptAfterFrame (op : PtOp) (s : State) : State :=
  match op.kind with
  | .writeFrame true _ => ptGo op .rxAck s
  | .writeFrame false _ => opOk .pt .none s
  | .verify => ptGo op .idWait s
  | .readWords _ _ | .readPair _ => s

/-- Phase Check: the received CRC against the computed one (R134, R135). -/
def ptCheck (op : PtOp) (s : State) : State :=
  if s.pt.rxcrc.val = s.pt.crc then
    match op.kind, op.got with
    | .readWords _ _, got =>
      opOk .pt (.words (words32 got)) { s with pt := { s.pt with data := ⟨words32 got, .written⟩ } }
    | .readPair _, [p0, p1] => opOk .pt (.pair p0 p1) { s with pt := { s.pt with pair := ⟨(p0, p1), .written⟩ } }
    | _, _ => s
  else ptNextAttempt .integrityFailure op s

/-- A `ChWrite(CH_PT, b)`: its failure ends the attempt, else the attempt goes on with `k` (R133 to R136). -/
def ptWrite (op : PtOp) (b : Byte) (k : State → State) (v : Verdict) (s : State) : State :=
  match s.chWrite .pt b v with
  | (true, s') => k s'
  | (false, s') => ptNextAttempt .communicationFailure op s'

/-- A `ChRead(CH_PT)`: its failure ends the attempt, else the attempt goes on with `k` (R133 to R136). -/
def ptRead (op : PtOp) (k : Byte → State → State) (v : Verdict) (s : State) : State :=
  match s.chRead .pt v with
  | (.byte b, s') => k b s'
  | (.ioFail, s') => ptNextAttempt .communicationFailure op s'
  | (.waiting, s') => s'

/-- `ChWaitByte(CH_PT, VERIFY_TIMEOUT_MS)`: true when a byte is there, which is "the only" branch then (93 U19); else the wait
goes on until the environment lets the time pass (R136). -/
def ptWait (op : PtOp) (v : Verdict) (s : State) : State :=
  match s.ptRx, v with
  | _ :: _, _ => ptGo op (.rxData 0) (s.log [.waitByte .pt s.cfg.verifyTimeoutMs true])
  | [], .proceed => s
  | [], .fail => ptError .deviceUnavailable op (s.log [.waitByte .pt s.cfg.verifyTimeoutMs false])

/-- A response byte: any byte ends verifyIdentity with success (R136); in a read it enters the running CRC (R134, R135). -/
def ptData (op : PtOp) (b : Byte) (s : State) : State :=
  match op.kind with
  | .verify => opOk .pt .none s
  | .readWords _ _ | .readPair _ | .writeFrame _ _ =>
    ptToRx { op with got := op.got ++ [b] } (ptSetCrc (crc16Update s.cfg.poly s.pt.crc b) s)

/-- The second CRC byte: `REG[pt_rxcrc] <- h ++ l`, which does not enter `pt_crc`, then the check (R134). -/
def ptRxCrc (op : PtOp) (l : Byte) (s : State) : State :=
  ptCheck op { s with pt := { s.pt with rxcrc := ⟨word16 op.crcHi l, .written⟩, phase := .check } }

/-- The primitive call outstanding in a phase, and what its answer does. -/
def ptCall (op : PtOp) (v : Verdict) (s : State) : State :=
  match s.pt.phase with
  | .txBody i => ptWrite op ((ptRequest s.cfg op.kind).getD i 0) (ptToTx op (i + 1)) v s
  | .txCrcHi => ptWrite op (hiByte s.pt.crc) (ptGo op .txCrcLo) v s
  | .txCrcLo => ptWrite op (loByte s.pt.crc) (ptAfterFrame op) v s
  | .rxAck =>
    ptRead op (fun b s' => if b = s'.cfg.ack then opOk .pt .none s' else ptNextAttempt .communicationFailure op s') v s
  | .rxData _ => ptRead op (ptData op) v s
  | .rxCrcHi => ptRead op (fun b => ptGo { op with crcHi := b } .rxCrcLo) v s
  | .rxCrcLo => ptRead op (ptRxCrc op) v s
  | .idWait => ptWait op v s
  | .check => ptCheck op s
  | .idle => s

/-- One answer of the environment to the PT operation in progress. -/
def ptAdvance (v : Verdict) (s : State) : State :=
  match s.busy with
  | some (.pt op) => ptCall op v s
  | _ => s

/-- A PT operation starts: `REG[pt_attempts] <- 0`, then its first attempt (R132). -/
def ptStart (k : PtKind) (budget : Nat) (s : State) : State :=
  ptBegin ⟨k, budget, [], 0⟩ { s with pt := { s.pt with attempts := 0 } }

/-- A PT operation, run as far as the environment's moves go. -/
def ptRun (k : PtKind) (budget : Nat) (s : State) : Outcome :=
  .next (drive ptAdvance s.env (ptStart k budget s))

/-- PT.WRITEFRAME (R133): its own operand is the retry budget. -/
def execPtWriteframe (retries : Byte) (expectAck : Bool) (bytes : List Byte) (s : State) : Outcome :=
  issue s fun s => require (legalLen s.cfg bytes) "len" (ptRun (.writeFrame expectAck bytes) retries.toNat s)

/-- PT.READWORDS (R134): the retry budget is the constant RETRIES. -/
def execPtReadwords (commandCode wordCount : Byte) (s : State) : Outcome :=
  issue s fun s => require (legalWords s.cfg wordCount) "wordCount"
    (ptRun (.readWords commandCode wordCount.toNat) s.cfg.retries s)

/-- PT.READBYTEPAIR (R135). -/
def execPtReadbytepair (commandCode : Byte) (s : State) : Outcome :=
  issue s fun s => ptRun (.readPair commandCode) s.cfg.retries s

/-- PT.VERIFYID (R136): one attempt only. -/
def execPtVerifyid (s : State) : Outcome :=
  issue s fun s => ptRun .verify 0 s

end Sys2Proof.Machine
end

