-- ==== Sys2Proof/Machine/PulseGenerator.lean ====
section
/-! DEFINITION. The Pulse Generator unit (43_pulse_generator.md R210 to R222): the meanings of its five operations and the
toggle loop's steps. -/

namespace Sys2Proof.Machine

/-- `DoutSet(STEP, level)`. -/
def setStep (level : Bool) (s : State) : State :=
  { s with pg := { s.pg with stepOut := level } }.log [.dout .step level]

/-- `DoutSet(DIR, DirLevel(direction))`. -/
def setDir (d : Dir) (s : State) : State :=
  { s with pg := { s.pg with dirOut := ⟨dirLevel s.cfg d, .written⟩ } }.log [.dout .dir (dirLevel s.cfg d)]

/-- phase[PG] <- p. -/
def pgGo (p : PgPhase) (s : State) : State := { s with pg := { s.pg with phase := p } }

/-- Emits Complete when `b` (60_exceptions.md R250). -/
def emitComplete (b : Bool) (s : State) : State := if b then s.log [.emit .complete] else s

/-- The loop was started by PG.STEPCOUNT. -/
def Target.counted : Target → Bool
  | .finite _ => true
  | .none | .infinite => false

/-- `StopLoop()` fires the completion action of the loop it stops (R214, 92 D46). -/
def stopEmits (s : State) : Bool := s.cfg.stopFiresComplete && s.pg.target.counted && s.pg.cbEn

/-- `ToggleStop(); phase[PG] <- NoLoop; REG[pg_running] <- false` (R214). The level left on STEP is "any value" (93 U11): the
free value of log 6. -/
def haltLoop (s : State) : State :=
  { s with
    pg := { s.pg with phase := .noLoop, running := false, stepOut := Config.freeLevel s.fresh }
    fresh := s.fresh + 1 }.log [.toggleStop]

/-- `StopLoop()` as one step, in PG.STOP and PG.CLOSE (R214; 20_memory.md R82). -/
def stopLoop (s : State) : State :=
  if s.pg.phase.hasLoop then emitComplete (stopEmits s) (haltLoop s) else { s with pg := { s.pg with running := false } }

/-- The iteration count that ToggleStart is given, none for INF. -/
def Target.iterations : Target → Option (BitVec 32)
  | .finite n => Option.some n
  | .none | .infinite => Option.none

/-- PG.RUN or PG.STEPCOUNT goes on with action `a` at the host's next turn. -/
def launchNext (op : LaunchOp) (a : LaunchAct) (s : State) : State := { s with busy := some (.launch { op with act := a }) }

/-- `phase[PG] <- Settling`: the settle delay is next (R212, R213). -/
def launchSettle (op : LaunchOp) (s : State) : State := launchNext op .delay (pgGo .settling s)

/-- PG.RUN and PG.STEPCOUNT return at once, or, with `background = false`, "wait until phase[PG] = NoLoop" (R212, R213). -/
def launched (op : LaunchOp) (s : State) : State :=
  if op.background then opOk .pg .none s else { s with busy := some .loopEnd }

/-- One action of PG.RUN or PG.STEPCOUNT (R212, R213). Between two of them any other agent may step (20_memory.md R82). -/
def launchStep (op : LaunchOp) (s : State) : State :=
  match op.act with
  | .emit => launchSettle op (emitComplete true s)
  | .delay => launchNext op .dir (s.log [.delay s.cfg.settleMs])
  | .dir => launchNext op .registers (setDir op.dir { s with pg := { s.pg with dir := ⟨op.dir, .written⟩ } })
  | .registers =>
    launchNext op .start { s with pg := { s.pg with
      half := ⟨op.half, .written⟩, target := op.target, cbEn := op.cbEn, count := 0, running := true } }
  | .start =>
    launchNext op .stepOn
      (s.log [.toggleStart op.half op.half op.target.iterations op.background op.target.counted])
  | .stepOn => launched op (pgGo (.high 0) (setStep true s))

/-- `StopLoop()` inside PG.RUN: ToggleStop and Emit are steps of their own, then the settle delay is next (R212, R214). -/
def launchStop (op : LaunchOp) (s : State) : State :=
  if stopEmits s then launchNext op .emit (haltLoop s) else launchSettle op (haltLoop s)

/-- PG.RUN (R212): its first action; the others are the host's next turns. -/
def execPgRun (dir : Dir) (speed : FBits) (s : State) : Outcome :=
  issue s fun s => require (legalSpeed s.cfg.flen speed) "speedRPM" <|
    if s.pg.closed then .next (opError .pg .invalidStateError s)
    else if s.pg.phase.hasLoop then
      .next (launchStop ⟨dir, halfPeriod s.cfg (fOfBits speed), .infinite, false, true, .delay⟩ s)
    else .next (launchSettle ⟨dir, halfPeriod s.cfg (fOfBits speed), .infinite, false, true, .delay⟩ s)

/-- PG.STEPCOUNT (R213): rejected after close, then rejected while `pg_running` is set. -/
def execPgStepcount (count : BitVec 32) (dir : Dir) (speed : FBits) (background cb : Bool) (s : State) : Outcome :=
  issue s fun s => require (legalCount count) "count" <| require (legalSpeed s.cfg.flen speed) "speedRPM" <|
    if s.pg.closed then .next (opError .pg .invalidStateError s)
    else if s.pg.running then .next (opError .pg .invalidStateError s)
    else .next (launchSettle ⟨dir, halfPeriod s.cfg (fOfBits speed), .finite count, cb, background, .delay⟩ s)

/-- PG.STOP (R214). -/
def execPgStop (s : State) : Outcome := issue s fun s => .next (opOk .pg .none (stopLoop s))

/-- `ToggleCycles()`: the completed-cycle counter of the toggle primitive (00_scope.md R12). "REG[pg_count] mirrors ToggleCycles()"
(R215). That PG.GETSTEPCOUNT makes the call is DEDUCED (log 25). -/
def toggleCycles (s : State) : BitVec 32 × State := (s.pg.count, s.log [.toggleCycles s.pg.count])

/-- PG.GETSTEPCOUNT (R215). -/
def execPgGetstepcount (s : State) : Outcome :=
  issue s fun s => .next (opOk .pg (.count (toggleCycles s).1) (toggleCycles s).2)

/-- PG.CLOSE (R216). -/
def execPgClose (s : State) : Outcome :=
  issue s fun s =>
    let s1 := stopLoop s
    .next (opOk .pg .none { s1 with pg := { s1.pg with closed := true, phase := .closed } })

/-- A foreground PG.STEPCOUNT returns once its loop and its completion action have run (R213 corner case (c)). -/
def pgLoopEnd (s : State) : State := if s.pg.phase = .noLoop then opOk .pg .none s else s

/-- EV.TOGGLE in phase Low(k): cycle k is complete (R218). Past 2^32 - 1 the counter is outside the rules (93 U9). -/
def toggleLow (k : Nat) (s : State) : Outcome :=
  if s.pg.count.toNat + 1 < 2 ^ 32 then
    let s1 := { s with pg := { s.pg with count := s.pg.count + 1 } }
    if s.pg.target = .finite (s.pg.count + 1) then .next (pgGo .completing s1)
    else .next (pgGo (.high (k + 1)) (setStep true s1))
  else .fault (.counterOverflow .pgCount)

/-- EV.TOGGLE in phase Completing: the running flag is cleared, then Complete emitted if there is a callback (R219). -/
def toggleComplete (s : State) : State :=
  pgGo .noLoop (emitComplete s.pg.cbEn { s with pg := { s.pg with running := false } })

/-- EV.TOGGLE (R217 to R219). With no loop there is no such event (60_exceptions.md R249): an entry of the schedule then does
nothing (log 16). -/
def pgToggle (s : State) : Outcome :=
  match s.pg.phase with
  | .high k => .next (pgGo (.low k) (setStep false s))
  | .low k => toggleLow k s
  | .completing => .next (toggleComplete s)
  | .noLoop | .settling | .closed => .next s

end Sys2Proof.Machine
end

