-- ==== Sys2Proof/Machine/SamplingPipeline.lean ====
section
/-! DEFINITION. The Sampling Pipeline unit (42_sampling_pipeline.md R180 to R196): the meanings of its five operations and the
handler of EV.IRQ. -/

namespace Sys2Proof.Machine

/-- The effects of an accepted activation in every mode: "Activation always clears the queue and resets the last-timestamp
reference to zero" (R182). -/
def spActivated (m : Mode) (u : SpUnit) : SpUnit :=
  { u with q := [], ovr := false, lastTs := 0, mode := m, active := true }

/-- What an activation writes besides in modes Cal and Heading (R182). -/
def spModeInit (c : Config) : Mode → SpUnit → SpUnit
  | .cal, u => { u with sum := List.replicate c.nAxes 0, count := 0, offsetValid := false }
  | .heading, u => { u with angle := F.zero }
  | .raw, u | .offset, u | .deadZone, u => u

/-- SP.ACTIVATE (R182): a mode that subtracts the offset is rejected, with no state changed, before a calibration has been
finalized. -/
def execSpActivate (m : Mode) (s : State) : Outcome :=
  issue s fun s =>
    if usesOffset m && !s.sp.offsetValid then .next (opError .sp .invalidStateError s)
    else .next (opOk .sp .none { s with sp := spActivated m (spModeInit s.cfg m s.sp) })

/-- SP.DEACTIVATE (R183). -/
def execSpDeactivate (s : State) : Outcome :=
  issue s fun s => .next (opOk .sp .none { s with sp := { s.sp with active := false } })

/-- Calibration end while calibrating: the unit is deactivated first; with no sample accumulated the offsets stay invalid (R184,
93 U5), and `sp_offset`, whose writing operation failed, is left without a value (10_state.md R25, 60_exceptions.md R254;
log 12); else they are the averages. -/
def spCalEnd (s : State) : State :=
  let s1 := { s with sp := { s.sp with active := false } }
  if s.sp.count.toNat ≤ s.cfg.discard then
    opError .sp .invalidStateError { s1 with sp := { s1.sp with offset := { s1.sp.offset with held := .failed } } }
  else opOk .sp .none { s1 with sp := { s1.sp with
    offset := ⟨offsets s.cfg s.sp.sum (s.sp.count.toNat - s.cfg.discard), .written⟩, offsetValid := true } }

/-- SP.CALEND (R184). -/
def execSpCalend (s : State) : Outcome :=
  issue s fun s =>
    if s.sp.active && s.sp.mode == .cal then .next (spCalEnd s)
    else .next (opError .sp .invalidStateError s)

/-- `QPop()` and the return with the element; on an empty queue the operation has no step (R185, 00_scope.md R13). -/
def spTake (s : State) : State :=
  match s.sp.q with
  | [] => s
  | e :: rest => opOk .sp (.elem e) { s with sp := { s.sp with q := rest } }

/-- SP.POP (R185): on an empty queue the host waits for a push. -/
def execSpPop (s : State) : Outcome :=
  issue s fun s => .next (spTake { s with busy := some .pop })

/-- The environment's answer to a SP.POPT that waits on an empty queue: it lets the time pass, or not yet (R186). -/
def spAdvance (v : Verdict) (s : State) : State :=
  match s.busy, v with
  | some (.popt ms), .fail => opError .sp .deviceUnavailable (s.log [.popTimeout ms])
  | _, _ => s

/-- SP.POPT while it waits: an element that is there is returned, "the success branch is the only one" (93 U19); else the
environment chooses. -/
def spPoptRun (s : State) : State := drive spAdvance s.env (spTake s)

/-- SP.POPT (R186). -/
def execSpPopt (timeoutMs : BitVec 32) (s : State) : Outcome :=
  issue s fun s => .next (spPoptRun { s with busy := some (.popt timeoutMs) })

/-- Modes Raw, Offset and DeadZone: `delta <- ts - REG[sp_last_ts]` modulo 2^64, the reference is updated "before the push and
whether or not the push is dropped", then the sample is pushed (R188, R190, R191). A dropped sample's delta is therefore lost to
the consumer, though 70_reset_and_hazards.md R301 says that the deltas it sees still sum to the elapsed time: R188 (b) is
followed, the DESIGN CHOICE of log 26. -/
def spPushSample (ts : BitVec 64) (v : SampleValue) (s : State) : State :=
  qPush (.sample v (ts - s.sp.lastTs)) { s with sp := { s.sp with lastTs := ts } }

/-- Mode Cal: the first DISCARD readings are thrown away, every interrupt is counted, nothing is pushed (R189). Past 2^32 - 1
the counter is outside the rules (93 U9). -/
def spCalibrate (v : List (BitVec 32)) (s : State) : Outcome :=
  if s.sp.count.toNat + 1 < 2 ^ 32 then
    .next { s with sp := { s.sp with
      sum := if s.cfg.discard ≤ s.sp.count.toNat then accumulate s.cfg s.sp.sum v else s.sp.sum
      count := s.sp.count + 1 } }
  else .fault (.counterOverflow .spCount)

/-- Mode Heading: "REG[sp_angle] <- REG[sp_angle] + ((z * SENS) * PERIOD)", three float operations, and the push of the angle
(R192). -/
def spIntegrate (v : List (BitVec 32)) (s : State) : State :=
  let z := clamp s.cfg (correct s.cfg s.sp.offset.val v s.cfg.hAxis)
  let angle := fAdd s.cfg.flen s.sp.angle (fMul s.cfg.flen (fMul s.cfg.flen z s.cfg.sens) (period s.cfg))
  qPush (.angle angle) { s with sp := { s.sp with angle := angle } }

/-- The handler of an active unit, on one `BusReadRaw()` answer (R187 to R192). -/
def spHandle (ts : BitVec 64) (v : List (BitVec 32)) (s : State) : Outcome :=
  match s.sp.mode with
  | .raw => .next (spPushSample ts (.raw v) s)
  | .cal => spCalibrate v s
  | .offset => .next (spPushSample ts (.float (correctAll s.cfg s.sp.offset.val v)) s)
  | .deadZone => .next (spPushSample ts (.float ((correctAll s.cfg s.sp.offset.val v).map (clamp s.cfg))) s)
  | .heading => .next (spIntegrate v s)

/-- EV.IRQ(ts): with the unit inactive "no bus read, no state change"; else one bus transaction and the mode's rule (R187). -/
def spIrq (ts : BitVec 64) (raw : List (BitVec 32)) (s : State) : Outcome :=
  if s.sp.active then
    spHandle ts (busVector s.cfg raw) (s.log [.busRead (busVector s.cfg raw)])
  else .next s

end Sys2Proof.Machine
end

