-- ==== Sys2Proof/Machine/Dispatch.lean ====
section
/-! DEFINITION. Which definition gives each operation its meaning, one arm per constructor of Instr. -/

namespace Sys2Proof.Machine

def exec (i : Instr) (s : State) : Host.Outcome State Fault Refusal :=
  match i with
  | .ptWriteframe retries expectAck bytes => Sys2Proof.Machine.execPtWriteframe retries expectAck bytes s
  | .ptReadwords commandCode wordCount => Sys2Proof.Machine.execPtReadwords commandCode wordCount s
  | .ptReadbytepair commandCode => Sys2Proof.Machine.execPtReadbytepair commandCode s
  | .ptVerifyid => Sys2Proof.Machine.execPtVerifyid s
  | .crWritecmd type => Sys2Proof.Machine.execCrWritecmd type s
  | .crWritecmdp type param => Sys2Proof.Machine.execCrWritecmdp type param s
  | .crReadword => Sys2Proof.Machine.execCrReadword s
  | .crReadwordsn n => Sys2Proof.Machine.execCrReadwordsn n s
  | .crIdcheck => Sys2Proof.Machine.execCrIdcheck s
  | .crIstaskdone wait => Sys2Proof.Machine.execCrIstaskdone wait s
  | .crScanretr => Sys2Proof.Machine.execCrScanretr s
  | .spActivate mode => Sys2Proof.Machine.execSpActivate mode s
  | .spDeactivate => Sys2Proof.Machine.execSpDeactivate s
  | .spCalend => Sys2Proof.Machine.execSpCalend s
  | .spPop => Sys2Proof.Machine.execSpPop s
  | .spPopt timeoutMs => Sys2Proof.Machine.execSpPopt timeoutMs s
  | .pgRun dir speed => Sys2Proof.Machine.execPgRun dir speed s
  | .pgStepcount count dir speed background cb => Sys2Proof.Machine.execPgStepcount count dir speed background cb s
  | .pgStop => Sys2Proof.Machine.execPgStop s
  | .pgGetstepcount => Sys2Proof.Machine.execPgGetstepcount s
  | .pgClose => Sys2Proof.Machine.execPgClose s

end Sys2Proof.Machine
end

