-- ==== Sys2Proof/Machine/Agents.lean ====
section
/-! DEFINITION. The agents' steps (20_memory.md R80, R82): the host's turn, the answers of the environment, the two inbound
events, the host's register reads, the reset (70_reset_and_hazards.md R280), and who moves next. -/

namespace Sys2Proof.Machine

/-- The operation at the head of the host's descriptor bytes, and the bytes after it (30_encoding.md R114). "The command
descriptor of an operation is read once, when the operation is issued" (20_memory.md R89). -/
def fetch (s : State) : Except Reject (Instr × List Byte) := decode s.cfg.flen s.host

/-- The operation in progress goes on with the environment's moves, if it waits for the environment. -/
def goOn (s : State) : State :=
  match s.busy with
  | some (.pt _) => drive ptAdvance s.env s
  | some (.cr _) => drive crAdvance s.env s
  | some (.popt _) => spPoptRun s
  | some .pop | some (.launch _) | some .loopEnd | none => s

/-- The host goes on with the operation it is blocked in: with the environment's moves, with the next action of PG.RUN or
PG.STEPCOUNT, or, in SP.POP and a foreground PG.STEPCOUNT, with what the other agents have done. With nothing new it waits:
"it is *stuck*, not faulted" (20_memory.md R86; log 4). -/
def resume (s : State) : State :=
  match s.busy with
  | some (.pt _) | some (.cr _) | some (.popt _) => goOn s
  | some (.launch op) => launchStep op s
  | some .pop => spTake s
  | some .loopEnd => pgLoopEnd s
  | none => s

/-- The host's turn: it goes on with the operation it is blocked in, else issues its next descriptor, else has nothing to do
(20_memory.md R80, R90; 70_reset_and_hazards.md R283). -/
def hostTurn (s : State) : Outcome :=
  if s.busy.isSome then .next (resume s)
  else if s.host = [] then .next s
  else
    match fetch s with
    | .ok (i, rest) => exec i { s with host := rest }
    | .error e => .refused (.descriptor e)

/-- EV.ANSWER: the environment's move joins those the operation in progress has yet to use, and an operation that waits for the
environment goes on (30_encoding.md R116). -/
def answerTurn (m : EnvMove) (s : State) : Outcome := .next (goOn { s with env := s.env ++ [m] })

/-- The host reads a register between operations (70_reset_and_hazards.md R308). A register that a failed operation left without
a value is a fault (10_state.md R25, 93 U1; log 12); one whose value another rule keeps from the host gives a free value, and the
next free value is another one (log 23); a read while the host is blocked in an operation is that of a second caller (93 U15; log
18). -/
def readTurn (r : RegName) (s : State) : Outcome :=
  if s.busy.isSome then .refused .hostBusy
  else
    match readReg s r with
    | .value v => .next (s.log [.hostRead r v])
    | .noValue => .fault (.noValue r)
    | .free v => .next { s.log [.hostRead r v] with fresh := s.fresh + 1 }

/-- A toggle loop exists: its phase says so, or ToggleStart has been made and the phase is yet to be set (20_memory.md R80). -/
def loopExists (s : State) : Bool :=
  s.pg.phase.hasLoop ||
    match s.busy with
    | some (.launch op) => op.act == .stepOn
    | some (.pt _) | some (.cr _) | some (.popt _) | some .pop | some .loopEnd | none => false

/-- The reset of 70_reset_and_hazards.md R280: "puts every state element at the value of the table, removes any toggle loop
without running its completion action, drives STEP off, and discards any operation in progress without a result"; it "does
not reach the environment" (R281). What is kept is the environment's, the host's bytes not yet issued, and the event
history (log 13). -/
def resetTurn (s : State) : State :=
  { State.resetAt s.cfg with
    hist := s.hist ++ ((if loopExists s then [.toggleStop] else []) ++ [.dout .step false, .reset])
    fresh := s.fresh
    ptRx := s.ptRx
    crRx := s.crRx
    env := s.env
    sched := s.sched
    host := s.host }

/-- One entry of the schedule. -/
def takeEvent (e : Event) (s : State) : Outcome :=
  match e with
  | .host => hostTurn s
  | .irq ts raw => spIrq ts raw s
  | .toggle => pgToggle s
  | .answer m => answerTurn m s
  | .read r => readTurn r s
  | .reset => .next (resetTurn s)

/-- Who moves next: the head of the schedule, or the host when the schedule is empty (log 3). A configuration outside its
domains is refused (93 U14). -/
def nextStep (s : State) : Outcome :=
  if legalConfig s.cfg then
    match s.sched with
    | [] => hostTurn s
    | e :: rest => takeEvent e { s with sched := rest }
  else .refused .illegalConfig

/-- The state in which the very next step is the host issuing the descriptor at the head of `bytes`: no operation in progress,
and the host's turn put before whatever the schedule holds. -/
def placeDescriptor (bytes : List Byte) (s : State) : State :=
  { s with host := bytes, busy := none, sched := .host :: s.sched }

end Sys2Proof.Machine
end

