-- ==== Sys2Proof/Machine/Step.lean ====
section
/-! DEFINITION. One step of the machine, and the placing of a descriptor for the host's reading of the opcode table. -/

namespace Sys2Proof.Machine

/-- One step: "one host operation on SP or PG, one handler invocation, one toggle-loop step, or one primitive call of a PT or
CR operation", the last for as many calls as the environment has answered (20_memory.md R82, 10_state.md R28). -/
def step (s : State) : Host.Outcome State Fault Refusal := nextStep s

/-- `s` with the operation of an opcode-table word as the host's next descriptor (log 3). -/
def State.withFetchWord (s : State) (nbits w : Nat) : State := placeDescriptor (tableBytes nbits w) s

end Sys2Proof.Machine
end

