-- ==== Sys2Proof/WellFormed.lean ====
section
/-! DEFINITION. Which operations are legal at a configuration (30_encoding.md R119). -/

namespace Sys2Proof

/-- The operation carries no reserved operand value (R119). Flag bits and the mode byte are checked by the decoder, since
`Instr` has no place for an illegal one. -/
def Instr.wellFormed (c : Config) : Instr → Bool
  | .ptWriteframe _ _ bytes => Machine.legalLen c bytes
  | .ptReadwords _ w => Machine.legalWords c w
  | .ptReadbytepair _ => true
  | .ptVerifyid => true
  | .crWritecmd _ => true
  | .crWritecmdp _ _ => true
  | .crReadword => true
  | .crReadwordsn _ => true
  | .crIdcheck => true
  | .crIstaskdone _ => true
  | .crScanretr => true
  | .spActivate _ => true
  | .spDeactivate => true
  | .spCalend => true
  | .spPop => true
  | .spPopt _ => true
  | .pgRun _ speed => Machine.legalSpeed c.flen speed
  | .pgStepcount n _ speed _ _ => Machine.legalCount n && Machine.legalSpeed c.flen speed
  | .pgStop => true
  | .pgGetstepcount => true
  | .pgClose => true

end Sys2Proof
end

