-- ==== Sys2Proof/Safety.lean ====
section
/-! DEFINITION. What claims are stated in terms of: reset values, invariants, the traffic a history records, which unit an
operation belongs to, the end of a run. -/

namespace Sys2Proof

open Machine

/-- The unit an operation is issued to: "Opcode bits 7:4 name the unit" (30_encoding.md R114). -/
def Instr.unit : Instr → UnitName
  | .ptWriteframe _ _ _ | .ptReadwords _ _ | .ptReadbytepair _ | .ptVerifyid => .pt
  | .crWritecmd _ | .crWritecmdp _ _ | .crReadword | .crReadwordsn _ | .crIdcheck | .crIstaskdone _ | .crScanretr => .cr
  | .spActivate _ | .spDeactivate | .spCalend | .spPop | .spPopt _ => .sp
  | .pgRun _ _ | .pgStepcount _ _ _ _ _ | .pgStop | .pgGetstepcount | .pgClose => .pg

/-- The unit of an operation in progress. -/
def Machine.Pending.unit : Pending → UnitName
  | .pt _ => .pt
  | .cr _ => .cr
  | .pop | .popt _ => .sp
  | .launch _ | .loopEnd => .pg

/-- The number of a unit in opcode bits 7:4: "0 PT, 1 CR, 2 SP, 3 PG" (30_encoding.md R114). -/
def unitNumber : UnitName → Nat
  | .pt => 0
  | .cr => 1
  | .sp => 2
  | .pg => 3

/-- The next `n` steps are the host's turns, and `es` is what is scheduled after them. That an empty schedule is the host's turn is
the DESIGN CHOICE of log 3. -/
def HostTurns (n : Nat) (s : State) (es : List Event) : Prop :=
  s.sched = [] ∧ es = [] ∨ s.sched = List.replicate n .host ++ es

/-- The environment lets `n` calls in a row complete. -/
def proceeds (n : Nat) : List EnvMove := List.replicate n (.answer .proceed)

/-- The calls that write `bytes` to a channel, each accepted. -/
def writes (ch : Chan) (bytes : List Byte) : List Call := bytes.map (fun b => .write ch b true)

/-- The calls that read `bytes` from a channel. -/
def reads (ch : Chan) (bytes : List Byte) : List Call := bytes.map (fun b => .read ch (some b))

/-- The first `n` 32-bit words of a response: `zext_32(b0) << 24 | zext_32(b1) << 16 | zext_32(b2) << 8 | zext_32(b3)` of bytes
`4 i` to `4 i + 3` (30_encoding.md R103, R110). -/
def bigEndian32 (n : Nat) (bytes : List Byte) : List (BitVec 32) :=
  (List.range n).map fun i =>
    (bytes.getD (4 * i) 0).setWidth 32 <<< 24 ||| (bytes.getD (4 * i + 1) 0).setWidth 32 <<< 16 |||
      (bytes.getD (4 * i + 2) 0).setWidth 32 <<< 8 ||| (bytes.getD (4 * i + 3) 0).setWidth 32

/-- The first `n` 16-bit words of a stream: bytes `2 i` and `2 i + 1`, high byte first (30_encoding.md R108, R111). -/
def bigEndian16 (n : Nat) (bytes : List Byte) : List (BitVec 16) :=
  (List.range n).map fun i => bytes.getD (2 * i) 0 ++ bytes.getD (2 * i + 1) 0

/-- The two receive sides (10_state.md R44). -/
structure Sides where
  pt : List Byte
  cr : List Byte
  deriving DecidableEq, Repr

/-- The receive side of a channel. -/
def Sides.get (x : Sides) : Chan → List Byte
  | .pt => x.pt
  | .cr => x.cr

/-- The receive side of a channel becomes `bytes`. -/
def Sides.set (x : Sides) (ch : Chan) (bytes : List Byte) : Sides :=
  match ch with
  | .pt => { x with pt := bytes }
  | .cr => { x with cr := bytes }

/-- What an answer of the environment does to a call that is to come out in a given way. -/
inductive Taken where
  /-- the call comes out so, and leaves these receive sides -/
  | done (x : Sides)
  /-- the call goes on waiting -/
  | waits
  /-- the call comes out otherwise -/
  | otherwise
  deriving DecidableEq, Repr

/-- The primitives that the environment answers (00_scope.md R12): a write is accepted or fails; a read takes the head of the
receive side, waits while there is none, or fails and takes nothing (20_memory.md R72, R86; log 22); ChAvail counts what is
there; ChWaitByte and SP.POPT end when the thing waited for is there, or when the environment lets the time pass (93 U19). -/
def takes (v : Verdict) (x : Sides) : Call → Taken
  | .write _ _ ok => if ok = (v == .proceed) then .done x else .otherwise
  | .read ch r =>
    match v, x.get ch with
    | .fail, _ => if r = none then .done x else .otherwise
    | .proceed, [] => .waits
    | .proceed, b :: rest => if r = some b then .done (x.set ch rest) else .otherwise
  | .avail ch n => if n = (x.get ch).length then .done x else .otherwise
  | .waitByte ch _ got =>
    match x.get ch, v with
    | _ :: _, _ => if got then .done x else .otherwise
    | [], .proceed => .waits
    | [], .fail => if got then .otherwise else .done x
  | .popTimeout _ =>
    match v with
    | .proceed => .waits
    | .fail => .done x
  | .busRead _ | .dout _ _ | .toggleStart _ _ _ _ _ | .toggleStop | .toggleCycles _ | .delay _ | .emit _ | .hostRead _ _
  | .reset => .otherwise

/-- The environment's moves `ms`, starting from the receive sides `x`, make the calls `cs` come out as they are listed: the
receive sides left then, or none if they do not. A move may replace a receive side before any of the calls, so that a response
may arrive at any time, and an answer that leaves a call waiting may come any number of times (00_scope.md R12, R18). -/
def answered : List EnvMove → Sides → List Call → Option Sides
  | [], x, [] => some x
  | .rx ch bytes :: ms, x, c :: cs => answered ms (x.set ch bytes) (c :: cs)
  | .answer v :: ms, x, c :: cs =>
    match takes v x c with
    | .done y => answered ms y cs
    | .waits => answered ms x (c :: cs)
    | .otherwise => none
  | [], _, _ :: _ => none
  | _ :: _, _, [] => none

/-- One failed attempt of a PT operation: the calls it makes, the class of its failure, and what it leaves in `pt_crc` and, if it
comes to the comparison, in `pt_rxcrc` (40_packet_transport.md R132). -/
structure Attempt where
  calls : List Call
  err : ErrClass
  crc : BitVec 16
  rxcrc : Option (BitVec 16)
  deriving DecidableEq, Repr

/-- The bytes of a frame on the wire: its bytes, then its CRC, high byte first (20_memory.md R62, 30_encoding.md R100, R109). -/
def framed (c : Config) (bytes : List Byte) : List Byte := bytes ++ bytes16 (crc16 c.poly c.crcInit bytes)

/-- An attempt abandoned at the write of byte `j` of `out`. -/
def AbandonedWrite (out : List Byte) (a : Attempt) (j : Nat) : Prop :=
  ∃ b, out[j]? = some b ∧ a.calls = writes .pt (out.take j) ++ [.write .pt b false] ∧ a.err = .communicationFailure ∧
    a.rxcrc = none

/-- A failed attempt of PT.WRITEFRAME (R133): a write that fails; or, with an acknowledge expected, an IOFail or a byte other
than ACK in its place. -/
def FailedWrite (c : Config) (bytes : List Byte) (expectAck : Bool) (a : Attempt) : Prop :=
  a.crc = crc16 c.poly c.crcInit bytes ∧
  ((∃ j, AbandonedWrite (framed c bytes) a j) ∨
    expectAck = true ∧ ∃ r : Option Byte, r ≠ some c.ack ∧
      a.calls = writes .pt (framed c bytes) ++ [.read .pt r] ∧ a.err = .communicationFailure ∧ a.rxcrc = none)

/-- A failed attempt of PT.READWORDS (`n = 4 * W`) or PT.READBYTEPAIR (`n = 2`) (R134, R135): a write that fails; an IOFail
after `took`, before the `n + 2` response bytes are in; or two CRC bytes that differ from the CRC of request and data. -/
def FailedRead (c : Config) (commandCode : Byte) (n : Nat) (a : Attempt) : Prop :=
  (∃ j, AbandonedWrite [c.address, commandCode] a j ∧
    a.crc = crc16 c.poly c.crcInit ([c.address, commandCode].take (j + 1))) ∨
  (∃ took : List Byte, took.length < n + 2 ∧
    a.calls = writes .pt [c.address, commandCode] ++ reads .pt took ++ [.read .pt none] ∧
    a.err = .communicationFailure ∧ a.crc = crc16 c.poly c.crcInit (c.address :: commandCode :: took.take n) ∧
    a.rxcrc = none) ∨
  ∃ data h l, data.length = n ∧ word16 h l ≠ crc16 c.poly c.crcInit (c.address :: commandCode :: data) ∧
    a.calls = writes .pt [c.address, commandCode] ++ reads .pt (data ++ [h, l]) ∧ a.err = .integrityFailure ∧
    a.crc = crc16 c.poly c.crcInit (c.address :: commandCode :: data) ∧ a.rxcrc = some (word16 h l)

/-- `pt_rxcrc` after a row of failed attempts. -/
def rxcrcAfter (r : Held (BitVec 16)) (as : List Attempt) : Held (BitVec 16) :=
  as.foldl (fun r a => match a.rxcrc with | some v => ⟨v, .written⟩ | none => r) r

/-- The bytes a history puts on a channel, in order: those whose write was accepted. -/
def wire (ch : Chan) (h : List Call) : List Byte :=
  h.filterMap fun c =>
    match c with
    | .write ch' b true => if ch' = ch then some b else none
    | _ => none

/-- No toggle loop is being programmed or turning, nothing is in progress, the host has nothing left to issue: the end of a
run (70_reset_and_hazards.md R307). That no fault and no refusal was recorded is that the run came to a state at all, and
no invocation is ever in flight between two steps. -/
def runOver (s : State) : Prop :=
  s.host = [] ∧ s.busy = none ∧ s.pt.phase = .idle ∧ s.cr.phase = .idle ∧ (s.pg.phase = .noLoop ∨ s.pg.phase = .closed)

/-- The values of 10_state.md R47's table. Where it says "unspecified", nothing has written the register; the value it
reads as is the model's (log 5) and not said here. -/
structure AtReset (s : State) : Prop where
  pt : s.pt.phase = .idle ∧ s.pt.crc = 0 ∧ s.pt.attempts = 0 ∧ s.pt.rxcrc.held = .atReset ∧ s.pt.data.held = .atReset
    ∧ s.pt.pair.held = .atReset ∧ s.pt.ok = false ∧ s.pt.err = 0
  cr : s.cr.phase = .idle ∧ s.cr.word.held = .atReset ∧ s.cr.data.held = .atReset ∧ s.cr.ok = false ∧ s.cr.err = 0
    ∧ s.cr.done = false ∧ s.cr.matched = false
  sp : s.sp.active = false ∧ s.sp.mode = .raw ∧ s.sp.lastTs = 0 ∧ s.sp.count = 0 ∧ s.sp.sum = List.replicate s.cfg.nAxes 0
    ∧ s.sp.offset.held = .atReset ∧ s.sp.offsetValid = false ∧ s.sp.angle = F.zero ∧ s.sp.q = [] ∧ s.sp.ovr = false
    ∧ s.sp.ok = false ∧ s.sp.err = 0
  pg : s.pg.phase = .noLoop ∧ s.pg.running = false ∧ s.pg.dir.held = .atReset ∧ s.pg.half.held = .atReset ∧ s.pg.target = .none
    ∧ s.pg.count = 0 ∧ s.pg.cbEn = false ∧ s.pg.closed = false ∧ s.pg.ok = false ∧ s.pg.err = 0
    ∧ s.pg.stepOut = false ∧ s.pg.dirOut.held = .atReset

/-- What a loop being programmed will be: an unbounded loop without a callback, or a count in its legal range (R212, R213). -/
def LaunchOk (op : LaunchOp) : Prop :=
  (op.target = .infinite ∧ op.cbEn = false ∧ op.background = true) ∨ ∃ n, op.target = .finite n ∧ legalCount n = true

/-- The host is inside PG.RUN or PG.STEPCOUNT after "marks running" and before the loop's first phase (R220 (2)). -/
def markedRunning (s : State) : Bool :=
  match s.busy with
  | some (.launch op) => op.act == .start || op.act == .stepOn
  | some (.pt _) | some (.cr _) | some (.popt _) | some .pop | some .loopEnd | none => false

/-- The invariant of the PG unit (43_pulse_generator.md R220 and the phases of 10_state.md R31). -/
structure PgInv (s : State) : Prop where
  /-- inside the settle delay, and the actions after it, exactly while the host is blocked in them -/
  launch : ∀ op, s.busy = some (.launch op) → LaunchOk op ∧ s.pg.phase = if op.act = .emit then .noLoop else .settling
  settling : s.pg.phase = .settling → ∃ op, s.busy = some (.launch op)
  /-- the direction is set before the running flag -/
  directed : ∀ op, s.busy = some (.launch op) → op.act = .registers ∨ op.act = .start ∨ op.act = .stepOn →
    s.pg.dir = ⟨op.dir, .written⟩ ∧ s.pg.dirOut = ⟨dirLevel s.cfg op.dir, .written⟩
  /-- the loop's registers are set together with the running flag -/
  marked : ∀ op, s.busy = some (.launch op) → op.act = .start ∨ op.act = .stepOn →
    s.pg.half = ⟨op.half, .written⟩ ∧ s.pg.target = op.target ∧ s.pg.cbEn = op.cbEn ∧ s.pg.count = 0
  /-- R220 (1) and (2): the running flag is set exactly while a loop exists or is marked and about to start -/
  runs : s.pg.running = (s.pg.phase.hasLoop || markedRunning s)
  /-- the flag and the phase of a closed unit agree (R216) -/
  closed : s.pg.closed = true ↔ s.pg.phase = .closed
  /-- R220 (3): a counted loop has counted to its target exactly when it is completing; an unbounded loop never completes -/
  counted : s.pg.phase.hasLoop = true →
    (s.pg.target = .infinite ∧ s.pg.cbEn = false ∧ s.pg.phase ≠ .completing) ∨
    ∃ n, s.pg.target = .finite n ∧ s.pg.count.toNat ≤ n.toNat ∧ (s.pg.count = n ↔ s.pg.phase = .completing)
  /-- in cycle k the counter is k, and STEP has the level of the phase (R217, R218) -/
  high : ∀ k, s.pg.phase = .high k → s.pg.count.toNat = k ∧ s.pg.stepOut = true
  low : ∀ k, s.pg.phase = .low k → s.pg.count.toNat = k ∧ s.pg.stepOut = false
  completing : s.pg.phase = .completing → s.pg.stepOut = false
  /-- a turning loop has its direction set and on the output, and its half-period (R212, R213) -/
  programmed : s.pg.phase.hasLoop = true →
    s.pg.dir.held = .written ∧ s.pg.half.held = .written ∧ s.pg.dirOut = ⟨dirLevel s.cfg s.pg.dir.val, .written⟩

/-- The time that a queue element says has passed (10_state.md R41). -/
def deltaOf : QElem → BitVec 64
  | .sample _ delta => delta
  | .angle _ => 0

/-- A queue element has one entry per axis (10_state.md R41). -/
def elemOk (c : Config) : QElem → Prop
  | .sample (.raw v) _ => v.length = c.nAxes
  | .sample (.float v) _ => v.length = c.nAxes
  | .angle _ => True

/-- The invariant of the SP unit (10_state.md R23, R39, R41; 42_sampling_pipeline.md R182). -/
structure SpInv (s : State) : Prop where
  /-- the queue never holds more than QCAP elements -/
  bounded : s.sp.q.length ≤ s.cfg.qCap
  elems : ∀ e ∈ s.sp.q, elemOk s.cfg e
  sums : s.sp.sum.length = s.cfg.nAxes
  offsets : s.sp.offset.val.length = s.cfg.nAxes
  /-- a valid offset is one that SP.CALEND wrote (R34, R39) -/
  finalized : s.sp.offsetValid = true → s.sp.offset.held = .written
  /-- a mode that subtracts the offset runs only with a valid offset, so the handler reads no other (log 19) -/
  calibrated : s.sp.active = true → usesOffset s.sp.mode = true → s.sp.offsetValid = true
  /-- while calibrating there is no valid offset -/
  calibrating : s.sp.active = true → s.sp.mode = .cal → s.sp.offsetValid = false

/-- The flags of a unit. -/
def flagsOf (s : State) : UnitName → Bool × BitVec 3
  | .pt => (s.pt.ok, s.pt.err)
  | .cr => (s.cr.ok, s.cr.err)
  | .sp => (s.sp.ok, s.sp.err)
  | .pg => (s.pg.ok, s.pg.err)

/-- The codes that operations of a unit can end with, by the "raised by" column of 60_exceptions.md R240. -/
def codesOf : UnitName → List (BitVec 3)
  | .pt => [0, 1, 2, 3]
  | .cr => [0, 1, 3, 4]
  | .sp => [0, 3, 6]
  | .pg => [0, 6]

/-- The invariant of the result flags (10_state.md R34, R35; 60_exceptions.md R240; 30_encoding.md R115). -/
structure FlagInv (s : State) : Prop where
  /-- an error code is one the unit's operations raise, and goes with `ok = false` -/
  codes : ∀ u, (flagsOf s u).2 ∈ codesOf u ∧ ((flagsOf s u).1 = true → (flagsOf s u).2 = 0)
  /-- the result record is what its unit's flags say -/
  record : ∀ r, s.ret = some r → flagsOf s r.unit = (r.ok, r.err)

/-- PT and CR are in their rest phase unless the host is blocked in an operation of theirs (40_packet_transport.md R137,
41_command_response.md R167). -/
structure RestInv (s : State) : Prop where
  pt : s.pt.phase ≠ .idle → ∃ op, s.busy = some (.pt op)
  cr : s.cr.phase ≠ .idle → ∃ op, s.busy = some (.cr op)

end Sys2Proof
end

