-- ==== Sys2Proof/Certificates/Slice0/Obligations.lean ====
section
/-! DEFINITION. The statements for the provers. Each docstring names the rules of spec/ it formalises; where a clause rests on
a choice of the model, it names the log entry. In the statements about PT, CR and SP.POPT the environment's
answers are the moves `ms` in `env`, and a channel's receive side is a list: both are the model's form of the environment (log 2),
as is that one step runs an operation as far as the answers go (log 10). `answered ms ⟨s.ptRx, s.crRx⟩ calls = some ⟨pt, cr⟩` says
that `ms` makes the operation's calls come out as `calls` lists them, and leaves the receive sides `pt` and `cr`: a response may
be there before the operation is issued, or arrive before any of its calls, a delay between two of them included, and a call
that finds no byte waits for it (R86, R162 corner case (a); log 22). An availability test counts what is there, whatever
the answer (log 17). -/

open Sys2Proof Sys2Proof.Machine

/-! ### Descriptors -/

/-- Six descriptors written out byte by byte from 30_encoding.md R114 and 95_test_vectors.md 2.6 decode to the operations they
stand for. -/
def Obligations.SampleDescriptorsDecode : Prop :=
  decode .f32 [0x01, 0x02, 0x01, 0x00, 0x03, 0x80, 0x00, 0x40] = .ok (.ptWriteframe 2 true [0x80, 0x00, 0x40], []) ∧
  decode .f32 [0x11, 0x53, 0x01, 0x68] = .ok (.crWritecmdp 0x53 0x0168, []) ∧
  decode .f32 [0x20, 0x04] = .ok (.spActivate .heading, []) ∧
  decode .f32 [0x24, 0x00, 0x00, 0x01, 0xF4] = .ok (.spPopt 500, []) ∧
  decode .f32 [0x31, 0x06, 0x00, 0x00, 0x00, 0x64, 0x42, 0x70, 0x00, 0x00] =
    .ok (.pgStepcount 100 .cw (.b32 0x42700000) true true, []) ∧
  decode .f64 [0x30, 0x01, 0x40, 0x4E, 0x00, 0x00, 0x00, 0x00, 0x00, 0x00] =
    .ok (.pgRun .ccw (.b64 0x404E000000000000), [])

/-- Decode and encode agree: the descriptor of every well-formed operation decodes to it, whatever bytes come after, and exactly
its own bytes are taken (30_encoding.md R114, R122). -/
def Obligations.DecodeOfEncode : Prop :=
  ∀ (c : Config) (i : Instr) (rest : List Byte), i.wellFormed c = true →
    decode c.flen (encode i ++ rest) = .ok (i, rest)

/-- An opcode byte not in the map of R114 is refused, whatever follows it: no state results (R118). The turn is the host's by its
entry in the schedule, or by an empty schedule, which is the DESIGN CHOICE of log 3. -/
def Obligations.UnlistedOpcodeRefused : Prop :=
  ∀ (s : State) (es : List Event) (op : Byte) (bs : List Byte),
    legalConfig s.cfg = true → s.busy = none → HostTurns 1 s es → s.host = op :: bs →
    (op = 0x00 ∨ (0x05 ≤ op.toNat ∧ op.toNat ≤ 0x0F) ∨ (0x17 ≤ op.toNat ∧ op.toNat ≤ 0x1F) ∨
      (0x25 ≤ op.toNat ∧ op.toNat ≤ 0x2F) ∨ 0x35 ≤ op.toNat) →
    step s = .refused (.descriptor (.opcode op))

/-- The reserved operand values of R119, each refused: a mode byte of 5 to 255; a flag bit above the defined ones in each of the
four `flags` fields; `len > TXMAX`; `wordCount > WMAX`; a count of 0 or above 2^31 - 1; a speed that is zero, negative,
infinite or NaN. R119 says that all are refused the same way; that flags and mode are refused by the decoder and the other
four by the meaning, under these names, and that a reserved count wins over a reserved speed, is the DESIGN CHOICE of log 14.
The host's turn is its entry in the schedule, or an empty schedule, which is the DESIGN CHOICE of log 3. -/
def Obligations.ReservedOperandsRefused : Prop :=
  ∀ s : State, legalConfig s.cfg = true → s.busy = none →
    (∀ es : List Event, HostTurns 1 s es → ∀ bs : List Byte,
      (∀ m : Byte, 5 ≤ m.toNat → s.host = 0x20 :: m :: bs → step s = .refused (.descriptor (.reservedMode m))) ∧
      (∀ r f l1 l0 : Byte, 2 ≤ f.toNat → s.host = 0x01 :: r :: f :: l1 :: l0 :: bs →
        step s = .refused (.descriptor (.reservedFlags f))) ∧
      (∀ f : Byte, 2 ≤ f.toNat → s.host = 0x15 :: f :: bs → step s = .refused (.descriptor (.reservedFlags f))) ∧
      (∀ f : Byte, 2 ≤ f.toNat → s.host = 0x30 :: f :: bs → step s = .refused (.descriptor (.reservedFlags f))) ∧
      (∀ f n3 n2 n1 n0 : Byte, 8 ≤ f.toNat → s.host = 0x31 :: f :: n3 :: n2 :: n1 :: n0 :: bs →
        step s = .refused (.descriptor (.reservedFlags f)))) ∧
    (∀ r ack bytes, s.cfg.txMax < bytes.length →
      exec (.ptWriteframe r ack bytes) s = .refused (.reservedOperand "len")) ∧
    (∀ cc w : Byte, s.cfg.wMax < w.toNat → exec (.ptReadwords cc w) s = .refused (.reservedOperand "wordCount")) ∧
    (∀ (n : BitVec 32) d v bg cb, n.toNat = 0 ∨ 2 ^ 31 - 1 < n.toNat →
      exec (.pgStepcount n d v bg cb) s = .refused (.reservedOperand "count")) ∧
    (∀ v : FBits, ((∃ x, v = .b32 x ∧ s.cfg.flen = .f32) ∨ ∃ x, v = .b64 x ∧ s.cfg.flen = .f64) →
      positiveIn s.cfg.flen (fOfBits v) = false →
      (∀ d, exec (.pgRun d v) s = .refused (.reservedOperand "speedRPM")) ∧
      ∀ n d bg cb, legalCount n = true → exec (.pgStepcount n d v bg cb) s = .refused (.reservedOperand "speedRPM"))

/-! ### The machine: step, reset, agents -/

/-- A step runs the decoded operation: when the host is free and moves next, and its bytes decode to `i`, the step is `exec i` on
the state with the descriptor's bytes taken (and the host's entry taken from the schedule). That an empty schedule is the
host's turn is the model's (log 3). At a configuration outside the domains of 93_implementation_defined.md U14 no step is taken
("`refuse`: not a legal configuration"), and the domains are these. -/
def Obligations.StepRunsDecodedOperation : Prop :=
  (∀ (s : State) (i : Instr) (rest : List Byte), legalConfig s.cfg = true → s.busy = none →
    decode s.cfg.flen s.host = .ok (i, rest) →
    (s.sched = [] → step s = exec i { s with host := rest }) ∧
    ∀ es, s.sched = .host :: es → step s = exec i { s with host := rest, sched := es }) ∧
  (∀ s : State, legalConfig s.cfg = false → step s = .refused .illegalConfig) ∧
  ∀ c : Config, legalConfig c = true ↔
    1 ≤ c.nAxes ∧ c.hAxis < c.nAxes ∧ 1 ≤ c.qCap ∧ 2 ≤ c.verifyBytes.length ∧ c.scanWords < 2 ^ 16 ∧ c.wMax < 2 ^ 8 ∧
    (∃ neg m, c.sens = .fin neg m ∧ m < c.flen.infMag) ∧
    (∃ m, c.odr = .fin false m ∧ 0 < m ∧ m < c.flen.infMag) ∧
    (∃ m, c.microsteps = .fin false m ∧ 0 < m ∧ m < c.flen.infMag) ∧
    ∃ neg m, c.deadZone = .fin neg m ∧ m < c.flen.infMag ∧ (neg = true → m = 0)

/-- State.reset, and the reset state at every configuration, has the values of R47's table; and the host can read every register
there. What the registers read as whose value the table calls unspecified is the DESIGN CHOICE of log 5 (R25 has the host read
none of them before it is written); the registers whose read gives a free value, and not the register's, are the DESIGN CHOICE
of log 23. -/
def Obligations.ResetHasTableValues : Prop :=
  (∀ c, AtReset (State.resetAt c) ∧ (State.resetAt c).cfg = c ∧
    (∀ r, readReg (State.resetAt c) r ≠ .noValue) ∧
    (∀ r, r ≠ .spLastTs → r ≠ .spCount → r ≠ .spSum → r ≠ .spAngle → (∀ w, r ≠ .fixedWait w) →
      ∃ v, readReg (State.resetAt c) r = .value v) ∧
    readReg (State.resetAt c) .ptRxcrc = .value (.u16 0) ∧ readReg (State.resetAt c) .ptData = .value (.words []) ∧
    readReg (State.resetAt c) .ptPair = .value (.pair 0 0) ∧ readReg (State.resetAt c) .crWord = .value (.u16 0) ∧
    readReg (State.resetAt c) .crData = .value (.wordList []) ∧ readReg (State.resetAt c) .pgDir = .value (.dir .cw) ∧
    readReg (State.resetAt c) .pgHalf = .value (.float F.zero) ∧
    readReg (State.resetAt c) .spOffset = .value (.floats (List.replicate c.nAxes F.zero))) ∧
  AtReset State.reset ∧ State.reset.busy = none

/-- The reset of R280 answers a next state from every state at a legal configuration: the table's values, no operation in
progress, no result, no completion action run; the configuration and the environment are not reached (R281). That the host's
bytes not yet issued and the event history are kept is the DESIGN CHOICE of log 13; that driving STEP off is recorded as a
DoutSet is DEDUCED there. -/
def Obligations.ResetEventTakesEffect : Prop :=
  ∀ (s : State) (es : List Event), legalConfig s.cfg = true → s.sched = .reset :: es →
    ∃ t, step s = .next t ∧ AtReset t ∧ t.cfg = s.cfg ∧ t.busy = none ∧ t.ret = none ∧ t.ptRx = s.ptRx ∧ t.crRx = s.crRx ∧
      t.env = s.env ∧ t.sched = es ∧ t.host = s.host ∧ ∃ cs, t.hist = s.hist ++ cs ∧ .dout .step false ∈ cs ∧ .emit .complete ∉ cs

/-- A second caller is refused: no operation is given a meaning while the host is blocked in another (93 U15, 20_memory.md
R80); and a register read then is one of a second caller too, since the host reads a register "between operations" (70 R308; log
18). -/
def Obligations.SecondCallerRefused : Prop :=
  (∀ (i : Instr) (s : State), s.busy.isSome = true → exec i s = .refused .hostBusy) ∧
  ∀ (s : State) (r : RegName) (es : List Event), legalConfig s.cfg = true → s.busy.isSome = true →
    s.sched = .read r :: es → step s = .refused .hostBusy

/-- An error is a result, never a fault: no operation faults, from any state (40 R137, 60 R254). -/
def Obligations.OperationsNeverFault : Prop :=
  ∀ (i : Instr) (s : State) (f : Fault), exec i s ≠ .fault f

/-- "Every parameter ... is a read-only, hardwired configuration field, fixed when the block is instantiated and unchanged by any
operation and by reset" (10_state.md R37). -/
def Obligations.ConfigurationNeverChanges : Prop :=
  (∀ s t : State, step s = .next t → t.cfg = s.cfg) ∧
  ∀ (i : Instr) (s t : State), exec i s = .next t → t.cfg = s.cfg

/-- The event history only grows, in every step. That State keeps a history is the model's record (log 8). -/
def Obligations.HistoryOnlyGrows : Prop :=
  ∀ s t : State, step s = .next t → ∃ cs, t.hist = s.hist ++ cs

/-- The units share nothing: an operation of one unit changes no register, flag or phase of another, and nothing of the schedule
or of the host's further bytes, neither in the step that issues it nor in a later step in which it goes on, be it the host's
turn or an answer of the environment (10_state.md R20, R34). -/
def Obligations.UnitsAreIsolated : Prop :=
  (∀ (i : Instr) (s t : State), exec i s = .next t →
    (i.unit ≠ .pt → t.pt = s.pt) ∧ (i.unit ≠ .cr → t.cr = s.cr) ∧ (i.unit ≠ .sp → t.sp = s.sp) ∧
    (i.unit ≠ .pg → t.pg = s.pg) ∧ t.sched = s.sched ∧ t.host = s.host) ∧
  ∀ (s t : State) (p : Pending) (es : List Event), s.busy = some p →
    (HostTurns 1 s es ∨ ∃ m, s.sched = .answer m :: es) → step s = .next t →
    (p.unit ≠ .pt → t.pt = s.pt) ∧ (p.unit ≠ .cr → t.cr = s.cr) ∧ (p.unit ≠ .sp → t.sp = s.sp) ∧
    (p.unit ≠ .pg → t.pg = s.pg) ∧ t.sched = es ∧ t.host = s.host ∧ t.cfg = s.cfg

/-- The events touch one unit each: an interrupt changes only SP, a toggle step only PG; neither an operation in progress nor
the channels (10_state.md R20; 60 R256). -/
def Obligations.EventsTouchTheirUnit : Prop :=
  ∀ s t : State,
    (∀ ts raw, spIrq ts raw s = .next t → ∃ u cs, t = { s with sp := u, hist := s.hist ++ cs }) ∧
    (pgToggle s = .next t → ∃ u cs, t = { s with pg := u, hist := s.hist ++ cs })

/-- A read of a register faults exactly when the operation that last was to write it failed, or, for `pt_data`, `pt_pair` and
`cr_data`, once written, while the unit's `ok` is false (10_state.md R21, R22, R25, 93 U1; log 12); otherwise the host reads every
register (70 R308), and nothing else changes but the history and, after a free value, its counter. What it gets is the register's
value, a configuration register's among them (R37). A register that nothing has written since reset reads as its value at reset,
where R25 and U1 ask for a fault: the DESIGN CHOICE of log 5. For `sp_last_ts`, `sp_count`, `sp_sum` and `sp_angle`, which only
the handler computes, visible to the host "only as an element popped from the queue" (20_memory.md R87; R40; no reader but the
unit in R23), and for the fixed waits, none "readable or writable by the host" (60 R261), what it gets is a free value: how R308
goes together with those rules is the DESIGN CHOICE of log 23. -/
def Obligations.HostReadFaultsOnNoValue : Prop :=
  ∀ (s : State) (r : RegName) (es : List Event) (value : HostRead),
    legalConfig s.cfg = true → s.busy = none → s.sched = .read r :: es →
    value = (match r with
      | .ptRxcrc => if s.pt.rxcrc.held = .failed then .noValue else .value (.u16 s.pt.rxcrc.val)
      | .crWord => if s.cr.word.held = .failed then .noValue else .value (.u16 s.cr.word.val)
      | .pgDir => if s.pg.dir.held = .failed then .noValue else .value (.dir s.pg.dir.val)
      | .pgHalf => if s.pg.half.held = .failed then .noValue else .value (.float s.pg.half.val)
      | .ptData => if s.pt.data.held = .atReset ∨ s.pt.data.held = .written ∧ s.pt.ok = true then
          .value (.words s.pt.data.val) else .noValue
      | .ptPair => if s.pt.pair.held = .atReset ∨ s.pt.pair.held = .written ∧ s.pt.ok = true then
          .value (.pair s.pt.pair.val.1 s.pt.pair.val.2) else .noValue
      | .crData => if s.cr.data.held = .atReset ∨ s.cr.data.held = .written ∧ s.cr.ok = true then
          .value (.wordList s.cr.data.val) else .noValue
      | .spOffset => if s.sp.offset.held = .failed then .noValue else .value (.floats s.sp.offset.val)
      | .ptCrc => .value (.u16 s.pt.crc)
      | .ptAttempts => .value (.nat s.pt.attempts)
      | .ptOk => .value (.bool s.pt.ok)
      | .ptErr => .value (.err s.pt.err)
      | .crOk => .value (.bool s.cr.ok)
      | .crErr => .value (.err s.cr.err)
      | .crDone => .value (.bool s.cr.done)
      | .crMatch => .value (.bool s.cr.matched)
      | .spActive => .value (.bool s.sp.active)
      | .spMode => .value (.mode s.sp.mode)
      | .spLastTs => .free (.i64 (.ofNat 64 (Config.freeNumber s.fresh 0)))
      | .spCount => .free (.u32 (.ofNat 32 (Config.freeNumber s.fresh 0)))
      | .spSum => .free (.i64s ((List.range s.cfg.nAxes).map fun a => .ofNat 64 (Config.freeNumber s.fresh a)))
      | .spAngle => .free (.float (floatOfNat s.cfg.flen (Config.freeNumber s.fresh 0)))
      | .fixedWait _ => .free (.nat (Config.freeNumber s.fresh 0))
      | .spOffsetValid => .value (.bool s.sp.offsetValid)
      | .spOvr => .value (.bool s.sp.ovr)
      | .spOk => .value (.bool s.sp.ok)
      | .spErr => .value (.err s.sp.err)
      | .pgTarget => .value (.target s.pg.target)
      | .pgCount => .value (.u32 s.pg.count)
      | .pgCbEn => .value (.bool s.pg.cbEn)
      | .pgRunning => .value (.bool s.pg.running)
      | .pgClosed => .value (.bool s.pg.closed)
      | .pgOk => .value (.bool s.pg.ok)
      | .pgErr => .value (.err s.pg.err)
      | .config p => .value (match p with
        | .poly => .u16 s.cfg.poly
        | .crcInit => .u16 s.cfg.crcInit
        | .ack => .u8 s.cfg.ack
        | .retries => .nat s.cfg.retries
        | .discard => .nat s.cfg.discard
        | .address => .u8 s.cfg.address
        | .verifyBytes => .bytes s.cfg.verifyBytes
        | .txMax => .nat s.cfg.txMax
        | .wMax => .nat s.cfg.wMax
        | .idCmd => .u8 s.cfg.idCmd
        | .retrieveCmd => .u8 s.cfg.retrieveCmd
        | .deviceId => .u16 s.cfg.deviceId
        | .scanFail => .u16 s.cfg.scanFail
        | .scanWords => .nat s.cfg.scanWords
        | .flen => .flen s.cfg.flen
        | .raww => .raww s.cfg.raww
        | .nAxes => .nat s.cfg.nAxes
        | .hAxis => .nat s.cfg.hAxis
        | .deadZone => .float s.cfg.deadZone
        | .qCap => .nat s.cfg.qCap
        | .sens => .float s.cfg.sens
        | .odr => .float s.cfg.odr
        | .microsteps => .float s.cfg.microsteps
        | .dirCwLevel => .bool s.cfg.dirCwLevel
        | .stopFiresComplete => .bool s.cfg.stopFiresComplete)) →
    (value = .noValue → step s = .fault (.noValue r)) ∧
    (∀ v, value = .value v → step s = .next { s with sched := es, hist := s.hist ++ [.hostRead r v] }) ∧
    ∀ v, value = .free v →
      step s = .next { s with sched := es, hist := s.hist ++ [.hostRead r v], fresh := s.fresh + 1 }

/-- A blocked operation has no step of its own: with nothing new from the environment a PT or CR operation stays exactly where it
is at the host's turn; so does SP.POP on an empty queue and a foreground PG.STEPCOUNT whose loop turns (20_memory.md R86). A
`ChRead` or `ChWaitByte` that the environment lets go on while its receive side is empty goes on waiting, and so does SP.POPT on an
empty queue (R162 corner case (a), R86; log 22). And when a run is over and no event comes, nothing moves (70 R307). That waiting
is a step to the same state is the model's (log 4); that an empty schedule is the host's turn is the DESIGN CHOICE of log 3. An
answer of the environment makes an operation that waits for one go on: answers given one by one, after the operation was issued,
bring it where the same answers given at once bring it (10_state.md R28, R29; log 10); with nothing waiting for it, an answer is
kept (log 2). -/
def Obligations.BlockedOperationIsStuck : Prop :=
  ∀ s : State, legalConfig s.cfg = true →
    (∀ es : List Event, HostTurns 1 s es →
      (runOver s → step s = .next { s with sched := es }) ∧
      (s.env = [] →
        (∃ op, s.busy = some (.pt op)) ∨ (∃ op, s.busy = some (.cr op)) ∨ (∃ ms, s.busy = some (.popt ms) ∧ s.sp.q = []) ∨
          (s.busy = some .pop ∧ s.sp.q = []) ∨ (s.busy = some .loopEnd ∧ s.pg.phase ≠ .noLoop) →
        step s = .next { s with sched := es }) ∧
      (∀ n : Nat, s.env = proceeds n →
        ((∃ op, s.busy = some (.pt op)) ∧ s.ptRx = [] ∧ (s.pt.phase = .rxAck ∨ (∃ k, s.pt.phase = .rxData k) ∨
            s.pt.phase = .rxCrcHi ∨ s.pt.phase = .rxCrcLo ∨ s.pt.phase = .idWait)) ∨
          ((∃ op, s.busy = some (.cr op)) ∧ s.crRx = [] ∧ ∃ k, s.cr.phase = .rx k) ∨
          (∃ ms, s.busy = some (.popt ms) ∧ s.sp.q = []) →
        step s = .next { s with env := [], sched := es })) ∧
    (∀ (m : EnvMove) (es : List Event), s.sched = .answer m :: es →
      s.busy = none ∨ s.busy = some .pop ∨ s.busy = some .loopEnd ∨ (∃ op, s.busy = some (.launch op)) →
      step s = .next { s with sched := es, env := s.env ++ [m] }) ∧
    ∀ (i : Instr) (ms : List EnvMove) (es : List Event) (t : State), exec i { s with env := s.env ++ ms } = .next t →
      ∃ u, exec i s = .next u ∧
        Host.Core.run core ms.length { u with sched := ms.map Event.answer ++ es } = .next { t with sched := es }

/-- In every state a run reaches, PT and CR are in their rest phase unless an operation of theirs is in progress: every step
keeps it (40 R137, 41 R167). -/
def Obligations.RestPhasesKept : Prop := ∀ s t : State, RestInv s → step s = .next t → RestInv t

/-- Every step keeps the rules of result flags and error codes: each unit's code is one its operations raise ("`sp_err` is
never 5"), it is 0 where `ok` is set, and the result record is what its unit's flags say (60 R240, R245; 30 R115). -/
def Obligations.FlagRulesKept : Prop := ∀ s t : State, FlagInv s → step s = .next t → FlagInv t

/-- Every step keeps the invariant of the PG unit, R220 among it. -/
def Obligations.PgInvariantKept : Prop := ∀ s t : State, PgInv s → step s = .next t → PgInv t

/-- Every step keeps the invariant of the SP unit: the queue within QCAP, one entry per axis everywhere, and no mode that
subtracts the offset active without a valid offset. -/
def Obligations.SpInvariantKept : Prop := ∀ s t : State, SpInv s → step s = .next t → SpInv t

/-- The four invariants hold at reset, at every configuration. -/
def Obligations.InvariantsHoldAtReset : Prop :=
  ∀ c : Config, RestInv (State.resetAt c) ∧ FlagInv (State.resetAt c) ∧ PgInv (State.resetAt c) ∧ SpInv (State.resetAt c)

/-! ### PT -/

/-- The CRC of R130 and R131 computed with an accumulator that is never masked, "mask on comparison/output": the low 16 bits are
the block's (00_scope.md R14). -/
def Obligations.MaskingEveryShiftLosesNothing : Prop :=
  ∀ bytes : List Byte,
    (bytes.foldl
      (fun (wide : Nat) b => Nat.repeat
        (fun w => if w.testBit 15 then (w <<< 1) ^^^ 0x1021 else w <<< 1) 8 (wide ^^^ (b.toNat <<< 8))) 0) % 2 ^ 16
      = (crc16 0x1021 0 bytes).toNat

/-- The consequences of R131: the empty list, leading zero bytes, the residue of a message followed by its own CRC, and the
check value over "123456789". -/
def Obligations.CrcConsequences : Prop :=
  crc16 0x1021 0 [] = 0 ∧ crc16Update 0x1021 0 0 = 0 ∧
  (∀ (n : Nat) (m : List Byte), crc16 0x1021 0 (List.replicate n 0 ++ m) = crc16 0x1021 0 m) ∧
  (∀ m : List Byte, crc16 0x1021 0 (m ++ [hiByte (crc16 0x1021 0 m), loByte (crc16 0x1021 0 m)]) = 0) ∧
  crc16 0x1021 0 [0x31, 0x32, 0x33, 0x34, 0x35, 0x36, 0x37, 0x38, 0x39] = 0x31C3

/-- PT.WRITEFRAME without acknowledge: after as many failed attempts as its budget allows, or fewer, or none, an attempt with every
write accepted succeeds: the wire carries the bytes then the CRC, high byte first (R62, R100), the attempts are counted, and
nothing else changes (R132, R133 corner case (b)). A failed attempt is one abandoned at a failing write. -/
def Obligations.WriteFrameWithoutAckSucceeds : Prop :=
  ∀ (s : State) (r : Byte) (bytes pt cr : List Byte) (failed : List Attempt) (ms rest : List EnvMove),
    s.busy = none → legalLen s.cfg bytes = true → failed.length ≤ r.toNat →
    (∀ a ∈ failed, FailedWrite s.cfg bytes false a) → s.env = ms ++ rest →
    answered ms ⟨s.ptRx, s.crRx⟩ (failed.flatMap Attempt.calls ++
      writes .pt (bytes ++ bytes16 (crc16 s.cfg.poly s.cfg.crcInit bytes))) = some ⟨pt, cr⟩ →
    exec (.ptWriteframe r false bytes) s = .next { s with
      pt := { s.pt with
        phase := .idle, crc := crc16 s.cfg.poly s.cfg.crcInit bytes, attempts := failed.length + 1, ok := true, err := 0 }
      ret := some ⟨.pt, true, 0, .none⟩
      hist := s.hist ++ failed.flatMap Attempt.calls ++
        writes .pt (bytes ++ bytes16 (crc16 s.cfg.poly s.cfg.crcInit bytes))
      ptRx := pt
      crRx := cr
      env := rest }

/-- PT.WRITEFRAME with acknowledge: after as many failed attempts as its budget allows, or fewer, or none, ACK as the next byte of
the receive side, there already or arriving while the operation waits for it, is success, and that one byte is taken (R132, R133,
30_encoding.md R101). A failed attempt is one abandoned at a failing write, or one whose acknowledge is IOFail or another
byte. -/
def Obligations.WriteFrameWithAckSucceeds : Prop :=
  ∀ (s : State) (r : Byte) (bytes pt cr : List Byte) (failed : List Attempt) (ms rest : List EnvMove),
    s.busy = none → legalLen s.cfg bytes = true → failed.length ≤ r.toNat →
    (∀ a ∈ failed, FailedWrite s.cfg bytes true a) → s.env = ms ++ rest →
    answered ms ⟨s.ptRx, s.crRx⟩ (failed.flatMap Attempt.calls ++
      writes .pt (bytes ++ bytes16 (crc16 s.cfg.poly s.cfg.crcInit bytes)) ++ reads .pt [s.cfg.ack]) = some ⟨pt, cr⟩ →
    exec (.ptWriteframe r true bytes) s = .next { s with
      pt := { s.pt with
        phase := .idle, crc := crc16 s.cfg.poly s.cfg.crcInit bytes, attempts := failed.length + 1, ok := true, err := 0 }
      ret := some ⟨.pt, true, 0, .none⟩
      hist := s.hist ++ failed.flatMap Attempt.calls ++
        writes .pt (bytes ++ bytes16 (crc16 s.cfg.poly s.cfg.crcInit bytes)) ++ reads .pt [s.cfg.ack]
      ptRx := pt
      crRx := cr
      env := rest }

/-- Retry exhaustion of PT.WRITEFRAME for every budget, with and without acknowledge: if each of `retries + 1` attempts fails, at a
write or (an acknowledge expected) by an IOFail or a byte other than ACK, the operation ends with `ok = false` and
CommunicationFailure after exactly `retries + 1` attempts, and the channel has carried what each attempt put on it: where
only acknowledges fail, the whole frame that many times (R133, R138). -/
def Obligations.WriteFrameExhaustsItsRetries : Prop :=
  ∀ (s : State) (r : Byte) (expectAck : Bool) (bytes pt cr : List Byte) (failed : List Attempt) (ms rest : List EnvMove),
    s.busy = none → legalLen s.cfg bytes = true → failed.length = r.toNat + 1 →
    (∀ a ∈ failed, FailedWrite s.cfg bytes expectAck a) →
    s.env = ms ++ rest → answered ms ⟨s.ptRx, s.crRx⟩ (failed.flatMap Attempt.calls) = some ⟨pt, cr⟩ →
    exec (.ptWriteframe r expectAck bytes) s = .next { s with
      pt := { s.pt with
        phase := .idle, crc := crc16 s.cfg.poly s.cfg.crcInit bytes, attempts := r.toNat + 1, ok := false, err := 1 }
      ret := some ⟨.pt, false, 1, .none⟩
      hist := s.hist ++ failed.flatMap Attempt.calls
      ptRx := pt
      crRx := cr
      env := rest }

/-- PT.READWORDS when, after at most RETRIES failed attempts, the peer's response is intact: the request is ADDRESS and commandCode
without a CRC, word `i` is bytes `4 i` to `4 i + 3` of the response, most significant first, and `pt_rxcrc` equals `pt_crc` over
request and data (R132, R134; 30_encoding.md R102, R103, R110). The response may arrive at any time, byte by byte. A failed
attempt is one abandoned at a failing write or read, or one whose CRC bytes do not match. -/
def Obligations.ReadWordsDeliversIntactResponse : Prop :=
  ∀ (s : State) (cc w h l : Byte) (data pt cr : List Byte) (failed : List Attempt) (ms rest : List EnvMove),
    s.busy = none → legalWords s.cfg w = true → failed.length ≤ s.cfg.retries →
    (∀ a ∈ failed, FailedRead s.cfg cc (4 * w.toNat) a) → data.length = 4 * w.toNat →
    word16 h l = crc16 s.cfg.poly s.cfg.crcInit (s.cfg.address :: cc :: data) → s.env = ms ++ rest →
    answered ms ⟨s.ptRx, s.crRx⟩ (failed.flatMap Attempt.calls ++ writes .pt [s.cfg.address, cc] ++
      reads .pt (data ++ [h, l])) = some ⟨pt, cr⟩ →
    exec (.ptReadwords cc w) s = .next { s with
      pt := { s.pt with
        phase := .idle, crc := word16 h l, attempts := failed.length + 1, rxcrc := ⟨word16 h l, .written⟩
        data := ⟨bigEndian32 w.toNat data, .written⟩
        ok := true, err := 0 }
      ret := some ⟨.pt, true, 0, .words (bigEndian32 w.toNat data)⟩
      hist := s.hist ++ failed.flatMap Attempt.calls ++ writes .pt [s.cfg.address, cc] ++ reads .pt (data ++ [h, l])
      ptRx := pt
      crRx := cr
      env := rest }

/-- Retry exhaustion of PT.READWORDS: when RETRIES + 1 attempts fail (three with RETRIES = 2), exactly that many are made, and the
operation ends with `ok = false` and the class of the last failure: IntegrityFailure where its CRC bytes did not match, else
CommunicationFailure. `pt_data` holds no value, and each attempt's request and response are in the history (R134, R138). -/
def Obligations.ReadWordsExhaustsItsRetries : Prop :=
  ∀ (s : State) (cc w : Byte) (failed : List Attempt) (last : Attempt) (pt cr : List Byte) (ms rest : List EnvMove),
    s.busy = none → legalWords s.cfg w = true → failed.length = s.cfg.retries →
    (∀ a ∈ failed ++ [last], FailedRead s.cfg cc (4 * w.toNat) a) →
    s.env = ms ++ rest → answered ms ⟨s.ptRx, s.crRx⟩ ((failed ++ [last]).flatMap Attempt.calls) = some ⟨pt, cr⟩ →
    exec (.ptReadwords cc w) s = .next { s with
      pt := { s.pt with
        phase := .idle, crc := last.crc, attempts := s.cfg.retries + 1, rxcrc := rxcrcAfter s.pt.rxcrc (failed ++ [last])
        data := { s.pt.data with held := .failed }
        ok := false, err := last.err.code }
      ret := some ⟨.pt, false, last.err.code, .none⟩
      hist := s.hist ++ (failed ++ [last]).flatMap Attempt.calls
      ptRx := pt
      crRx := cr
      env := rest }

/-- PT.READBYTEPAIR: after at most RETRIES failed attempts an intact response, whenever it arrives, gives the pair, its two bytes in
arrival order; when RETRIES + 1 attempts fail, that many are made and the operation ends with the class of the last failure,
`pt_pair` without a value (R132, R135; 30_encoding.md R104). -/
def Obligations.ReadBytePairDeliversIntactResponse : Prop :=
  ∀ (s : State) (cc : Byte) (failed : List Attempt) (pt cr : List Byte) (ms rest : List EnvMove),
    s.busy = none → (∀ a ∈ failed, FailedRead s.cfg cc 2 a) → s.env = ms ++ rest →
    (∀ p0 p1 h l : Byte, failed.length ≤ s.cfg.retries →
      word16 h l = crc16 s.cfg.poly s.cfg.crcInit [s.cfg.address, cc, p0, p1] →
      answered ms ⟨s.ptRx, s.crRx⟩ (failed.flatMap Attempt.calls ++ writes .pt [s.cfg.address, cc] ++
        reads .pt [p0, p1, h, l]) = some ⟨pt, cr⟩ →
      exec (.ptReadbytepair cc) s = .next { s with
        pt := { s.pt with
          phase := .idle, crc := word16 h l, attempts := failed.length + 1, rxcrc := ⟨word16 h l, .written⟩
          pair := ⟨(p0, p1), .written⟩, ok := true, err := 0 }
        ret := some ⟨.pt, true, 0, .pair p0 p1⟩
        hist := s.hist ++ failed.flatMap Attempt.calls ++ writes .pt [s.cfg.address, cc] ++ reads .pt [p0, p1, h, l]
        ptRx := pt
        crRx := cr
        env := rest }) ∧
    ∀ last : Attempt, failed.length = s.cfg.retries → FailedRead s.cfg cc 2 last →
      answered ms ⟨s.ptRx, s.crRx⟩ ((failed ++ [last]).flatMap Attempt.calls) = some ⟨pt, cr⟩ →
      exec (.ptReadbytepair cc) s = .next { s with
        pt := { s.pt with
          phase := .idle, crc := last.crc, attempts := s.cfg.retries + 1, rxcrc := rxcrcAfter s.pt.rxcrc (failed ++ [last])
          pair := { s.pt.pair with held := .failed }
          ok := false, err := last.err.code }
        ret := some ⟨.pt, false, last.err.code, .none⟩
        hist := s.hist ++ (failed ++ [last]).flatMap Attempt.calls
        ptRx := pt
        crRx := cr
        env := rest }

/-- PT.VERIFYID with the frame written: any byte, there already or arriving during the bounded wait, is taken and confirms; a silent
peer gives DeviceUnavailable after one attempt; an IOFail of the read after the wait is CommunicationFailure (R136, 60
R243). -/
def Obligations.VerifyIdentityIsALivenessCheck : Prop :=
  ∀ (s : State) (frame pt cr : List Byte) (ms rest : List EnvMove), s.busy = none →
    frame = s.cfg.verifyBytes ++ bytes16 (crc16 s.cfg.poly s.cfg.crcInit s.cfg.verifyBytes) → s.env = ms ++ rest →
    (∀ b : Byte,
      answered ms ⟨s.ptRx, s.crRx⟩ (writes .pt frame ++
        [.waitByte .pt s.cfg.verifyTimeoutMs true, .read .pt (some b)]) = some ⟨pt, cr⟩ →
      exec .ptVerifyid s = .next { s with
        pt := { s.pt with
          phase := .idle, crc := crc16 s.cfg.poly s.cfg.crcInit s.cfg.verifyBytes, attempts := 1, ok := true, err := 0 }
        ret := some ⟨.pt, true, 0, .none⟩
        hist := s.hist ++ writes .pt frame ++ [.waitByte .pt s.cfg.verifyTimeoutMs true, .read .pt (some b)]
        ptRx := pt
        crRx := cr
        env := rest }) ∧
    (answered ms ⟨s.ptRx, s.crRx⟩ (writes .pt frame ++ [.waitByte .pt s.cfg.verifyTimeoutMs false]) = some ⟨pt, cr⟩ →
      exec .ptVerifyid s = .next { s with
        pt := { s.pt with
          phase := .idle, crc := crc16 s.cfg.poly s.cfg.crcInit s.cfg.verifyBytes, attempts := 1, ok := false, err := 3 }
        ret := some ⟨.pt, false, 3, .none⟩
        hist := s.hist ++ writes .pt frame ++ [.waitByte .pt s.cfg.verifyTimeoutMs false]
        ptRx := pt
        crRx := cr
        env := rest }) ∧
    (answered ms ⟨s.ptRx, s.crRx⟩ (writes .pt frame ++
        [.waitByte .pt s.cfg.verifyTimeoutMs true, .read .pt none]) = some ⟨pt, cr⟩ →
      exec .ptVerifyid s = .next { s with
        pt := { s.pt with
          phase := .idle, crc := crc16 s.cfg.poly s.cfg.crcInit s.cfg.verifyBytes, attempts := 1, ok := false, err := 1 }
        ret := some ⟨.pt, false, 1, .none⟩
        hist := s.hist ++ writes .pt frame ++ [.waitByte .pt s.cfg.verifyTimeoutMs true, .read .pt none]
        ptRx := pt
        crRx := cr
        env := rest })

/-- PT.VERIFYID whose write of some byte fails ends there with CommunicationFailure: no wait, no retry (R136, PT-14). -/
def Obligations.VerifyIdentityIsNotRetried : Prop :=
  ∀ (s : State) (frame pt cr : List Byte) (k : Nat) (b : Byte) (ms rest : List EnvMove), s.busy = none →
    frame = s.cfg.verifyBytes ++ bytes16 (crc16 s.cfg.poly s.cfg.crcInit s.cfg.verifyBytes) → frame[k]? = some b →
    s.env = ms ++ rest →
    answered ms ⟨s.ptRx, s.crRx⟩ (writes .pt (frame.take k) ++ [.write .pt b false]) = some ⟨pt, cr⟩ →
    exec .ptVerifyid s = .next { s with
      pt := { s.pt with
        phase := .idle, crc := crc16 s.cfg.poly s.cfg.crcInit s.cfg.verifyBytes, attempts := 1, ok := false, err := 1 }
      ret := some ⟨.pt, false, 1, .none⟩
      hist := s.hist ++ writes .pt (frame.take k) ++ [.write .pt b false]
      ptRx := pt
      crRx := cr
      env := rest }

/-! ### CR -/

/-- CR.WRITECMD puts its one byte on the wire and reads nothing; a failed write is CommunicationFailure (R160). -/
def Obligations.WriteCommand : Prop :=
  ∀ (s : State) (type : Byte) (ok : Bool) (pt cr : List Byte) (ms rest : List EnvMove), s.busy = none →
    s.env = ms ++ rest → answered ms ⟨s.ptRx, s.crRx⟩ [.write .cr type ok] = some ⟨pt, cr⟩ →
    exec (.crWritecmd type) s = .next { s with
      cr := { s.cr with phase := .idle, ok := ok, err := if ok = true then 0 else 1 }
      ret := some ⟨.cr, ok, if ok = true then 0 else 1, .none⟩
      hist := s.hist ++ [.write .cr type ok]
      ptRx := pt
      crRx := cr
      env := rest }

/-- CR.WRITECMDP sends type, parameter high byte, parameter low byte; at the first failing write it ends with
CommunicationFailure and what was written stays written (R161). -/
def Obligations.WriteCommandWithParameter : Prop :=
  ∀ (s : State) (type : Byte) (param : BitVec 16) (pt cr : List Byte) (ms rest : List EnvMove), s.busy = none →
    s.env = ms ++ rest →
    (answered ms ⟨s.ptRx, s.crRx⟩ (writes .cr [type, param.extractLsb' 8 8, param.extractLsb' 0 8]) = some ⟨pt, cr⟩ →
      exec (.crWritecmdp type param) s = .next { s with
        cr := { s.cr with phase := .idle, ok := true, err := 0 }
        ret := some ⟨.cr, true, 0, .none⟩
        hist := s.hist ++ writes .cr [type, param.extractLsb' 8 8, param.extractLsb' 0 8]
        ptRx := pt
        crRx := cr
        env := rest }) ∧
    ∀ (k : Nat) (b : Byte), [type, param.extractLsb' 8 8, param.extractLsb' 0 8][k]? = some b →
      answered ms ⟨s.ptRx, s.crRx⟩ (writes .cr ([type, param.extractLsb' 8 8, param.extractLsb' 0 8].take k) ++
        [.write .cr b false]) = some ⟨pt, cr⟩ →
      exec (.crWritecmdp type param) s = .next { s with
        cr := { s.cr with phase := .idle, ok := false, err := 1 }
        ret := some ⟨.cr, false, 1, .none⟩
        hist := s.hist ++ writes .cr ([type, param.extractLsb' 8 8, param.extractLsb' 0 8].take k) ++ [.write .cr b false]
        ptRx := pt
        crRx := cr
        env := rest }

/-- CR.READWORD takes exactly two bytes, there already or arriving while it waits, most significant first, as a signed word: the
value lies in -32768 to 32767 and is `256 * b0 + b1` read as two's complement. A failing read is CommunicationFailure and leaves
`cr_word`, whatever bytes are there, none included; a byte read before it is gone, the only one there too (R162; 30_encoding.md
R111). -/
def Obligations.ReadWord : Prop :=
  ∀ (s : State) (pt cr : List Byte) (ms rest : List EnvMove), s.busy = none → s.env = ms ++ rest →
    (∀ b0 b1 : Byte, answered ms ⟨s.ptRx, s.crRx⟩ (reads .cr [b0, b1]) = some ⟨pt, cr⟩ →
      ∃ w : BitVec 16, w.toInt = (256 * b0.toNat + b1.toNat : Int) - (if 128 ≤ b0.toNat then 65536 else 0) ∧
      exec .crReadword s = .next { s with
        cr := { s.cr with phase := .idle, word := ⟨w, .written⟩, ok := true, err := 0 }
        ret := some ⟨.cr, true, 0, .word w⟩
        hist := s.hist ++ reads .cr [b0, b1]
        ptRx := pt
        crRx := cr
        env := rest }) ∧
    ∀ took : List Byte, took.length < 2 →
      answered ms ⟨s.ptRx, s.crRx⟩ (reads .cr took ++ [.read .cr none]) = some ⟨pt, cr⟩ →
      exec .crReadword s = .next { s with
        cr := { s.cr with phase := .idle, ok := false, err := 1 }
        ret := some ⟨.cr, false, 1, .none⟩
        hist := s.hist ++ reads .cr took ++ [.read .cr none]
        ptRx := pt
        crRx := cr
        env := rest }

/-- CR.READWORDSN for every `n`: the words of the next `2 * n` bytes, there already or arriving while it waits, two bytes each, high
byte first, the last one in `cr_word` too; none for `n = 0`. A read that fails before the last byte is CommunicationFailure: the
bytes read are gone, `cr_data` holds no value, and `cr_word` is the last whole word, if there was one (R163, 10_state.md R22). -/
def Obligations.ReadWordsNDeliversWords : Prop :=
  ∀ (s : State) (n : BitVec 16) (bytes pt cr : List Byte) (ms rest : List EnvMove),
    s.busy = none → s.env = ms ++ rest →
    (bytes.length = 2 * n.toNat → answered ms ⟨s.ptRx, s.crRx⟩ (reads .cr bytes) = some ⟨pt, cr⟩ →
      exec (.crReadwordsn n) s = .next { s with
        cr := { s.cr with
          phase := .idle
          word := if n = 0 then s.cr.word else ⟨(bigEndian16 n.toNat bytes).getLastD 0, .written⟩
          data := ⟨bigEndian16 n.toNat bytes, .written⟩
          ok := true, err := 0 }
        ret := some ⟨.cr, true, 0, .wordList (bigEndian16 n.toNat bytes)⟩
        hist := s.hist ++ reads .cr bytes
        ptRx := pt
        crRx := cr
        env := rest }) ∧
    (bytes.length < 2 * n.toNat →
      answered ms ⟨s.ptRx, s.crRx⟩ (reads .cr bytes ++ [.read .cr none]) = some ⟨pt, cr⟩ →
      exec (.crReadwordsn n) s = .next { s with
        cr := { s.cr with
          phase := .idle
          word := if bytes.length < 2 then s.cr.word else ⟨(bigEndian16 (bytes.length / 2) bytes).getLastD 0, .written⟩
          data := { s.cr.data with held := .failed }
          ok := false, err := 1 }
        ret := some ⟨.cr, false, 1, .none⟩
        hist := s.hist ++ reads .cr bytes ++ [.read .cr none]
        ptRx := pt
        crRx := cr
        env := rest })

/-- CR.IDCHECK: the command, the fixed wait, one availability test, then the word and its comparison with DEVICE_ID; a
different word is no error. The answer may arrive during the wait. With fewer than two bytes there at the test it is
DeviceUnavailable and nothing is read; a write or a read that fails is CommunicationFailure (R164, 60 R243). The wait, which
always completes (00_scope.md R18), takes no answer (log 11). -/
def Obligations.IdentityCheck : Prop :=
  ∀ (s : State) (n : Nat) (pt cr : List Byte) (ms rest : List EnvMove), s.busy = none → s.env = ms ++ rest →
    (∀ b0 b1 : Byte, 2 ≤ n →
      answered ms ⟨s.ptRx, s.crRx⟩ (writes .cr [s.cfg.idCmd] ++ .avail .cr n :: reads .cr [b0, b1]) = some ⟨pt, cr⟩ →
      exec .crIdcheck s = .next { s with
        cr := { s.cr with
          phase := .idle, word := ⟨b0 ++ b1, .written⟩, matched := decide (b0 ++ b1 = s.cfg.deviceId), ok := true, err := 0 }
        ret := some ⟨.cr, true, 0, .bool (decide (b0 ++ b1 = s.cfg.deviceId))⟩
        hist := s.hist ++ writes .cr [s.cfg.idCmd] ++ .delay s.cfg.idWaitMs :: .avail .cr n :: reads .cr [b0, b1]
        ptRx := pt
        crRx := cr
        env := rest }) ∧
    (∀ took : List Byte, took.length < 2 → 2 ≤ n →
      answered ms ⟨s.ptRx, s.crRx⟩ (writes .cr [s.cfg.idCmd] ++ .avail .cr n :: reads .cr took ++ [.read .cr none]) =
        some ⟨pt, cr⟩ →
      exec .crIdcheck s = .next { s with
        cr := { s.cr with phase := .idle, ok := false, err := 1 }
        ret := some ⟨.cr, false, 1, .none⟩
        hist := s.hist ++ writes .cr [s.cfg.idCmd] ++ .delay s.cfg.idWaitMs :: .avail .cr n :: reads .cr took ++
          [.read .cr none]
        ptRx := pt
        crRx := cr
        env := rest }) ∧
    (n < 2 → answered ms ⟨s.ptRx, s.crRx⟩ (writes .cr [s.cfg.idCmd] ++ [.avail .cr n]) = some ⟨pt, cr⟩ →
      exec .crIdcheck s = .next { s with
        cr := { s.cr with phase := .idle, ok := false, err := 3 }
        ret := some ⟨.cr, false, 3, .none⟩
        hist := s.hist ++ writes .cr [s.cfg.idCmd] ++ [.delay s.cfg.idWaitMs, .avail .cr n]
        ptRx := pt
        crRx := cr
        env := rest }) ∧
    (answered ms ⟨s.ptRx, s.crRx⟩ [.write .cr s.cfg.idCmd false] = some ⟨pt, cr⟩ →
      exec .crIdcheck s = .next { s with
        cr := { s.cr with phase := .idle, ok := false, err := 1 }
        ret := some ⟨.cr, false, 1, .none⟩
        hist := s.hist ++ [.write .cr s.cfg.idCmd false]
        ptRx := pt
        crRx := cr
        env := rest })

/-- CR.ISTASKDONE: with a word there it is consumed, exactly one, and the answer is done, whatever its value; a read of it that
fails is CommunicationFailure; with fewer than two bytes and no wait the answer is not-done at once and nothing is read
(R165). With `wait` it polls, each test that finds fewer than two bytes followed by a POLL_MS delay (which takes no answer,
log 11), however many tests there are and whatever each finds (`polls`), and when two bytes are there it consumes the word and
reports done (95_test_vectors.md CR-11c). -/
def Obligations.IsTaskDoneAnswers : Prop :=
  ∀ (s : State) (wait : Bool) (polls : List Nat) (n : Nat) (pt cr : List Byte) (ms rest : List EnvMove),
    s.busy = none → s.env = ms ++ rest → (∀ k ∈ polls, k < 2) → (wait = false → polls = []) →
    (∀ b0 b1 : Byte, 2 ≤ n →
      answered ms ⟨s.ptRx, s.crRx⟩ (polls.map (.avail .cr) ++ .avail .cr n :: reads .cr [b0, b1]) = some ⟨pt, cr⟩ →
      exec (.crIstaskdone wait) s = .next { s with
        cr := { s.cr with phase := .idle, word := ⟨b0 ++ b1, .written⟩, done := true, ok := true, err := 0 }
        ret := some ⟨.cr, true, 0, .bool true⟩
        hist := s.hist ++ polls.flatMap (fun k => [.avail .cr k, .delay s.cfg.pollMs]) ++
          .avail .cr n :: reads .cr [b0, b1]
        ptRx := pt
        crRx := cr
        env := rest }) ∧
    (∀ took : List Byte, took.length < 2 → 2 ≤ n →
      answered ms ⟨s.ptRx, s.crRx⟩ (polls.map (.avail .cr) ++ .avail .cr n :: reads .cr took ++ [.read .cr none]) =
        some ⟨pt, cr⟩ →
      exec (.crIstaskdone wait) s = .next { s with
        cr := { s.cr with phase := .idle, ok := false, err := 1 }
        ret := some ⟨.cr, false, 1, .none⟩
        hist := s.hist ++ polls.flatMap (fun k => [.avail .cr k, .delay s.cfg.pollMs]) ++
          .avail .cr n :: reads .cr took ++ [.read .cr none]
        ptRx := pt
        crRx := cr
        env := rest }) ∧
    (wait = false → n < 2 → answered ms ⟨s.ptRx, s.crRx⟩ [.avail .cr n] = some ⟨pt, cr⟩ →
      exec (.crIstaskdone wait) s = .next { s with
        cr := { s.cr with phase := .idle, done := false, ok := true, err := 0 }
        ret := some ⟨.cr, true, 0, .bool false⟩
        hist := s.hist ++ [.avail .cr n]
        ptRx := pt
        crRx := cr
        env := rest })

/-- CR.ISTASKDONE with `wait` whose peer never has two bytes there at a test never returns, however many answers the environment
gives: each answered availability test is followed by a POLL_MS delay, which needs no answer (log 11), and by the next test,
and nothing is read; the operation in progress is the one issued, with no byte and no word taken (R165 corner cases (c) and
(d), 20_memory.md R86). The phase is Poll from the start, before the first test too (`polls = []`), where 10_state.md R29 has
Poll between two polls: that is the model's (log 15, DEDUCED). -/
def Obligations.WaitingPollNeverReturnsAlone : Prop :=
  ∀ (s : State) (polls : List Nat) (pt cr : List Byte), s.busy = none → (∀ k ∈ polls, k < 2) →
    answered s.env ⟨s.ptRx, s.crRx⟩ (polls.map (.avail .cr)) = some ⟨pt, cr⟩ →
    exec (.crIstaskdone true) s = .next { s with
      cr := { s.cr with phase := .poll }
      busy := some (.cr ⟨.taskDone true, 0, [], false⟩)
      hist := s.hist ++ polls.flatMap (fun k => [.avail .cr k, .delay s.cfg.pollMs])
      ptRx := pt
      crRx := cr
      env := [] }

/-- CR.SCANRETR whose first word is SCAN_FAIL: ProtocolFault, the word is left in `cr_word`, `cr_data` holds no value, and no
payload byte is read (R166, 60 R244). -/
def Obligations.ScanRetrievalRefusesSentinel : Prop :=
  ∀ (s : State) (b0 b1 : Byte) (pt cr : List Byte) (ms rest : List EnvMove),
    s.busy = none → b0 ++ b1 = s.cfg.scanFail → s.env = ms ++ rest →
    answered ms ⟨s.ptRx, s.crRx⟩ (writes .cr [s.cfg.retrieveCmd] ++ reads .cr [b0, b1]) = some ⟨pt, cr⟩ →
    exec .crScanretr s = .next { s with
      cr := { s.cr with
        phase := .idle, word := ⟨s.cfg.scanFail, .written⟩, data := { s.cr.data with held := .failed }, ok := false, err := 4 }
      ret := some ⟨.cr, false, 4, .none⟩
      hist := s.hist ++ writes .cr [s.cfg.retrieveCmd] ++ reads .cr [b0, b1]
      ptRx := pt
      crRx := cr
      env := rest }

/-- CR.SCANRETR with any other status, negative ones included: SCAN_WORDS words follow, whenever they arrive, and the status is not
part of them. A write or a read that fails is CommunicationFailure: the bytes read are gone, `cr_data` holds no value, and
`cr_word` is the last whole word, the status word among them, if there was one (R166, 10_state.md R22). -/
def Obligations.ScanRetrievalDeliversPayload : Prop :=
  ∀ (s : State) (pt cr : List Byte) (ms rest : List EnvMove), s.busy = none → s.env = ms ++ rest →
    (∀ (b0 b1 : Byte) (bytes : List Byte), b0 ++ b1 ≠ s.cfg.scanFail → bytes.length = 2 * s.cfg.scanWords →
      answered ms ⟨s.ptRx, s.crRx⟩ (writes .cr [s.cfg.retrieveCmd] ++ reads .cr (b0 :: b1 :: bytes)) = some ⟨pt, cr⟩ →
      exec .crScanretr s = .next { s with
        cr := { s.cr with
          phase := .idle, word := ⟨(bigEndian16 s.cfg.scanWords bytes).getLastD (b0 ++ b1), .written⟩
          data := ⟨bigEndian16 s.cfg.scanWords bytes, .written⟩, ok := true, err := 0 }
        ret := some ⟨.cr, true, 0, .wordList (bigEndian16 s.cfg.scanWords bytes)⟩
        hist := s.hist ++ writes .cr [s.cfg.retrieveCmd] ++ reads .cr (b0 :: b1 :: bytes)
        ptRx := pt
        crRx := cr
        env := rest }) ∧
    (∀ bytes : List Byte, bytes.length < 2 + 2 * s.cfg.scanWords →
      (∀ b0 b1 tail, bytes = b0 :: b1 :: tail → b0 ++ b1 ≠ s.cfg.scanFail) →
      answered ms ⟨s.ptRx, s.crRx⟩ (writes .cr [s.cfg.retrieveCmd] ++ reads .cr bytes ++ [.read .cr none]) =
        some ⟨pt, cr⟩ →
      exec .crScanretr s = .next { s with
        cr := { s.cr with
          phase := .idle
          word := if bytes.length < 2 then s.cr.word else ⟨(bigEndian16 (bytes.length / 2) bytes).getLastD 0, .written⟩
          data := { s.cr.data with held := .failed }, ok := false, err := 1 }
        ret := some ⟨.cr, false, 1, .none⟩
        hist := s.hist ++ writes .cr [s.cfg.retrieveCmd] ++ reads .cr bytes ++ [.read .cr none]
        ptRx := pt
        crRx := cr
        env := rest }) ∧
    (answered ms ⟨s.ptRx, s.crRx⟩ [.write .cr s.cfg.retrieveCmd false] = some ⟨pt, cr⟩ →
      exec .crScanretr s = .next { s with
        cr := { s.cr with phase := .idle, data := { s.cr.data with held := .failed }, ok := false, err := 1 }
        ret := some ⟨.cr, false, 1, .none⟩
        hist := s.hist ++ [.write .cr s.cfg.retrieveCmd false]
        ptRx := pt
        crRx := cr
        env := rest })

/-! ### SP -/

/-- The primitives of the bounded queue (00_scope.md R13): a push on a full queue drops the new element, sets `sp_ovr` and emits
QueueOverrun, any other push appends at the tail; a pop has a step only when the queue is not empty, and removes and
returns the head; the clearing of an activation removes every element. That a pop without a step is a step to the same state is
the model's (log 4, DEDUCED). -/
def Obligations.BoundedQueue : Prop :=
  ∀ (s : State) (e : QElem),
    (s.cfg.qCap ≤ s.sp.q.length → qPush e s = { s with
      sp := { s.sp with ovr := true }, hist := s.hist ++ [.emit .queueOverrun] }) ∧
    (s.sp.q.length < s.cfg.qCap → qPush e s = { s with sp := { s.sp with q := s.sp.q ++ [e] } }) ∧
    (s.sp.q = [] → spTake s = s) ∧
    (∀ x rest, s.sp.q = x :: rest → (spTake s).sp.q = rest ∧ (spTake s).ret = some ⟨.sp, true, 0, .elem x⟩) ∧
    ∀ m, (spActivated m s.sp).q = []

/-- SP.ACTIVATE (R182): accepted, in mode Raw or Cal or with a valid offset, it clears the queue, `sp_ovr` and the timestamp
reference, in mode Cal the sums, the count and the validity, in mode Heading the angle; otherwise InvalidStateError with no
state changed. -/
def Obligations.Activation : Prop :=
  ∀ (s : State) (m : Mode), s.busy = none →
    (m = .raw ∨ m = .cal ∨ s.sp.offsetValid = true →
      exec (.spActivate m) s = .next { s with
        sp := { s.sp with
          active := true, mode := m, q := [], ovr := false, lastTs := 0, ok := true, err := 0
          sum := if m = .cal then List.replicate s.cfg.nAxes 0 else s.sp.sum
          count := if m = .cal then 0 else s.sp.count
          offsetValid := if m = .cal then false else s.sp.offsetValid
          angle := if m = .heading then F.zero else s.sp.angle }
        ret := some ⟨.sp, true, 0, .none⟩ }) ∧
    ((m = .offset ∨ m = .deadZone ∨ m = .heading) → s.sp.offsetValid = false →
      exec (.spActivate m) s = .next { s with
        sp := { s.sp with ok := false, err := 6 }, ret := some ⟨.sp, false, 6, .none⟩ })

/-- SP.DEACTIVATE, opcode 0x21 without operands: it clears the active flag and keeps everything else, the queue, the mode, the
sums, the offsets and the angle included; an element queued before can still be popped; it is idempotent, and every later
interrupt is without effect (R183). -/
def Obligations.Deactivation : Prop :=
  (∀ (fl : FLen) (rest : List Byte), decode fl (0x21 :: rest) = .ok (.spDeactivate, rest)) ∧
  ∀ s : State, s.busy = none →
    ∃ t, t = { s with
        sp := { s.sp with active := false, ok := true, err := 0 }, ret := some ⟨.sp, true, 0, .none⟩ } ∧
      exec .spDeactivate s = .next t ∧ exec .spDeactivate t = .next t ∧
      (∀ (e : QElem) (q : List QElem), s.sp.q = e :: q →
        exec .spPop t = .next { t with sp := { t.sp with q := q }, ret := some ⟨.sp, true, 0, .elem e⟩ }) ∧
      ∀ (ts : BitVec 64) (raw : List (BitVec 32)), spIrq ts raw t = .next t

/-- SP.CALEND (R184): refused with nothing changed unless the unit is calibrating; then the unit is deactivated, and either no
sample was accumulated and it is InvalidStateError, which leaves `sp_offset` without a value (10_state.md R25; log 12), or each
offset is the sum over the number of accumulated samples. -/
def Obligations.CalibrationEnd : Prop :=
  ∀ s : State, s.busy = none →
    (s.sp.active = false ∨ s.sp.mode ≠ .cal →
      exec .spCalend s = .next { s with
        sp := { s.sp with ok := false, err := 6 }, ret := some ⟨.sp, false, 6, .none⟩ }) ∧
    (s.sp.active = true → s.sp.mode = .cal →
      (s.sp.count.toNat ≤ s.cfg.discard →
        exec .spCalend s = .next { s with
          sp := { s.sp with active := false, offset := { s.sp.offset with held := .failed }, ok := false, err := 6 }
          ret := some ⟨.sp, false, 6, .none⟩ }) ∧
      (s.cfg.discard < s.sp.count.toNat →
        ∃ off : List F, off.length = s.cfg.nAxes ∧
          (∀ a, a < s.cfg.nAxes → off[a]? = some (fDiv s.cfg.flen (fOfInt s.cfg.flen (s.sp.sum.getD a 0).toInt)
            (fOfInt s.cfg.flen (s.sp.count.toNat - s.cfg.discard : Nat)))) ∧
          exec .spCalend s = .next { s with
            sp := { s.sp with active := false, offset := ⟨off, .written⟩, offsetValid := true, ok := true, err := 0 }
            ret := some ⟨.sp, true, 0, .none⟩ }))

/-- SP.POP and SP.POPT with an element queued return the oldest one and leave the rest in order; SP.POPT on an empty queue returns
DeviceUnavailable when the environment lets the time pass (R185, R186; 93 U19). -/
def Obligations.PopReturnsOldest : Prop :=
  ∀ (s : State) (ms : BitVec 32), s.busy = none →
    (∀ (e : QElem) (q : List QElem), s.sp.q = e :: q → ∀ i : Instr, i = .spPop ∨ i = .spPopt ms →
      exec i s = .next { s with
        sp := { s.sp with q := q, ok := true, err := 0 }, ret := some ⟨.sp, true, 0, .elem e⟩ }) ∧
    (∀ (moves rest : List EnvMove) (pt cr : List Byte), s.sp.q = [] → s.env = moves ++ rest →
      answered moves ⟨s.ptRx, s.crRx⟩ [.popTimeout ms] = some ⟨pt, cr⟩ →
      exec (.spPopt ms) s = .next { s with
        sp := { s.sp with ok := false, err := 3 }, ret := some ⟨.sp, false, 3, .none⟩
        hist := s.hist ++ [.popTimeout ms], ptRx := pt, crRx := cr, env := rest })

/-- SP.POP on an empty queue waits, and so does SP.POPT until the environment lets the time pass; a later push completes them: the
host's next turn returns the pushed element (R185 corner case (a), R186; 20_memory.md R86). That turn is the host's by its entry
in the schedule, or by an empty schedule, which is the DESIGN CHOICE of log 3. -/
def Obligations.PopWaitsForAPush : Prop :=
  (∀ s : State, s.busy = none → s.sp.q = [] →
    exec .spPop s = .next { s with busy := some .pop } ∧
    ∀ (ms : BitVec 32) (n : Nat), s.env = proceeds n →
      exec (.spPopt ms) s = .next { s with busy := some (.popt ms), env := [] }) ∧
  ∀ (u : State) (e : QElem) (q : List QElem) (es : List Event), legalConfig u.cfg = true →
    u.busy = some .pop ∨ (∃ ms, u.busy = some (.popt ms)) → HostTurns 1 u es →
    u.sp.q = e :: q → step u = .next { u with
      busy := none, sp := { u.sp with q := q, ok := true, err := 0 }, ret := some ⟨.sp, true, 0, .elem e⟩, sched := es }

/-- An interrupt of an inactive unit is ignored: no bus read, no state change (R187). -/
def Obligations.InactiveHandlerIgnores : Prop :=
  ∀ (s : State) (ts : BitVec 64) (raw : List (BitVec 32)) (es : List Event),
    legalConfig s.cfg = true → s.sched = .irq ts raw :: es → s.sp.active = false →
    step s = .next { s with sched := es }

/-- An interrupt in modes Raw, Offset and DeadZone (R188, R190, R191, R193, R196): one bus read; the sample's delta is
`ts - sp_last_ts` modulo 2^64 and the reference becomes `ts` whether or not the push is dropped, as R188 (b) says; a full
queue drops the new element, sets `sp_ovr` and emits QueueOverrun. So overflow loses the newest samples (70 R301): of a row of
interrupts with no pop between them the first that fit are queued, the others dropped, and the deltas of those queued sum to the
time from the reference to the last of them. The interval of a sample dropped before a later one is accepted is in no delta, by
R188 (b), where R301's words count it (the DESIGN CHOICE of log 26). The answer of the bus read, here and in the other modes, is
a vector of NAXES signed readings of RAWW bits (R12, R181); that an event's list stands for its first NAXES entries, 0 where it
has none, is the DESIGN CHOICE of log 9. -/
def Obligations.SamplingModes : Prop :=
  (∀ (c : Config) (raw : List (BitVec 32)), (busVector c raw).length = c.nAxes ∧ ∀ a, a < c.nAxes →
    ∃ v, (busVector c raw)[a]? = some v ∧
      (c.raww = .w32 → v = raw.getD a 0) ∧
      (c.raww = .w16 → v.toInt = ((raw.getD a 0).toNat % 65536 : Int) -
        if 32768 ≤ (raw.getD a 0).toNat % 65536 then 65536 else 0)) ∧
  (∀ (s : State) (ts : BitVec 64) (raw : List (BitVec 32)) (value : SampleValue),
    s.sp.active = true →
    (s.sp.mode = .raw ∧ value = .raw (busVector s.cfg raw) ∨
      s.sp.mode = .offset ∧
        value = .float ((List.range s.cfg.nAxes).map fun a =>
          fSub s.cfg.flen (fOfInt s.cfg.flen ((busVector s.cfg raw).getD a 0).toInt) (s.sp.offset.val.getD a F.zero)) ∨
      s.sp.mode = .deadZone ∧
        value = .float ((List.range s.cfg.nAxes).map fun a => clamp s.cfg
          (fSub s.cfg.flen (fOfInt s.cfg.flen ((busVector s.cfg raw).getD a 0).toInt) (s.sp.offset.val.getD a F.zero)))) →
    (s.sp.q.length < s.cfg.qCap →
      spIrq ts raw s = .next { s with
        sp := { s.sp with lastTs := ts, q := s.sp.q ++ [.sample value (ts - s.sp.lastTs)] }
        hist := s.hist ++ [.busRead (busVector s.cfg raw)] }) ∧
    (s.cfg.qCap ≤ s.sp.q.length →
      spIrq ts raw s = .next { s with
        sp := { s.sp with lastTs := ts, ovr := true }
        hist := s.hist ++ [.busRead (busVector s.cfg raw), .emit .queueOverrun] })) ∧
  ∀ (s : State) (irqs : List (BitVec 64 × List (BitVec 32))) (es : List Event),
    legalConfig s.cfg = true → s.sp.active = true → s.sp.mode = .raw ∨ s.sp.mode = .offset ∨ s.sp.mode = .deadZone →
    s.sched = irqs.map (fun i => .irq i.1 i.2) ++ es →
    ∃ (t : State) (new : List QElem), Host.Core.run core irqs.length s = .next t ∧ t.sched = es ∧
      t.sp.q = s.sp.q ++ new ∧ new.length = min irqs.length (s.cfg.qCap - s.sp.q.length) ∧
      t.sp.ovr = (s.sp.ovr || decide (s.cfg.qCap - s.sp.q.length < irqs.length)) ∧
      t.sp.lastTs = (irqs.map Prod.fst).getLastD s.sp.lastTs ∧
      (new.map deltaOf).foldl (· + ·) 0 = ((irqs.take new.length).map Prod.fst).getLastD s.sp.lastTs - s.sp.lastTs

/-- An interrupt in mode Heading (R192): three float operations on the clamped, corrected reading of axis HAXIS; the angle is
updated even when its push is dropped, and the timestamp reference is neither read nor written. -/
def Obligations.HeadingMode : Prop :=
  ∀ (s : State) (ts : BitVec 64) (raw : List (BitVec 32)) (z angle : F),
    s.sp.active = true → s.sp.mode = .heading →
    z = clamp s.cfg (fSub s.cfg.flen (fOfInt s.cfg.flen ((busVector s.cfg raw).getD s.cfg.hAxis 0).toInt)
      (s.sp.offset.val.getD s.cfg.hAxis F.zero)) →
    angle = fAdd s.cfg.flen s.sp.angle (fMul s.cfg.flen (fMul s.cfg.flen z s.cfg.sens)
      (fDiv s.cfg.flen (fOfInt s.cfg.flen 1) s.cfg.odr)) →
    (s.sp.q.length < s.cfg.qCap →
      spIrq ts raw s = .next { s with
        sp := { s.sp with angle := angle, q := s.sp.q ++ [.angle angle] }
        hist := s.hist ++ [.busRead (busVector s.cfg raw)] }) ∧
    (s.cfg.qCap ≤ s.sp.q.length →
      spIrq ts raw s = .next { s with
        sp := { s.sp with angle := angle, ovr := true }
        hist := s.hist ++ [.busRead (busVector s.cfg raw), .emit .queueOverrun] })

/-- An interrupt in mode Cal (R189): counted always, accumulated per axis only after the first DISCARD, nothing pushed, no
timestamp; a count past 2^32 - 1 is a fault (93 U9). -/
def Obligations.CalibrationMode : Prop :=
  ∀ (s : State) (ts : BitVec 64) (raw : List (BitVec 32)), s.sp.active = true → s.sp.mode = .cal →
    (s.sp.count.toNat < 2 ^ 32 - 1 →
      ∃ sum : List (BitVec 64),
        (s.sp.count.toNat < s.cfg.discard → sum = s.sp.sum) ∧
        (s.cfg.discard ≤ s.sp.count.toNat → sum.length = s.cfg.nAxes ∧ ∀ a, a < s.cfg.nAxes →
          sum[a]? = some (s.sp.sum.getD a 0 + ((busVector s.cfg raw).getD a 0).signExtend 64)) ∧
        spIrq ts raw s = .next { s with
          sp := { s.sp with sum := sum, count := s.sp.count + 1 }
          hist := s.hist ++ [.busRead (busVector s.cfg raw)] }) ∧
    (s.sp.count.toNat = 2 ^ 32 - 1 → spIrq ts raw s = .fault (.counterOverflow .spCount))

/-- The dead zone at DEAD_ZONE = 20 (R194): every integer from -20 to 20 becomes +0.0, every other integer passes unchanged, in both
formats and whatever its size; a NaN passes; and at every DEAD_ZONE a value is replaced by +0.0 or passes unchanged. -/
def Obligations.DeadZoneClampsToExactZero : Prop :=
  ∀ c : Config,
    (c.deadZone = fOfInt c.flen 20 → ∀ z : Int,
      (-20 ≤ z ∧ z ≤ 20 → clamp c (fOfInt c.flen z) = F.zero) ∧
      (z < -20 ∨ 20 < z → clamp c (fOfInt c.flen z) = fOfInt c.flen z)) ∧
    clamp c .nan = .nan ∧
    ∀ x : F, (fLe (fNeg c.deadZone) x = true ∧ fLe x c.deadZone = true → clamp c x = F.zero) ∧
      (fLe (fNeg c.deadZone) x = false ∨ fLe x c.deadZone = false → clamp c x = x)

/-- A quotient of integers that is a whole number is exact when both integers are below 2^prec: what makes the calibration of
R195 (1) exact. -/
def Obligations.ExactQuotientIsExact : Prop :=
  ∀ (fl : FLen) (v : Int) (n : Nat), 0 < n → n < 2 ^ fl.prec → (v * n).natAbs < 2 ^ fl.prec →
    fDiv fl (fOfInt fl (v * n)) (fOfInt fl n) = fOfInt fl v

/-- Calibration convergence (R195 (1)): from an activation in mode Cal, `n > DISCARD` interrupts with one constant reading and then
SP.CALEND give every axis the offset F(v) of its reading, exactly, when the count fits its register and the sum and the number
of accumulated samples are below 2^prec. That the host has both descriptors at hand, and that its turns are the entries of the
schedule, is the model's form of a host (log 21). -/
def Obligations.CalibrationConverges : Prop :=
  ∀ (s : State) (n : Nat) (ts : BitVec 64) (raw : List (BitVec 32)),
    legalConfig s.cfg = true → s.busy = none → s.host = [0x20, 0x01, 0x22] →
    s.sched = .host :: (List.replicate n (.irq ts raw) ++ [.host]) →
    s.cfg.discard < n → n < 2 ^ 32 → n - s.cfg.discard < 2 ^ s.cfg.flen.prec →
    (∀ v ∈ busVector s.cfg raw, (v.toInt * (n - s.cfg.discard : Nat)).natAbs < 2 ^ s.cfg.flen.prec) →
    ∃ t, Host.Core.run core (n + 2) s = .next t ∧ t.sp.active = false ∧ t.sp.offsetValid = true ∧ t.sp.count.toNat = n ∧
      t.sp.offset.val = (busVector s.cfg raw).map fun v => fOfInt s.cfg.flen v.toInt

/-! ### PG -/

/-- PG.RUN (R212). After a close it is InvalidStateError with nothing changed. Otherwise its first action stops the loop that turned
before, if there is one, and the settle delay is next; with the host moving alone the further actions, each a step of its own
(20_memory.md R82), bring the block to the direction register and output, the half-period of R211, target Infinite, no
callback, count 0, running, STEP on, `High(0)`. The second clause is each such action, of PG.STEPCOUNT too, at a host's turn in
any state and whatever is scheduled after it, so that another agent's step may fall between two; none waits for the
environment, the settle delay included (00_scope.md R18). The level that stopping a loop leaves on STEP is the free value, and its
counter goes on by one (93 U11; log 6); that an empty schedule is the host's turn is the DESIGN CHOICE of log 3. -/
def Obligations.RunStartsUnboundedLoop : Prop :=
  (∀ (s : State) (d : Dir) (v : FBits) (h : F) (fires : Bool) (op : LaunchOp),
    s.busy = none → legalSpeed s.cfg.flen v = true →
    h = fDiv s.cfg.flen (half s.cfg.flen)
      (fMul s.cfg.flen (fDiv s.cfg.flen (fOfBits v) (fOfInt s.cfg.flen 60)) s.cfg.microsteps) →
    fires = (s.cfg.stopFiresComplete && s.pg.target.counted && s.pg.cbEn) → op = ⟨d, h, .infinite, false, true, .delay⟩ →
    (s.pg.closed = true →
      exec (.pgRun d v) s = .next { s with
        pg := { s.pg with ok := false, err := 6 }, ret := some ⟨.pg, false, 6, .none⟩ }) ∧
    (s.pg.closed = false → s.pg.phase.hasLoop = false →
      exec (.pgRun d v) s = .next { s with pg := { s.pg with phase := .settling }, busy := some (.launch op) }) ∧
    (s.pg.closed = false → s.pg.phase.hasLoop = true →
      ∃ level : Bool, exec (.pgRun d v) s = .next { s with
        pg := { s.pg with
          phase := if fires then .noLoop else .settling, running := false, stepOut := level }
        busy := some (.launch { op with act := if fires then .emit else .delay })
        fresh := s.fresh + 1
        hist := s.hist ++ [.toggleStop] }) ∧
    (∀ es : List Event, s.pg.closed = false → legalConfig s.cfg = true →
      HostTurns (if s.pg.phase.hasLoop = true ∧ fires = true then 6 else 5) s es →
      ∃ t, exec (.pgRun d v) s = .next t ∧
        Host.Core.run core (if s.pg.phase.hasLoop = true ∧ fires = true then 6 else 5) t = .next { s with
          pg := { s.pg with
            phase := .high 0, dir := ⟨d, .written⟩, half := ⟨h, .written⟩, target := .infinite, count := 0, cbEn := false
            running := true, ok := true, err := 0, stepOut := true, dirOut := ⟨dirLevel s.cfg d, .written⟩ }
          ret := some ⟨.pg, true, 0, .none⟩
          fresh := if s.pg.phase.hasLoop = true then s.fresh + 1 else s.fresh
          hist := s.hist ++
            (if s.pg.phase.hasLoop = true then .toggleStop :: (if fires then [.emit .complete] else []) else []) ++
            [.delay s.cfg.settleMs, .dout .dir (dirLevel s.cfg d), .toggleStart h h none true false, .dout .step true]
          sched := es })) ∧
  ∀ (u : State) (op : LaunchOp) (es : List Event), legalConfig u.cfg = true → HostTurns 1 u es →
    u.busy = some (.launch op) →
    (op.act = .emit → step u = .next { u with
      pg := { u.pg with phase := .settling }, busy := some (.launch { op with act := .delay })
      hist := u.hist ++ [.emit .complete], sched := es }) ∧
    (op.act = .delay → step u = .next { u with
      busy := some (.launch { op with act := .dir }), hist := u.hist ++ [.delay u.cfg.settleMs], sched := es }) ∧
    (op.act = .dir → step u = .next { u with
      pg := { u.pg with dir := ⟨op.dir, .written⟩, dirOut := ⟨dirLevel u.cfg op.dir, .written⟩ }
      busy := some (.launch { op with act := .registers }), hist := u.hist ++ [.dout .dir (dirLevel u.cfg op.dir)]
      sched := es }) ∧
    (op.act = .registers → step u = .next { u with
      pg := { u.pg with half := ⟨op.half, .written⟩, target := op.target, cbEn := op.cbEn, count := 0, running := true }
      busy := some (.launch { op with act := .start }), sched := es }) ∧
    (op.act = .start → step u = .next { u with
      busy := some (.launch { op with act := .stepOn })
      hist := u.hist ++ [.toggleStart op.half op.half op.target.iterations op.background op.target.counted]
      sched := es }) ∧
    (op.act = .stepOn → step u = .next { u with
      pg := { u.pg with
        phase := .high 0, stepOut := true
        ok := if op.background then true else u.pg.ok, err := if op.background then 0 else u.pg.err }
      busy := if op.background then none else some .loopEnd
      ret := if op.background then some ⟨.pg, true, 0, .none⟩ else u.ret
      hist := u.hist ++ [.dout .step true], sched := es })

/-- PG.STEPCOUNT (R213): rejected with the running loop not disturbed while `pg_running` is set, and after a close; otherwise the
settle delay is next, and with the host moving alone the counted loop starts; the operation returns then in the background and
waits in the foreground. Its further actions, each a step of its own, are those of `RunStartsUnboundedLoop`; that an empty
schedule is the host's turn is the DESIGN CHOICE of log 3. -/
def Obligations.StepCountStartsCountedLoop : Prop :=
  ∀ (s : State) (n : BitVec 32) (d : Dir) (v : FBits) (bg cb : Bool) (h : F),
    s.busy = none → legalCount n = true → legalSpeed s.cfg.flen v = true →
    h = fDiv s.cfg.flen (half s.cfg.flen)
      (fMul s.cfg.flen (fDiv s.cfg.flen (fOfBits v) (fOfInt s.cfg.flen 60)) s.cfg.microsteps) →
    (s.pg.closed = true ∨ s.pg.running = true →
      exec (.pgStepcount n d v bg cb) s = .next { s with
        pg := { s.pg with ok := false, err := 6 }, ret := some ⟨.pg, false, 6, .none⟩ }) ∧
    (s.pg.closed = false → s.pg.running = false →
      ∃ t, t = { s with
          pg := { s.pg with phase := .settling }, busy := some (.launch ⟨d, h, .finite n, cb, bg, .delay⟩) } ∧
        exec (.pgStepcount n d v bg cb) s = .next t ∧
        (∀ es : List Event, legalConfig s.cfg = true → HostTurns 5 s es →
          Host.Core.run core 5 t = .next { s with
            pg := { s.pg with
              phase := .high 0, dir := ⟨d, .written⟩, half := ⟨h, .written⟩, target := .finite n, count := 0, cbEn := cb
              running := true, stepOut := true, dirOut := ⟨dirLevel s.cfg d, .written⟩
              ok := if bg then true else s.pg.ok, err := if bg then 0 else s.pg.err }
            busy := if bg then none else some .loopEnd
            ret := if bg then some ⟨.pg, true, 0, .none⟩ else s.ret
            hist := s.hist ++
              [.delay s.cfg.settleMs, .dout .dir (dirLevel s.cfg d), .toggleStart h h (some n) bg true, .dout .step true]
            sched := es }))

/-- PG.STOP (R214): with no loop it only clears the running flag; with one, the loop is stopped, the running flag cleared, the
registers kept, and Complete emitted only if STOP_FIRES_COMPLETE holds of a counted loop with a callback. The level left on
STEP is the free value (93 U11, log 6). -/
def Obligations.StopHaltsTheLoop : Prop :=
  ∀ s : State, s.busy = none →
    (s.pg.phase.hasLoop = false →
      exec .pgStop s = .next { s with
        pg := { s.pg with running := false, ok := true, err := 0 }, ret := some ⟨.pg, true, 0, .none⟩ }) ∧
    (s.pg.phase.hasLoop = true →
      ∃ level : Bool, exec .pgStop s = .next { s with
        pg := { s.pg with phase := .noLoop, running := false, stepOut := level, ok := true, err := 0 }
        ret := some ⟨.pg, true, 0, .none⟩
        fresh := s.fresh + 1
        hist := s.hist ++ .toggleStop ::
          (if s.cfg.stopFiresComplete && s.pg.target.counted && s.pg.cbEn then [.emit .complete] else []) })

/-- PG.GETSTEPCOUNT returns `pg_count`, which mirrors ToggleCycles(), in every phase, and changes nothing but the flags and the
history (R215). That it makes that call, once, is DEDUCED (log 25). -/
def Obligations.GetStepCountReturnsCount : Prop :=
  ∀ s : State, s.busy = none →
    exec .pgGetstepcount s = .next { s with
      pg := { s.pg with ok := true, err := 0 }, ret := some ⟨.pg, true, 0, .count s.pg.count⟩
      hist := s.hist ++ [.toggleCycles s.pg.count] }

/-- PG.CLOSE stops any loop and closes the unit; it is idempotent (R216). -/
def Obligations.CloseStopsAndCloses : Prop :=
  ∀ s : State, s.busy = none →
    ∃ t, exec .pgClose s = .next t ∧ t.busy = none ∧ t.ptRx = s.ptRx ∧ t.crRx = s.crRx ∧ t.env = s.env ∧
      t.ret = some ⟨.pg, true, 0, .none⟩ ∧
      t.pg.phase = .closed ∧ t.pg.closed = true ∧ t.pg.running = false ∧ t.pg.ok = true ∧ t.pg.err = 0 ∧
      t.pg.count = s.pg.count ∧ t.pg.target = s.pg.target ∧ t.pg.dir = s.pg.dir ∧ t.pg.half = s.pg.half ∧
      t.pg.cbEn = s.pg.cbEn ∧ t.pg.dirOut = s.pg.dirOut ∧ (s.pg.phase.hasLoop = false → t.pg.stepOut = s.pg.stepOut) ∧
      t.hist = s.hist ++ (if s.pg.phase.hasLoop = true then
        .toggleStop :: (if s.cfg.stopFiresComplete && s.pg.target.counted && s.pg.cbEn then [.emit .complete] else [])
      else []) ∧
      exec .pgClose t = .next t

/-- The toggle loop's steps (R217 to R219): high to low with STEP off; low to the next cycle, counted, with STEP on, or to
Completing at the target with STEP left off; the completion action clears the running flag, then emits Complete if there is
a callback; without a loop the event does nothing (log 16). -/
def Obligations.ToggleSteps : Prop :=
  ∀ s : State,
    (∀ k, s.pg.phase = .high k →
      pgToggle s = .next { s with
        pg := { s.pg with phase := .low k, stepOut := false }, hist := s.hist ++ [.dout .step false] }) ∧
    (∀ k, s.pg.phase = .low k → s.pg.count.toNat < 2 ^ 32 - 1 →
      (s.pg.target = .finite (s.pg.count + 1) →
        pgToggle s = .next { s with pg := { s.pg with phase := .completing, count := s.pg.count + 1 } }) ∧
      (s.pg.target ≠ .finite (s.pg.count + 1) →
        pgToggle s = .next { s with
          pg := { s.pg with phase := .high (k + 1), count := s.pg.count + 1, stepOut := true }
          hist := s.hist ++ [.dout .step true] })) ∧
    (∀ k, s.pg.phase = .low k → s.pg.count.toNat = 2 ^ 32 - 1 → pgToggle s = .fault (.counterOverflow .pgCount)) ∧
    (s.pg.phase = .completing →
      pgToggle s = .next { s with
        pg := { s.pg with phase := .noLoop, running := false }
        hist := s.hist ++ (if s.pg.cbEn then [.emit .complete] else []) }) ∧
    (s.pg.phase.hasLoop = false → pgToggle s = .next s)

/-- A counted loop runs to its count (R213, R218, R219; the document's stepper property): from `High(0)` after PG.STEPCOUNT of `n`,
`2 n + 1` toggle steps bring `pg_count` to `n`, clear the running flag, end the loop, and emit Complete exactly once if there is
a callback, never otherwise. -/
def Obligations.CountedRunCompletes : Prop :=
  ∀ (s : State) (n : BitVec 32),
    legalConfig s.cfg = true → legalCount n = true → s.pg.phase = .high 0 → s.pg.count = 0 → s.pg.target = .finite n →
    s.sched = List.replicate (2 * n.toNat + 1) .toggle →
    ∃ t, Host.Core.run core (2 * n.toNat + 1) s = .next t ∧ t.pg.phase = .noLoop ∧ t.pg.running = false ∧ t.pg.count = n ∧
      t.pg.stepOut = false ∧ t.sched = [] ∧
      ∃ cs, t.hist = s.hist ++ cs ∧ cs.count (.emit .complete) = if s.pg.cbEn = true then 1 else 0

/-- A foreground PG.STEPCOUNT whose loop and completion action have run returns at the host's next turn (R213 corner case
(c)). That turn is the host's by its entry in the schedule, or by an empty schedule, which is the DESIGN CHOICE of log 3. -/
def Obligations.ForegroundRunReturns : Prop :=
  ∀ (s : State) (es : List Event), legalConfig s.cfg = true → s.busy = some .loopEnd → HostTurns 1 s es →
    s.pg.phase = .noLoop →
    step s = .next { s with
      busy := none, pg := { s.pg with ok := true, err := 0 }, ret := some ⟨.pg, true, 0, .none⟩, sched := es }
end

