-- ==== Sys2Proof/Laws/State.lean ====
section
/-! SUPPORT. One lemma per field per update of the state: what each named update writes, and that it leaves the rest. -/

namespace Sys2Proof.Machine

variable (s : State)


/-! ### `State.log` -/

@[simp] theorem log_cfg (cs : List Call) : (s.log cs).cfg = s.cfg := rfl
@[simp] theorem log_pt (cs : List Call) : (s.log cs).pt = s.pt := rfl
@[simp] theorem log_cr (cs : List Call) : (s.log cs).cr = s.cr := rfl
@[simp] theorem log_sp (cs : List Call) : (s.log cs).sp = s.sp := rfl
@[simp] theorem log_pg (cs : List Call) : (s.log cs).pg = s.pg := rfl
@[simp] theorem log_busy (cs : List Call) : (s.log cs).busy = s.busy := rfl
@[simp] theorem log_ret (cs : List Call) : (s.log cs).ret = s.ret := rfl
@[simp] theorem log_hist (cs : List Call) : (s.log cs).hist = s.hist ++ cs := rfl
@[simp] theorem log_fresh (cs : List Call) : (s.log cs).fresh = s.fresh := rfl
@[simp] theorem log_ptRx (cs : List Call) : (s.log cs).ptRx = s.ptRx := rfl
@[simp] theorem log_crRx (cs : List Call) : (s.log cs).crRx = s.crRx := rfl
@[simp] theorem log_env (cs : List Call) : (s.log cs).env = s.env := rfl
@[simp] theorem log_sched (cs : List Call) : (s.log cs).sched = s.sched := rfl
@[simp] theorem log_host (cs : List Call) : (s.log cs).host = s.host := rfl

/-! ### `State.setRx` -/

@[simp] theorem setRx_cfg (ch : Chan) (b : List Byte) : (s.setRx ch b).cfg = s.cfg := by cases ch <;> rfl
@[simp] theorem setRx_pt (ch : Chan) (b : List Byte) : (s.setRx ch b).pt = s.pt := by cases ch <;> rfl
@[simp] theorem setRx_cr (ch : Chan) (b : List Byte) : (s.setRx ch b).cr = s.cr := by cases ch <;> rfl
@[simp] theorem setRx_sp (ch : Chan) (b : List Byte) : (s.setRx ch b).sp = s.sp := by cases ch <;> rfl
@[simp] theorem setRx_pg (ch : Chan) (b : List Byte) : (s.setRx ch b).pg = s.pg := by cases ch <;> rfl
@[simp] theorem setRx_busy (ch : Chan) (b : List Byte) : (s.setRx ch b).busy = s.busy := by cases ch <;> rfl
@[simp] theorem setRx_ret (ch : Chan) (b : List Byte) : (s.setRx ch b).ret = s.ret := by cases ch <;> rfl
@[simp] theorem setRx_hist (ch : Chan) (b : List Byte) : (s.setRx ch b).hist = s.hist := by cases ch <;> rfl
@[simp] theorem setRx_fresh (ch : Chan) (b : List Byte) : (s.setRx ch b).fresh = s.fresh := by cases ch <;> rfl
@[simp] theorem setRx_env (ch : Chan) (b : List Byte) : (s.setRx ch b).env = s.env := by cases ch <;> rfl
@[simp] theorem setRx_sched (ch : Chan) (b : List Byte) : (s.setRx ch b).sched = s.sched := by cases ch <;> rfl
@[simp] theorem setRx_host (ch : Chan) (b : List Byte) : (s.setRx ch b).host = s.host := by cases ch <;> rfl
@[simp] theorem setRx_pt_ptRx (b : List Byte) : (s.setRx .pt b).ptRx = b := rfl
@[simp] theorem setRx_pt_crRx (b : List Byte) : (s.setRx .pt b).crRx = s.crRx := rfl
@[simp] theorem setRx_cr_ptRx (b : List Byte) : (s.setRx .cr b).ptRx = s.ptRx := rfl
@[simp] theorem setRx_cr_crRx (b : List Byte) : (s.setRx .cr b).crRx = b := rfl
@[simp] theorem rx_pt : s.rx .pt = s.ptRx := rfl
@[simp] theorem rx_cr : s.rx .cr = s.crRx := rfl

/-! ### `opReturn` -/

@[simp] theorem opReturn_cfg (u : UnitName) (ok : Bool) (err : BitVec 3) (d : Data) : (opReturn u ok err d s).cfg = s.cfg := by cases u <;> rfl
@[simp] theorem opReturn_busy (u : UnitName) (ok : Bool) (err : BitVec 3) (d : Data) : (opReturn u ok err d s).busy = none := by cases u <;> rfl
@[simp] theorem opReturn_ret (u : UnitName) (ok : Bool) (err : BitVec 3) (d : Data) : (opReturn u ok err d s).ret = some ⟨u, ok, err, d⟩ := by cases u <;> rfl
@[simp] theorem opReturn_hist (u : UnitName) (ok : Bool) (err : BitVec 3) (d : Data) : (opReturn u ok err d s).hist = s.hist := by cases u <;> rfl
@[simp] theorem opReturn_fresh (u : UnitName) (ok : Bool) (err : BitVec 3) (d : Data) : (opReturn u ok err d s).fresh = s.fresh := by cases u <;> rfl
@[simp] theorem opReturn_ptRx (u : UnitName) (ok : Bool) (err : BitVec 3) (d : Data) : (opReturn u ok err d s).ptRx = s.ptRx := by cases u <;> rfl
@[simp] theorem opReturn_crRx (u : UnitName) (ok : Bool) (err : BitVec 3) (d : Data) : (opReturn u ok err d s).crRx = s.crRx := by cases u <;> rfl
@[simp] theorem opReturn_env (u : UnitName) (ok : Bool) (err : BitVec 3) (d : Data) : (opReturn u ok err d s).env = s.env := by cases u <;> rfl
@[simp] theorem opReturn_sched (u : UnitName) (ok : Bool) (err : BitVec 3) (d : Data) : (opReturn u ok err d s).sched = s.sched := by cases u <;> rfl
@[simp] theorem opReturn_host (u : UnitName) (ok : Bool) (err : BitVec 3) (d : Data) : (opReturn u ok err d s).host = s.host := by cases u <;> rfl
@[simp] theorem opReturn_pt_pt (ok : Bool) (err : BitVec 3) (d : Data) : (opReturn .pt ok err d s).pt = { s.pt with ok := ok, err := err, phase := .idle } := rfl
@[simp] theorem opReturn_pt_cr (ok : Bool) (err : BitVec 3) (d : Data) : (opReturn .pt ok err d s).cr = s.cr := rfl
@[simp] theorem opReturn_pt_sp (ok : Bool) (err : BitVec 3) (d : Data) : (opReturn .pt ok err d s).sp = s.sp := rfl
@[simp] theorem opReturn_pt_pg (ok : Bool) (err : BitVec 3) (d : Data) : (opReturn .pt ok err d s).pg = s.pg := rfl
@[simp] theorem opReturn_cr_pt (ok : Bool) (err : BitVec 3) (d : Data) : (opReturn .cr ok err d s).pt = s.pt := rfl
@[simp] theorem opReturn_cr_cr (ok : Bool) (err : BitVec 3) (d : Data) : (opReturn .cr ok err d s).cr = { s.cr with ok := ok, err := err, phase := .idle } := rfl
@[simp] theorem opReturn_cr_sp (ok : Bool) (err : BitVec 3) (d : Data) : (opReturn .cr ok err d s).sp = s.sp := rfl
@[simp] theorem opReturn_cr_pg (ok : Bool) (err : BitVec 3) (d : Data) : (opReturn .cr ok err d s).pg = s.pg := rfl
@[simp] theorem opReturn_sp_pt (ok : Bool) (err : BitVec 3) (d : Data) : (opReturn .sp ok err d s).pt = s.pt := rfl
@[simp] theorem opReturn_sp_cr (ok : Bool) (err : BitVec 3) (d : Data) : (opReturn .sp ok err d s).cr = s.cr := rfl
@[simp] theorem opReturn_sp_sp (ok : Bool) (err : BitVec 3) (d : Data) : (opReturn .sp ok err d s).sp = { s.sp with ok := ok, err := err } := rfl
@[simp] theorem opReturn_sp_pg (ok : Bool) (err : BitVec 3) (d : Data) : (opReturn .sp ok err d s).pg = s.pg := rfl
@[simp] theorem opReturn_pg_pt (ok : Bool) (err : BitVec 3) (d : Data) : (opReturn .pg ok err d s).pt = s.pt := rfl
@[simp] theorem opReturn_pg_cr (ok : Bool) (err : BitVec 3) (d : Data) : (opReturn .pg ok err d s).cr = s.cr := rfl
@[simp] theorem opReturn_pg_sp (ok : Bool) (err : BitVec 3) (d : Data) : (opReturn .pg ok err d s).sp = s.sp := rfl
@[simp] theorem opReturn_pg_pg (ok : Bool) (err : BitVec 3) (d : Data) : (opReturn .pg ok err d s).pg = { s.pg with ok := ok, err := err } := rfl

/-! ### `ptGo` -/

@[simp] theorem ptGo_cfg (op : PtOp) (ph : PtPhase) : (ptGo op ph s).cfg = s.cfg := rfl
@[simp] theorem ptGo_pt (op : PtOp) (ph : PtPhase) : (ptGo op ph s).pt = { s.pt with phase := ph } := rfl
@[simp] theorem ptGo_cr (op : PtOp) (ph : PtPhase) : (ptGo op ph s).cr = s.cr := rfl
@[simp] theorem ptGo_sp (op : PtOp) (ph : PtPhase) : (ptGo op ph s).sp = s.sp := rfl
@[simp] theorem ptGo_pg (op : PtOp) (ph : PtPhase) : (ptGo op ph s).pg = s.pg := rfl
@[simp] theorem ptGo_busy (op : PtOp) (ph : PtPhase) : (ptGo op ph s).busy = some (.pt op) := rfl
@[simp] theorem ptGo_ret (op : PtOp) (ph : PtPhase) : (ptGo op ph s).ret = s.ret := rfl
@[simp] theorem ptGo_hist (op : PtOp) (ph : PtPhase) : (ptGo op ph s).hist = s.hist := rfl
@[simp] theorem ptGo_fresh (op : PtOp) (ph : PtPhase) : (ptGo op ph s).fresh = s.fresh := rfl
@[simp] theorem ptGo_ptRx (op : PtOp) (ph : PtPhase) : (ptGo op ph s).ptRx = s.ptRx := rfl
@[simp] theorem ptGo_crRx (op : PtOp) (ph : PtPhase) : (ptGo op ph s).crRx = s.crRx := rfl
@[simp] theorem ptGo_env (op : PtOp) (ph : PtPhase) : (ptGo op ph s).env = s.env := rfl
@[simp] theorem ptGo_sched (op : PtOp) (ph : PtPhase) : (ptGo op ph s).sched = s.sched := rfl
@[simp] theorem ptGo_host (op : PtOp) (ph : PtPhase) : (ptGo op ph s).host = s.host := rfl

/-! ### `ptSetCrc` -/

@[simp] theorem ptSetCrc_cfg (v : BitVec 16) : (ptSetCrc v s).cfg = s.cfg := rfl
@[simp] theorem ptSetCrc_pt (v : BitVec 16) : (ptSetCrc v s).pt = { s.pt with crc := v } := rfl
@[simp] theorem ptSetCrc_cr (v : BitVec 16) : (ptSetCrc v s).cr = s.cr := rfl
@[simp] theorem ptSetCrc_sp (v : BitVec 16) : (ptSetCrc v s).sp = s.sp := rfl
@[simp] theorem ptSetCrc_pg (v : BitVec 16) : (ptSetCrc v s).pg = s.pg := rfl
@[simp] theorem ptSetCrc_busy (v : BitVec 16) : (ptSetCrc v s).busy = s.busy := rfl
@[simp] theorem ptSetCrc_ret (v : BitVec 16) : (ptSetCrc v s).ret = s.ret := rfl
@[simp] theorem ptSetCrc_hist (v : BitVec 16) : (ptSetCrc v s).hist = s.hist := rfl
@[simp] theorem ptSetCrc_fresh (v : BitVec 16) : (ptSetCrc v s).fresh = s.fresh := rfl
@[simp] theorem ptSetCrc_ptRx (v : BitVec 16) : (ptSetCrc v s).ptRx = s.ptRx := rfl
@[simp] theorem ptSetCrc_crRx (v : BitVec 16) : (ptSetCrc v s).crRx = s.crRx := rfl
@[simp] theorem ptSetCrc_env (v : BitVec 16) : (ptSetCrc v s).env = s.env := rfl
@[simp] theorem ptSetCrc_sched (v : BitVec 16) : (ptSetCrc v s).sched = s.sched := rfl
@[simp] theorem ptSetCrc_host (v : BitVec 16) : (ptSetCrc v s).host = s.host := rfl

/-! ### `crGo` -/

@[simp] theorem crGo_cfg (op : CrOp) (ph : CrPhase) : (crGo op ph s).cfg = s.cfg := rfl
@[simp] theorem crGo_pt (op : CrOp) (ph : CrPhase) : (crGo op ph s).pt = s.pt := rfl
@[simp] theorem crGo_cr (op : CrOp) (ph : CrPhase) : (crGo op ph s).cr = { s.cr with phase := ph } := rfl
@[simp] theorem crGo_sp (op : CrOp) (ph : CrPhase) : (crGo op ph s).sp = s.sp := rfl
@[simp] theorem crGo_pg (op : CrOp) (ph : CrPhase) : (crGo op ph s).pg = s.pg := rfl
@[simp] theorem crGo_busy (op : CrOp) (ph : CrPhase) : (crGo op ph s).busy = some (.cr op) := rfl
@[simp] theorem crGo_ret (op : CrOp) (ph : CrPhase) : (crGo op ph s).ret = s.ret := rfl
@[simp] theorem crGo_hist (op : CrOp) (ph : CrPhase) : (crGo op ph s).hist = s.hist := rfl
@[simp] theorem crGo_fresh (op : CrOp) (ph : CrPhase) : (crGo op ph s).fresh = s.fresh := rfl
@[simp] theorem crGo_ptRx (op : CrOp) (ph : CrPhase) : (crGo op ph s).ptRx = s.ptRx := rfl
@[simp] theorem crGo_crRx (op : CrOp) (ph : CrPhase) : (crGo op ph s).crRx = s.crRx := rfl
@[simp] theorem crGo_env (op : CrOp) (ph : CrPhase) : (crGo op ph s).env = s.env := rfl
@[simp] theorem crGo_sched (op : CrOp) (ph : CrPhase) : (crGo op ph s).sched = s.sched := rfl
@[simp] theorem crGo_host (op : CrOp) (ph : CrPhase) : (crGo op ph s).host = s.host := rfl

/-! ### `pgGo` -/

@[simp] theorem pgGo_cfg (ph : PgPhase) : (pgGo ph s).cfg = s.cfg := rfl
@[simp] theorem pgGo_pt (ph : PgPhase) : (pgGo ph s).pt = s.pt := rfl
@[simp] theorem pgGo_cr (ph : PgPhase) : (pgGo ph s).cr = s.cr := rfl
@[simp] theorem pgGo_sp (ph : PgPhase) : (pgGo ph s).sp = s.sp := rfl
@[simp] theorem pgGo_pg (ph : PgPhase) : (pgGo ph s).pg = { s.pg with phase := ph } := rfl
@[simp] theorem pgGo_busy (ph : PgPhase) : (pgGo ph s).busy = s.busy := rfl
@[simp] theorem pgGo_ret (ph : PgPhase) : (pgGo ph s).ret = s.ret := rfl
@[simp] theorem pgGo_hist (ph : PgPhase) : (pgGo ph s).hist = s.hist := rfl
@[simp] theorem pgGo_fresh (ph : PgPhase) : (pgGo ph s).fresh = s.fresh := rfl
@[simp] theorem pgGo_ptRx (ph : PgPhase) : (pgGo ph s).ptRx = s.ptRx := rfl
@[simp] theorem pgGo_crRx (ph : PgPhase) : (pgGo ph s).crRx = s.crRx := rfl
@[simp] theorem pgGo_env (ph : PgPhase) : (pgGo ph s).env = s.env := rfl
@[simp] theorem pgGo_sched (ph : PgPhase) : (pgGo ph s).sched = s.sched := rfl
@[simp] theorem pgGo_host (ph : PgPhase) : (pgGo ph s).host = s.host := rfl

/-! ### `setStep` -/

@[simp] theorem setStep_cfg (b : Bool) : (setStep b s).cfg = s.cfg := rfl
@[simp] theorem setStep_pt (b : Bool) : (setStep b s).pt = s.pt := rfl
@[simp] theorem setStep_cr (b : Bool) : (setStep b s).cr = s.cr := rfl
@[simp] theorem setStep_sp (b : Bool) : (setStep b s).sp = s.sp := rfl
@[simp] theorem setStep_pg (b : Bool) : (setStep b s).pg = { s.pg with stepOut := b } := rfl
@[simp] theorem setStep_busy (b : Bool) : (setStep b s).busy = s.busy := rfl
@[simp] theorem setStep_ret (b : Bool) : (setStep b s).ret = s.ret := rfl
@[simp] theorem setStep_hist (b : Bool) : (setStep b s).hist = s.hist ++ [.dout .step b] := rfl
@[simp] theorem setStep_fresh (b : Bool) : (setStep b s).fresh = s.fresh := rfl
@[simp] theorem setStep_ptRx (b : Bool) : (setStep b s).ptRx = s.ptRx := rfl
@[simp] theorem setStep_crRx (b : Bool) : (setStep b s).crRx = s.crRx := rfl
@[simp] theorem setStep_env (b : Bool) : (setStep b s).env = s.env := rfl
@[simp] theorem setStep_sched (b : Bool) : (setStep b s).sched = s.sched := rfl
@[simp] theorem setStep_host (b : Bool) : (setStep b s).host = s.host := rfl

/-! ### `setDir` -/

@[simp] theorem setDir_cfg (d : Dir) : (setDir d s).cfg = s.cfg := rfl
@[simp] theorem setDir_pt (d : Dir) : (setDir d s).pt = s.pt := rfl
@[simp] theorem setDir_cr (d : Dir) : (setDir d s).cr = s.cr := rfl
@[simp] theorem setDir_sp (d : Dir) : (setDir d s).sp = s.sp := rfl
@[simp] theorem setDir_pg (d : Dir) : (setDir d s).pg = { s.pg with dirOut := ⟨dirLevel s.cfg d, .written⟩ } := rfl
@[simp] theorem setDir_busy (d : Dir) : (setDir d s).busy = s.busy := rfl
@[simp] theorem setDir_ret (d : Dir) : (setDir d s).ret = s.ret := rfl
@[simp] theorem setDir_hist (d : Dir) : (setDir d s).hist = s.hist ++ [.dout .dir (dirLevel s.cfg d)] := rfl
@[simp] theorem setDir_fresh (d : Dir) : (setDir d s).fresh = s.fresh := rfl
@[simp] theorem setDir_ptRx (d : Dir) : (setDir d s).ptRx = s.ptRx := rfl
@[simp] theorem setDir_crRx (d : Dir) : (setDir d s).crRx = s.crRx := rfl
@[simp] theorem setDir_env (d : Dir) : (setDir d s).env = s.env := rfl
@[simp] theorem setDir_sched (d : Dir) : (setDir d s).sched = s.sched := rfl
@[simp] theorem setDir_host (d : Dir) : (setDir d s).host = s.host := rfl

/-! ### `emitComplete` -/

@[simp] theorem emitComplete_cfg (b : Bool) : (emitComplete b s).cfg = s.cfg := by cases b <;> simp [emitComplete]
@[simp] theorem emitComplete_pt (b : Bool) : (emitComplete b s).pt = s.pt := by cases b <;> simp [emitComplete]
@[simp] theorem emitComplete_cr (b : Bool) : (emitComplete b s).cr = s.cr := by cases b <;> simp [emitComplete]
@[simp] theorem emitComplete_sp (b : Bool) : (emitComplete b s).sp = s.sp := by cases b <;> simp [emitComplete]
@[simp] theorem emitComplete_pg (b : Bool) : (emitComplete b s).pg = s.pg := by cases b <;> simp [emitComplete]
@[simp] theorem emitComplete_busy (b : Bool) : (emitComplete b s).busy = s.busy := by cases b <;> simp [emitComplete]
@[simp] theorem emitComplete_ret (b : Bool) : (emitComplete b s).ret = s.ret := by cases b <;> simp [emitComplete]
@[simp] theorem emitComplete_hist (b : Bool) : (emitComplete b s).hist = s.hist ++ (if b then [.emit .complete] else []) := by cases b <;> simp [emitComplete]
@[simp] theorem emitComplete_fresh (b : Bool) : (emitComplete b s).fresh = s.fresh := by cases b <;> simp [emitComplete]
@[simp] theorem emitComplete_ptRx (b : Bool) : (emitComplete b s).ptRx = s.ptRx := by cases b <;> simp [emitComplete]
@[simp] theorem emitComplete_crRx (b : Bool) : (emitComplete b s).crRx = s.crRx := by cases b <;> simp [emitComplete]
@[simp] theorem emitComplete_env (b : Bool) : (emitComplete b s).env = s.env := by cases b <;> simp [emitComplete]
@[simp] theorem emitComplete_sched (b : Bool) : (emitComplete b s).sched = s.sched := by cases b <;> simp [emitComplete]
@[simp] theorem emitComplete_host (b : Bool) : (emitComplete b s).host = s.host := by cases b <;> simp [emitComplete]

end Sys2Proof.Machine
end

