-- ==== Sys2Proof/Laws/Drive.lean ====
section
/-! SUPPORT. What running an operation on the environment's moves can do (`drive`), and how an operation is issued. A prover
cites these instead of unfolding `drive` and `issue`. -/

namespace Sys2Proof.Machine

/-! ### One move at a time -/

theorem drive_nil (adv : Verdict → State → State) (s : State) : drive adv [] s = { s with env := [] } := rfl

/-- An operation that has returned, or that waits for another agent, uses no move. -/
theorem drive_stopped (adv : Verdict → State → State) (ms : List EnvMove) (s : State) (h : s.callOutstanding = false) :
    drive adv ms s = { s with env := ms } := by
  cases ms with
  | nil => rfl
  | cons m rest => simp [drive, h]

/-- An answer goes to the call outstanding. -/
theorem drive_answer (adv : Verdict → State → State) (v : Verdict) (rest : List EnvMove) (s : State)
    (h : s.callOutstanding = true) : drive adv (.answer v :: rest) s = drive adv rest (adv v s) := by
  simp [drive, h]

/-- A change of a receive side is made. -/
theorem drive_rx (adv : Verdict → State → State) (ch : Chan) (bytes : List Byte) (rest : List EnvMove) (s : State)
    (h : s.callOutstanding = true) : drive adv (.rx ch bytes :: rest) s = drive adv rest (s.setRx ch bytes) := by
  simp [drive, h]

/-- What every answer, every change of a receive side and the putting back of unused moves keep, the run keeps. -/
theorem drive_keeps {P : State → Prop} {adv : Verdict → State → State}
    (hrx : ∀ s ch bytes, P s → P (s.setRx ch bytes)) (henv : ∀ s ms, P s → P { s with env := ms })
    (hadv : ∀ v s, P s → P (adv v s)) (ms : List EnvMove) (s : State) (h : P s) : P (drive adv ms s) := by
  induction ms generalizing s with
  | nil => exact henv _ _ h
  | cons m rest ih =>
    cases ho : s.callOutstanding with
    | false => rw [drive_stopped _ _ _ ho]; exact henv _ _ h
    | true =>
      cases m with
      | answer v => rw [drive_answer _ _ _ _ ho]; exact ih _ (hadv _ _ h)
      | rx ch bytes => rw [drive_rx _ _ _ _ _ ho]; exact ih _ (hrx _ _ _ h)

/-! ### Which operations have a call outstanding -/

theorem callOutstanding_pt {s : State} {op : PtOp} (h : s.busy = some (.pt op)) : s.callOutstanding = true := by
  simp [State.callOutstanding, h]

theorem callOutstanding_cr {s : State} {op : CrOp} (h : s.busy = some (.cr op)) : s.callOutstanding = true := by
  simp [State.callOutstanding, h]

theorem callOutstanding_popt {s : State} {ms : BitVec 32} (h : s.busy = some (.popt ms)) : s.callOutstanding = true := by
  simp [State.callOutstanding, h]

theorem callOutstanding_launch {s : State} {op : LaunchOp} (h : s.busy = some (.launch op)) : s.callOutstanding = false := by
  simp [State.callOutstanding, h]

theorem callOutstanding_none {s : State} (h : s.busy = none) : s.callOutstanding = false := by
  simp [State.callOutstanding, h]

theorem callOutstanding_pop {s : State} (h : s.busy = some .pop) : s.callOutstanding = false := by
  simp [State.callOutstanding, h]

theorem callOutstanding_loopEnd {s : State} (h : s.busy = some .loopEnd) : s.callOutstanding = false := by
  simp [State.callOutstanding, h]

/-- The unit an answer belongs to: an answer given while another unit's operation, or none, is in progress does nothing. -/
theorem ptAdvance_busy {s : State} {op : PtOp} (v : Verdict) (h : s.busy = some (.pt op)) :
    ptAdvance v s = ptCall op v s := by
  simp [ptAdvance, h]

theorem crAdvance_busy {s : State} {op : CrOp} (v : Verdict) (h : s.busy = some (.cr op)) :
    crAdvance v s = crCall op v s := by
  simp [crAdvance, h]

/-! ### Issuing -/

theorem issue_free {s : State} (k : State → Outcome) (h : s.busy = none) : issue s k = k s := by
  simp [issue, h]

theorem issue_busy {s : State} (k : State → Outcome) (h : s.busy.isSome = true) : issue s k = .refused .hostBusy := by
  simp [issue, h]

/-- An issued operation answers a next state only from a free host. -/
theorem issue_next {s t : State} {k : State → Outcome} (h : issue s k = .next t) : s.busy = none ∧ k s = .next t := by
  unfold issue at h
  cases hb : s.busy with
  | none => simpa [hb] using h
  | some p => simp [hb] at h

theorem require_legal {b : Bool} (field : String) (o : Outcome) (h : b = true) : require b field o = o := by
  simp [require, h]

theorem require_next {b : Bool} {field : String} {o : Outcome} {t : State} (h : require b field o = .next t) :
    b = true ∧ o = .next t := by
  unfold require at h
  cases b <;> simp_all

end Sys2Proof.Machine
end

