-- ==== Sys2Proof/Laws/Brings.lean ====
section
/-! SUPPORT. Running an operation in terms of the calls it makes (`Brings`), whatever moves of the environment make them come out
so (`answered`) and whenever a response arrives: rows of calls compose, and one lemma per kind of call. -/

namespace Sys2Proof.Machine

/-- The two receive sides become `x`. -/
def State.withRx (s : State) (x : Sides) : State := { s with ptRx := x.pt, crRx := x.cr }

@[simp] theorem withRx_withRx (s : State) (x y : Sides) : (s.withRx x).withRx y = s.withRx y := rfl
@[simp] theorem withRx_cfg (s : State) (x : Sides) : (s.withRx x).cfg = s.cfg := rfl
@[simp] theorem withRx_pt (s : State) (x : Sides) : (s.withRx x).pt = s.pt := rfl
@[simp] theorem withRx_cr (s : State) (x : Sides) : (s.withRx x).cr = s.cr := rfl
@[simp] theorem withRx_busy (s : State) (x : Sides) : (s.withRx x).busy = s.busy := rfl
@[simp] theorem withRx_hist (s : State) (x : Sides) : (s.withRx x).hist = s.hist := rfl
@[simp] theorem withRx_outstanding (s : State) (x : Sides) : (s.withRx x).callOutstanding = s.callOutstanding := rfl
theorem withRx_log (s : State) (x : Sides) (cs : List Call) : (s.withRx x).log cs = (s.log cs).withRx x := rfl

theorem withRx_rx (s : State) (x : Sides) (ch : Chan) : (s.withRx x).rx ch = x.get ch := by cases ch <;> rfl

theorem withRx_setRx (s : State) (x : Sides) (ch : Chan) (b : List Byte) :
    (s.withRx x).setRx ch b = s.withRx (x.set ch b) := by cases ch <;> rfl

/-- The receive sides a state has. -/
theorem withRx_self (s : State) : s.withRx ⟨s.ptRx, s.crRx⟩ = s := rfl

/-- A function of the state that neither reads nor writes the receive sides. -/
def Blind (f : State → State) : Prop := ∀ s x, f (s.withRx x) = (f s).withRx x

/-- Making the calls `cs` come out brings `s` to `t`, whatever the receive sides and the environment's further moves. The receive
sides of `s` and `t` themselves do not count. -/
def Brings (adv : Verdict → State → State) (s : State) (cs : List Call) (t : State) : Prop :=
  ∀ ms rest x y more, answered ms x (cs ++ more) = some y →
    ∃ ms' x', answered ms' x' more = some y ∧
      drive adv (ms ++ rest) (s.withRx x) = drive adv (ms' ++ rest) (t.withRx x')

variable {adv : Verdict → State → State} {s t u : State} {cs ds : List Call} {c : Call}

theorem Brings.refl : Brings adv s [] s := fun ms _ x _ _ h => ⟨ms, x, h, rfl⟩

theorem Brings.trans (h : Brings adv s cs t) (k : Brings adv t ds u) : Brings adv s (cs ++ ds) u := by
  intro ms rest x y more ha
  rw [List.append_assoc] at ha
  obtain ⟨ms', x', ha', he⟩ := h ms rest x y _ ha
  obtain ⟨ms'', x'', ha'', he'⟩ := k ms' rest x' y _ ha'
  exact ⟨ms'', x'', ha'', he.trans he'⟩

/-- The receive sides of the two states do not count. -/
theorem Brings.congr (h : Brings adv s cs t) {s' t' : State} (hs : ∀ x, s'.withRx x = s.withRx x)
    (ht : ∀ x, t'.withRx x = t.withRx x) : Brings adv s' cs t' := by
  intro ms rest x y more ha
  obtain ⟨ms', x', ha', he⟩ := h ms rest x y more ha
  exact ⟨ms', x', ha', by rw [hs, ht]; exact he⟩

theorem Brings.to (h : Brings adv s cs t) (e : t = u) : Brings adv s cs u := e ▸ h

theorem answered_nil_calls {ms : List EnvMove} {x y : Sides} (h : answered ms x [] = some y) : ms = [] ∧ x = y := by
  cases ms with
  | nil => exact ⟨rfl, by simpa [answered] using h⟩
  | cons m ms => cases m <;> simp [answered] at h

/-- An operation that has returned leaves the moves not used, and the receive sides as the calls left them. -/
theorem Brings.finish (h : Brings adv s cs t) (ht : t.callOutstanding = false) {ms : List EnvMove} {x y : Sides}
    (ha : answered ms x cs = some y) (rest : List EnvMove) :
    drive adv (ms ++ rest) (s.withRx x) = { t.withRx y with env := rest } := by
  obtain ⟨ms', x', ha', he⟩ := h ms rest x y [] (by rwa [List.append_nil])
  obtain ⟨rfl, rfl⟩ := answered_nil_calls ha'
  rw [he, List.nil_append, drive_stopped _ _ _ (by exact ht)]

/-- An operation that waits for a further answer has used every move. -/
theorem Brings.pending (h : Brings adv s cs t) {ms : List EnvMove} {x y : Sides} (ha : answered ms x cs = some y) :
    drive adv ms (s.withRx x) = { t.withRx y with env := [] } := by
  obtain ⟨ms', x', ha', he⟩ := h ms [] x y [] (by rwa [List.append_nil])
  obtain ⟨rfl, rfl⟩ := answered_nil_calls ha'
  rw [List.append_nil] at he
  exact he

/-! ### One call -/

/-- The call outstanding comes out as `c`, which brings `s` to `t`; while it waits nothing changes. -/
theorem brings_call (ho : s.callOutstanding = true)
    (hd : ∀ v x y, takes v x c = .done y → adv v (s.withRx x) = t.withRx y)
    (hw : ∀ v x, takes v x c = .waits → adv v (s.withRx x) = s.withRx x) : Brings adv s [c] t := by
  intro ms rest x y more ha
  induction ms generalizing x with
  | nil => simp [answered] at ha
  | cons m ms ih =>
    cases m with
    | rx ch bytes =>
      obtain ⟨ms', x', ha', he⟩ := ih (x.set ch bytes) (by simpa [answered] using ha)
      exact ⟨ms', x', ha', by rw [List.cons_append, drive_rx _ _ _ _ _ (by exact ho), withRx_setRx]; exact he⟩
    | answer v =>
      rw [List.singleton_append] at ha
      unfold answered at ha
      rw [List.cons_append, drive_answer _ _ _ _ (by exact ho)]
      split at ha
      · rename_i z hz
        exact ⟨ms, z, ha, by rw [hd v x z hz]⟩
      · rename_i hz
        obtain ⟨ms', x', ha', he⟩ := ih x (by simpa using ha)
        exact ⟨ms', x', ha', by rw [hw v x hz]; exact he⟩
      · cases ha

/-- A write is accepted. -/
theorem brings_writeOk {ch : Chan} {b : Byte} (ho : s.callOutstanding = true)
    (h : ∀ x, adv .proceed (s.withRx x) = t.withRx x) : Brings adv s [.write ch b true] t :=
  brings_call ho (fun v x y hz => by cases v <;> simp [takes] at hz; subst hz; exact h x)
    (fun v x hz => by cases v <;> simp [takes] at hz)

/-- A write fails. -/
theorem brings_writeFail {ch : Chan} {b : Byte} (ho : s.callOutstanding = true)
    (h : ∀ x, adv .fail (s.withRx x) = t.withRx x) : Brings adv s [.write ch b false] t :=
  brings_call ho (fun v x y hz => by cases v <;> simp [takes] at hz; subst hz; exact h x)
    (fun v x hz => by cases v <;> simp [takes] at hz)

/-- A byte is read, as soon as there is one. -/
theorem brings_read {ch : Chan} {b : Byte} (ho : s.callOutstanding = true)
    (h : ∀ x more, x.get ch = b :: more → adv .proceed (s.withRx x) = t.withRx (x.set ch more))
    (hw : ∀ x, x.get ch = [] → adv .proceed (s.withRx x) = s.withRx x) : Brings adv s [.read ch (some b)] t := by
  refine brings_call ho (fun v x y hz => ?_) (fun v x hz => ?_)
  · cases v <;> cases hx : x.get ch <;> simp [takes, hx] at hz
    split at hz <;> cases hz
    rename_i hb
    exact h x _ (hb ▸ hx)
  · cases v <;> cases hx : x.get ch <;> simp [takes, hx] at hz
    · exact hw x hx
    · split at hz <;> cases hz

/-- A read fails. -/
theorem brings_readFail {ch : Chan} (ho : s.callOutstanding = true) (h : ∀ x, adv .fail (s.withRx x) = t.withRx x)
    (hw : ∀ x, x.get ch = [] → adv .proceed (s.withRx x) = s.withRx x) : Brings adv s [.read ch none] t := by
  refine brings_call ho (fun v x y hz => ?_) (fun v x hz => ?_)
  · cases v <;> cases hx : x.get ch <;> simp [takes, hx] at hz <;> (subst hz; exact h x)
  · cases v <;> cases hx : x.get ch <;> simp [takes, hx] at hz
    exact hw x hx

/-- An availability test finds `n` bytes. -/
theorem brings_avail {ch : Chan} {n : Nat} (ho : s.callOutstanding = true)
    (h : ∀ v x, (x.get ch).length = n → adv v (s.withRx x) = t.withRx x) : Brings adv s [.avail ch n] t := by
  refine brings_call ho (fun v x y hz => ?_) (fun v x hz => ?_)
  · by_cases hn : n = (x.get ch).length
    · simp [takes, hn] at hz
      subst hz
      exact h v x hn.symm
    · simp [takes, hn] at hz
  · by_cases hn : n = (x.get ch).length <;> simp [takes, hn] at hz

/-- A bounded wait for a byte ends with one there. -/
theorem brings_waitGot {ch : Chan} {n : Nat} (ho : s.callOutstanding = true)
    (h : ∀ v x, x.get ch ≠ [] → adv v (s.withRx x) = t.withRx x)
    (hw : ∀ x, x.get ch = [] → adv .proceed (s.withRx x) = s.withRx x) : Brings adv s [.waitByte ch n true] t := by
  refine brings_call ho (fun v x y hz => ?_) (fun v x hz => ?_)
  · cases v <;> cases hx : x.get ch <;> simp [takes, hx] at hz <;> (subst hz; exact h _ x (by simp [hx]))
  · cases v <;> cases hx : x.get ch <;> simp [takes, hx] at hz
    exact hw x hx

/-- A bounded wait for a byte runs out. -/
theorem brings_waitOut {ch : Chan} {n : Nat} (ho : s.callOutstanding = true)
    (h : ∀ x, x.get ch = [] → adv .fail (s.withRx x) = t.withRx x)
    (hw : ∀ x, x.get ch = [] → adv .proceed (s.withRx x) = s.withRx x) : Brings adv s [.waitByte ch n false] t := by
  refine brings_call ho (fun v x y hz => ?_) (fun v x hz => ?_)
  · cases v <;> cases hx : x.get ch <;> simp [takes, hx] at hz; subst hz; exact h x hx
  · cases v <;> cases hx : x.get ch <;> simp [takes, hx] at hz
    exact hw x hx

/-- The environment lets the time of SP.POPT pass. -/
theorem brings_popTimeout {n : BitVec 32} (ho : s.callOutstanding = true)
    (h : ∀ x, adv .fail (s.withRx x) = t.withRx x)
    (hw : ∀ x, adv .proceed (s.withRx x) = s.withRx x) : Brings adv s [.popTimeout n] t := by
  refine brings_call ho (fun v x y hz => ?_) (fun v x hz => ?_)
  · cases v <;> simp [takes] at hz
    subst hz
    exact h x
  · cases v <;> simp [takes] at hz
    exact hw x

/-! ### Rows of calls -/

/-- The calls that write `bs` and then `b`. -/
theorem writes_append (ch : Chan) (as bs : List Byte) : writes ch (as ++ bs) = writes ch as ++ writes ch bs := List.map_append
theorem writes_cons (ch : Chan) (b : Byte) (bs : List Byte) : writes ch (b :: bs) = .write ch b true :: writes ch bs := rfl
theorem reads_append (ch : Chan) (as bs : List Byte) : reads ch (as ++ bs) = reads ch as ++ reads ch bs := List.map_append
theorem reads_cons (ch : Chan) (b : Byte) (bs : List Byte) : reads ch (b :: bs) = .read ch (some b) :: reads ch bs := rfl

/-- The environment lets `n` writes in a row complete. -/
theorem answered_writes (ch : Chan) (bs : List Byte) (x : Sides) :
    answered (proceeds bs.length) x (writes ch bs) = some x := by
  induction bs with
  | nil => rfl
  | cons b bs ih => simpa [proceeds, List.replicate_succ, writes_cons, answered, takes] using ih

end Sys2Proof.Machine
end

