-- ==== Sys2Proof/Laws/CommandResponse.lean ====
section
/-! SUPPORT. The shared operations of the Command/Response unit: what its calls bring an exchange to, one by one and in the rows
of a command, a word, a list of words and the polls of isTaskDone. -/

namespace Sys2Proof.Machine

/-! ### Phases -/

theorem crGo_log (op : CrOp) (p : CrPhase) (cs : List Call) (s : State) : (crGo op p s).log cs = crGo op p (s.log cs) := rfl

/-- What ends an exchange looks at neither the phase nor the operation in progress. -/
theorem crError_crGo (e : ErrClass) {op op' : CrOp} (h : op'.kind = op.kind) (o : CrOp) (p : CrPhase) (s : State) :
    crError e op' (crGo o p s) = crError e op s := by
  obtain ⟨k, _, _, _⟩ := op
  obtain ⟨k', _, _, _⟩ := op'
  simp only at h
  subst h
  cases k' <;> rfl

theorem crDeliver_crGo (d : List (BitVec 16)) (o : CrOp) (p : CrPhase) (s : State) :
    crDeliver d (crGo o p s) = crDeliver d s := rfl

theorem crNextWord_crGo (op : CrOp) (n : Nat) (o : CrOp) (p : CrPhase) (s : State) :
    crNextWord op n (crGo o p s) = crNextWord op n s := by unfold crNextWord; split <;> rfl

theorem crAfterTx_crGo (op o : CrOp) (p : CrPhase) (s : State) : crAfterTx op (crGo o p s) = crAfterTx op s := by
  unfold crAfterTx
  split <;> rfl

/-- Command byte `i`, where there is one, is next. -/
theorem crToTx_some {op : CrOp} {i : Nat} {s : State} {b : Byte} (h : (crCommand s.cfg op.kind)[i]? = some b) :
    crToTx op i s = crGo op (.tx i) s := by simp [crToTx, h]

/-- Past the last command byte the operation goes on. -/
theorem crToTx_none {op : CrOp} {i : Nat} {s : State} (h : (crCommand s.cfg op.kind)[i]? = none) :
    crToTx op i s = crAfterTx op s := by simp [crToTx, h]

theorem crToTx_crGo (op o : CrOp) (i : Nat) (p : CrPhase) (s : State) : crToTx op i (crGo o p s) = crToTx op i s := by
  have hc : (crGo o p s).cfg = s.cfg := rfl
  unfold crToTx
  rw [hc]
  split
  · rfl
  · exact crAfterTx_crGo _ _ _ _

/-! ### What looks at no receive side -/

theorem crGo_blind (op : CrOp) (p : CrPhase) : Blind (crGo op p) := fun _ _ => rfl

theorem crError_blind (e : ErrClass) (op : CrOp) : Blind (crError e op) := by
  intro s x
  obtain ⟨k, _, _, _⟩ := op
  cases k <;> rfl

theorem crNextWord_blind (op : CrOp) (n : Nat) : Blind (crNextWord op n) := by
  intro s x; unfold crNextWord; split <;> rfl

theorem crAfterTx_blind (op : CrOp) : Blind (crAfterTx op) := by
  intro s x
  unfold crAfterTx
  split <;> first | rfl | exact crNextWord_blind _ _ _ _

theorem crToTx_blind (op : CrOp) (i : Nat) : Blind (crToTx op i) := by
  intro s x
  unfold crToTx
  rw [withRx_cfg]
  split
  · rfl
  · exact crAfterTx_blind _ _ _

theorem crUse_blind (op : CrOp) (w : BitVec 16) : Blind (crUse op w) := by
  intro s x
  unfold crUse
  rw [withRx_cfg]
  split
  · rfl
  · exact crNextWord_blind _ _ _ _
  · rfl
  · rfl
  · split
    · exact crNextWord_blind _ _ _ _
    · split
      · exact crError_blind _ _ _ _
      · exact crNextWord_blind _ _ _ _
  · rfl
  · rfl

theorem crWord_blind (op : CrOp) (w : BitVec 16) : Blind (crWord op w) := fun s x =>
  crUse_blind op w { s with cr := { s.cr with word := ⟨w, .written⟩ } } x

/-! ### One call -/

/-- A byte is read in a phase whose call is a `ChRead`. -/
theorem brings_crRead {op : CrOp} {p : CrPhase} {s : State} {b : Byte} {k : Byte → State → State} (hk : Blind (k b))
    (h : ∀ v u, crAdvance v (crGo op p u) = crRead op k v (crGo op p u)) :
    Brings crAdvance (crGo op p s) [.read .cr (some b)] (k b ((crGo op p s).log [.read .cr (some b)])) := by
  refine brings_read rfl (fun x more hx => ?_) (fun x hx => ?_)
  · rw [← crGo_blind, h, crRead, State.chRead, crGo_blind, withRx_rx, hx]
    dsimp only
    rw [withRx_setRx, withRx_log]
    exact hk _ _
  · rw [← crGo_blind, h, crRead, State.chRead, crGo_blind, withRx_rx, hx]

/-- A read fails in a phase whose call is a `ChRead`: the operation ends. -/
theorem brings_crReadFail {op : CrOp} {p : CrPhase} {s : State} {k : Byte → State → State}
    (h : ∀ v u, crAdvance v (crGo op p u) = crRead op k v (crGo op p u)) :
    Brings crAdvance (crGo op p s) [.read .cr none] (crError .communicationFailure op (s.log [.read .cr none])) := by
  refine brings_readFail rfl (fun x => ?_) (fun x hx => ?_)
  · rw [← crError_crGo _ rfl op p, ← crGo_blind, h, ← crError_blind]
    rfl
  · rw [← crGo_blind, h, crRead, State.chRead, crGo_blind, withRx_rx, hx]

/-- A write is accepted in a phase whose call is the `ChWrite` of `b`. -/
theorem brings_crWrite {op : CrOp} {p : CrPhase} {s : State} {b : Byte} {k : State → State} (hk : Blind k)
    (h : ∀ v x, crAdvance v ((crGo op p s).withRx x) = crWrite op b k v ((crGo op p s).withRx x)) :
    Brings crAdvance (crGo op p s) [.write .cr b true] (k ((crGo op p s).log [.write .cr b true])) :=
  brings_writeOk rfl fun x => by rw [h]; exact hk ((crGo op p s).log [.write .cr b true]) x

/-- A write fails in a phase whose call is the `ChWrite` of `b`: the operation ends. -/
theorem brings_crWriteFail {op : CrOp} {p : CrPhase} {s : State} {b : Byte} {k : State → State}
    (h : ∀ v x, crAdvance v ((crGo op p s).withRx x) = crWrite op b k v ((crGo op p s).withRx x)) :
    Brings crAdvance (crGo op p s) [.write .cr b false] (crError .communicationFailure op (s.log [.write .cr b false])) :=
  brings_writeFail rfl fun x => by
    rw [h, ← crError_crGo _ rfl op p, ← crError_blind]
    rfl

/-! ### A whole operation -/

theorem crStart_blind (k : CrKind) : Blind (crStart k) := crToTx_blind _ _

/-- An operation whose calls, from its start, bring it to its end: what it answers when the environment makes them come out so. -/
theorem crRun_brings {k : CrKind} {s t : State} {cs : List Call} (h : Brings crAdvance (crStart k s) cs t)
    (ht : t.callOutstanding = false) {ms rest : List EnvMove} {y : Sides} (he : s.env = ms ++ rest)
    (ha : answered ms ⟨s.ptRx, s.crRx⟩ cs = some y) : crRun k s = .next { t.withRx y with env := rest } := by
  have hx := crStart_blind k s ⟨s.ptRx, s.crRx⟩
  rw [withRx_self] at hx
  rw [crRun, he, hx, h.finish ht ha]

/-! ### Commands -/

/-- Some of the bytes of a command, each write accepted. -/
theorem brings_crBody {op : CrOp} (n i : Nat) (s : State) (hn : i + n ≤ (crCommand s.cfg op.kind).length) :
    Brings crAdvance (crToTx op i s) (writes .cr (((crCommand s.cfg op.kind).drop i).take n))
      (crToTx op (i + n) (s.log (writes .cr (((crCommand s.cfg op.kind).drop i).take n)))) := by
  induction n generalizing i s with
  | zero => simpa [writes, State.log] using Brings.refl (adv := crAdvance) (s := crToTx op i s)
  | succ n ih =>
    have hi : i < (crCommand s.cfg op.kind).length := by omega
    have hg : (crCommand s.cfg op.kind).getD i 0 = (crCommand s.cfg op.kind)[i] := by simp [hi]
    have one := brings_crWrite (op := op) (p := .tx i) (s := s) (b := (crCommand s.cfg op.kind).getD i 0)
      (crToTx_blind op (i + 1)) (fun v x => rfl)
    have two := ih (i + 1) (s.log [.write .cr (crCommand s.cfg op.kind)[i] true]) (by simp; omega)
    rw [hg, crGo_log, crToTx_crGo] at one
    rw [crToTx_some (List.getElem?_eq_getElem hi), List.drop_eq_getElem_cons hi, List.take_succ_cons, writes_cons,
      show i + (n + 1) = i + 1 + n by omega]
    have both := one.trans two
    simpa [State.log, List.append_assoc] using both

/-- A whole command, each write accepted: what follows it comes next. -/
theorem brings_crCommand (op : CrOp) (s : State) :
    Brings crAdvance (crToTx op 0 s) (writes .cr (crCommand s.cfg op.kind))
      (crAfterTx op (s.log (writes .cr (crCommand s.cfg op.kind)))) := by
  have body := brings_crBody (op := op) (crCommand s.cfg op.kind).length 0 s (by omega)
  rw [List.drop_zero, List.take_length, Nat.zero_add, crToTx_none (i := (crCommand s.cfg op.kind).length) (by simp)] at body
  exact body

/-- A command whose byte `j` is not accepted: the operation ends. -/
theorem brings_crCommandFail (op : CrOp) (s : State) {j : Nat} {b : Byte} (hb : (crCommand s.cfg op.kind)[j]? = some b) :
    Brings crAdvance (crToTx op 0 s) (writes .cr ((crCommand s.cfg op.kind).take j) ++ [.write .cr b false])
      (crError .communicationFailure op
        (s.log (writes .cr ((crCommand s.cfg op.kind).take j) ++ [.write .cr b false]))) := by
  obtain ⟨hj, hb'⟩ := List.getElem?_eq_some_iff.1 hb
  have body := brings_crBody (op := op) j 0 s (by omega)
  rw [List.drop_zero, Nat.zero_add, crToTx_some (s := s.log _) (b := b) hb] at body
  have cut := brings_crWriteFail (op := op) (p := .tx j) (s := s.log (writes .cr ((crCommand s.cfg op.kind).take j)))
    (b := b) (k := crToTx op (j + 1)) (fun v x => by
      show crWrite op ((crCommand s.cfg op.kind).getD j 0) _ v _ = _
      rw [show (crCommand s.cfg op.kind).getD j 0 = b by simp [hb]])
  refine (body.trans cut).to ?_
  simp [State.log]

/-! ### Words -/

/-- The two bytes of a word: it goes to `cr_word` and to the operation. -/
theorem brings_crWord (op : CrOp) (b0 b1 : Byte) (s : State) :
    Brings crAdvance (crGo op (.rx 0) s) (reads .cr [b0, b1]) (crUse { op with hi := b0 } (word16 b0 b1)
      { s with
        busy := some (.cr { op with hi := b0 })
        cr := { s.cr with phase := .rx 1, word := ⟨word16 b0 b1, .written⟩ }
        hist := s.hist ++ reads .cr [b0, b1] }) := by
  have first := brings_crRead (op := op) (p := .rx 0) (s := s) (b := b0) (k := fun b => crGo { op with hi := b } (.rx 1))
    (crGo_blind _ _) (fun v u => rfl)
  have second := brings_crRead (op := { op with hi := b0 }) (p := .rx 1) (s := (crGo op (.rx 0) s).log [.read .cr (some b0)])
    (b := b1) (k := fun b => crWord { op with hi := b0 } (word16 b0 b)) (crWord_blind _ _) (fun v u => rfl)
  refine (first.trans second).to ?_
  simp [crWord, crGo, State.log, reads]

/-- A read of a word that fails, at its first byte or at its second: the operation ends. -/
theorem brings_crWordFail (op : CrOp) (b0 : Byte) (k : Nat) (s : State) :
    Brings crAdvance (crGo op (.rx 0) s) (reads .cr ([b0].take k) ++ [.read .cr none])
      (crError .communicationFailure op (s.log (reads .cr ([b0].take k) ++ [.read .cr none]))) := by
  cases k with
  | zero => exact brings_crReadFail (k := fun b => crGo { op with hi := b } (.rx 1)) (fun v u => rfl)
  | succ k =>
    have first := brings_crRead (op := op) (p := .rx 0) (s := s) (b := b0) (k := fun b => crGo { op with hi := b } (.rx 1))
      (crGo_blind _ _) (fun v u => rfl)
    have second := brings_crReadFail (op := { op with hi := b0 }) (p := .rx 1)
      (s := (crGo op (.rx 0) s).log [.read .cr (some b0)])
      (k := fun b => crWord { op with hi := b0 } (word16 b0 b)) (fun v u => rfl)
    rw [show reads .cr ([b0].take (k + 1)) = [.read .cr (some b0)] by simp [reads]]
    refine (first.trans second).to ?_
    refine Eq.trans ?_ (crError_crGo .communicationFailure (op := op) (op' := { op with hi := b0 }) rfl op (.rx 0)
      (s.log ([.read .cr (some b0)] ++ [.read .cr none])))
    simp [crGo, State.log]

/-- The words still to come, every byte read: the whole list is delivered, with the last one in `cr_word`. -/
theorem brings_crWords (n : Nat) (bytes : List Byte) (op : CrOp) (s : State)
    (hd : ∀ o w u, o.kind = op.kind → o.statusRead = op.statusRead → u.cfg = s.cfg →
      crUse o w u = crNextWord { o with words := o.words ++ [w] } n u) (hl : 2 * op.words.length + bytes.length = 2 * n) :
    Brings crAdvance (crNextWord op n s) (reads .cr bytes) (crDeliver (op.words ++ words16 bytes)
      { s with
        cr := { s.cr with word := if bytes = [] then s.cr.word else ⟨(words16 bytes).getLastD 0, .written⟩ }
        hist := s.hist ++ reads .cr bytes }) := by
  match bytes, hl with
  | [], hl =>
    have : ¬ op.words.length < n := by simp at hl; omega
    simpa [crNextWord, this, words16, reads] using Brings.refl (adv := crAdvance) (s := crDeliver op.words s)
  | [b], hl => simp at hl; omega
  | b0 :: b1 :: bs, hl =>
    have hlt : op.words.length < n := by simp at hl; omega
    have one := brings_crWord op b0 b1 s
    rw [hd { op with hi := b0 } _ _ rfl rfl (by rfl)] at one
    have rest := brings_crWords n bs { op with hi := b0, words := op.words ++ [word16 b0 b1] }
      { s with
        busy := some (.cr { op with hi := b0 })
        cr := { s.cr with phase := .rx 1, word := ⟨word16 b0 b1, .written⟩ }
        hist := s.hist ++ reads .cr [b0, b1] }
      (fun o w u hk hs hu => hd o w u hk hs hu) (by simp at hl ⊢; omega)
    have hw : (if bs = [] then (⟨word16 b0 b1, .written⟩ : Held (BitVec 16)) else ⟨(words16 bs).getLastD 0, .written⟩) =
        ⟨(words16 (b0 :: b1 :: bs)).getLastD 0, .written⟩ := by
      match bs, hl with
      | [], _ => rfl
      | [x], hl => simp at hl; omega
      | x :: y :: zs, _ => simp [words16, List.getLastD]
    rw [show crNextWord op n s = crGo op (.rx 0) s by simp [crNextWord, hlt],
      show reads .cr (b0 :: b1 :: bs) = reads .cr [b0, b1] ++ reads .cr bs from rfl]
    refine (one.trans rest).to ?_
    simp only [hw]
    simp [words16, crDeliver, opOk, opReturn, State.setFlags, State.rest]
termination_by bytes.length

/-- A read that fails while words are still to come: the last whole word is in `cr_word`. -/
theorem brings_crWordsFail (n : Nat) (bytes : List Byte) (op : CrOp) (s : State)
    (hd : ∀ o w u, o.kind = op.kind → o.statusRead = op.statusRead → u.cfg = s.cfg →
      crUse o w u = crNextWord { o with words := o.words ++ [w] } n u) (hl : 2 * op.words.length + bytes.length < 2 * n) :
    Brings crAdvance (crNextWord op n s) (reads .cr bytes ++ [.read .cr none]) (crError .communicationFailure op
      { s with
        cr := { s.cr with word := if bytes.length < 2 then s.cr.word else ⟨(words16 bytes).getLastD 0, .written⟩ }
        hist := s.hist ++ (reads .cr bytes ++ [.read .cr none]) }) := by
  have hlt : op.words.length < n := by omega
  rw [show crNextWord op n s = crGo op (.rx 0) s by simp [crNextWord, hlt]]
  match bytes, hl with
  | [], _ => exact brings_crWordFail op 0 0 s
  | [b0], _ => exact brings_crWordFail op b0 1 s
  | b0 :: b1 :: bs, hl =>
    have one := brings_crWord op b0 b1 s
    rw [hd { op with hi := b0 } _ _ rfl rfl (by rfl)] at one
    have rest := brings_crWordsFail n bs { op with hi := b0, words := op.words ++ [word16 b0 b1] }
      { s with
        busy := some (.cr { op with hi := b0 })
        cr := { s.cr with phase := .rx 1, word := ⟨word16 b0 b1, .written⟩ }
        hist := s.hist ++ reads .cr [b0, b1] }
      (fun o w u hk hs hu => hd o w u hk hs hu) (by simp at hl ⊢; omega)
    have hw : (if bs.length < 2 then (⟨word16 b0 b1, .written⟩ : Held (BitVec 16)) else ⟨(words16 bs).getLastD 0, .written⟩) =
        ⟨(words16 (b0 :: b1 :: bs)).getLastD 0, .written⟩ := by
      match bs with
      | [] => rfl
      | [x] => rfl
      | x :: y :: zs => rw [if_neg (by simp)]; simp [words16, List.getLastD]
    rw [show reads .cr (b0 :: b1 :: bs) = reads .cr [b0, b1] ++ reads .cr bs from rfl, List.append_assoc]
    refine (one.trans rest).to ?_
    simp only [hw]
    rw [if_neg (by simp), List.append_assoc]
    exact crError_crGo .communicationFailure (op := op)
      (op' := { op with hi := b0, words := op.words ++ [word16 b0 b1] }) rfl { op with hi := b0 } (.rx 1)
      { s with
        cr := { s.cr with word := ⟨(words16 (b0 :: b1 :: bs)).getLastD 0, .written⟩ }
        hist := s.hist ++ (reads .cr [b0, b1] ++ (reads .cr bs ++ [.read .cr none])) }
termination_by bytes.length

/-! ### Availability tests -/

/-- The availability tests of a waiting isTaskDone that find fewer than two bytes: each is followed by its delay, and the
operation still polls. The environment answers the tests only. -/
theorem brings_crPolls {op : CrOp} (hk : op.kind = .taskDone true) (counts : List Nat) (s : State) (hl : ∀ n ∈ counts, n < 2) :
    Brings crAdvance (crGo op .poll s) (counts.map (Call.avail .cr)) (crGo op .poll
      (s.log (counts.flatMap fun n => [.avail .cr n, .delay s.cfg.pollMs]))) := by
  induction counts generalizing s with
  | nil => simpa [State.log] using Brings.refl (adv := crAdvance) (s := crGo op .poll s)
  | cons n counts ih =>
    have one : Brings crAdvance (crGo op .poll s) [.avail .cr n]
        (crGo op .poll (s.log [.avail .cr n, .delay s.cfg.pollMs])) := by
      refine brings_avail rfl (fun v x hx => ?_)
      have hlt : ¬ 2 ≤ x.cr.length := by have := hl n (by simp); simp [Sides.get] at hx; omega
      subst hx
      simp [crAdvance, crCall, crPollTest, crGo, State.log, State.withRx, hk, hlt, Sides.get]
    refine (one.trans (ih _ fun m hm => hl m (by simp [hm]))).to ?_
    simp [State.log]

/-- isTaskDone's availability test finds a word. -/
theorem brings_crPollFound {op : CrOp} {n : Nat} (s : State) (hn : 2 ≤ n) :
    Brings crAdvance (crGo op .poll s) [.avail .cr n] (crGo op (.rx 0) (s.log [.avail .cr n])) := by
  refine brings_avail rfl (fun v x hx => ?_)
  subst hx
  have h2 : 2 ≤ x.cr.length := hn
  simp [crAdvance, crCall, crPollTest, crGo, State.log, State.withRx, h2, Sides.get]

/-- The identity check's one availability test. -/
theorem brings_crIdTest {op : CrOp} {n : Nat} (s : State) :
    Brings crAdvance (crGo op .idWait s) [.avail .cr n]
      (if n < 2 then crError .deviceUnavailable op (s.log [.avail .cr n])
        else crGo op (.rx 0) (s.log [.avail .cr n])) := by
  refine brings_avail rfl (fun v x hx => ?_)
  subst hx
  by_cases h2 : x.cr.length < 2
  · have h2' : (x.get .cr).length < 2 := h2
    rw [if_pos h2', ← crError_crGo _ rfl op .idWait, ← crError_blind]
    simp [crAdvance, crCall, crIdTest, crGo, State.log, State.withRx, h2, Sides.get]
  · have h2' : ¬ (x.get .cr).length < 2 := h2
    rw [if_neg h2']
    simp [crAdvance, crCall, crIdTest, crGo, State.log, State.withRx, h2, Sides.get]

end Sys2Proof.Machine
end

