-- ==== Sys2Proof/Laws/PacketTransport.lean ====
section
/-! SUPPORT. The shared operations of the Packet Transport unit: what its calls bring an attempt to, one by one and in the rows
of a frame, a request and a response. -/

namespace Sys2Proof.Machine

/-! ### Phases -/

@[simp] theorem ptGo_ptGo (op op' : PtOp) (p p' : PtPhase) (s : State) :
    ptGo op p (ptGo op' p' s) = ptGo op p s := rfl

theorem ptGo_log (op : PtOp) (p : PtPhase) (cs : List Call) (s : State) :
    (ptGo op p s).log cs = ptGo op p (s.log cs) := rfl

theorem ptGo_outstanding (op : PtOp) (p : PtPhase) (s : State) : (ptGo op p s).callOutstanding = true := rfl

/-! ### What looks at no receive side -/

theorem ptGo_blind (op : PtOp) (p : PtPhase) : Blind (ptGo op p) := fun _ _ => rfl

theorem ptToRx_blind (op : PtOp) : Blind (ptToRx op) := by
  intro s x; unfold ptToRx; split <;> rfl

theorem ptToTx_blind (op : PtOp) (i : Nat) : Blind (ptToTx op i) := by
  intro s x
  unfold ptToTx
  rw [withRx_cfg]
  split
  · split <;> rfl
  · split
    · rfl
    · exact ptToRx_blind _ _ _

theorem ptBegin_blind (op : PtOp) : Blind (ptBegin op) := fun s x =>
  ptToTx_blind { op with got := [], crcHi := 0 } 0
    { s with pt := { s.pt with
        attempts := s.pt.attempts + 1
        crc := if ptFramed op.kind then crc16 s.cfg.poly s.cfg.crcInit (ptRequest s.cfg op.kind) else s.cfg.crcInit } } x

theorem ptError_blind (e : ErrClass) (op : PtOp) : Blind (ptError e op) := by
  intro s x
  obtain ⟨k, _, _, _⟩ := op
  cases k <;> rfl

theorem ptNextAttempt_blind (e : ErrClass) (op : PtOp) : Blind (ptNextAttempt e op) := by
  intro s x
  unfold ptNextAttempt
  rw [withRx_pt]
  split
  · exact ptBegin_blind _ _ _
  · exact ptError_blind _ _ _ _

theorem ptAfterFrame_blind (op : PtOp) : Blind (ptAfterFrame op) := by
  intro s x; unfold ptAfterFrame; split <;> rfl

theorem ptCheck_blind (op : PtOp) : Blind (ptCheck op) := by
  intro s x
  unfold ptCheck
  rw [withRx_pt]
  split
  · split <;> rfl
  · exact ptNextAttempt_blind _ _ _ _

/-! ### One call -/

/-- A byte is read in a phase whose call is a `ChRead`. -/
theorem brings_ptRead {op : PtOp} {p : PtPhase} {s : State} {b : Byte} {k : Byte → State → State} (hk : Blind (k b))
    (h : ∀ v u, ptAdvance v (ptGo op p u) = ptRead op k v (ptGo op p u)) :
    Brings ptAdvance (ptGo op p s) [.read .pt (some b)] (k b ((ptGo op p s).log [.read .pt (some b)])) := by
  refine brings_read rfl (fun x more hx => ?_) (fun x hx => ?_)
  · rw [← ptGo_blind, h, ptRead, State.chRead, ptGo_blind, withRx_rx, hx]
    dsimp only
    rw [withRx_setRx, withRx_log]
    exact hk _ _
  · rw [← ptGo_blind, h, ptRead, State.chRead, ptGo_blind, withRx_rx, hx]

/-- A read fails in a phase whose call is a `ChRead`: the attempt ends. -/
theorem brings_ptReadFail {op : PtOp} {p : PtPhase} {s : State} {k : Byte → State → State}
    (h : ∀ v u, ptAdvance v (ptGo op p u) = ptRead op k v (ptGo op p u)) :
    Brings ptAdvance (ptGo op p s) [.read .pt none]
      (ptNextAttempt .communicationFailure op ((ptGo op p s).log [.read .pt none])) := by
  refine brings_readFail rfl (fun x => ?_) (fun x hx => ?_)
  · rw [← ptGo_blind, h]
    exact ptNextAttempt_blind _ _ ((ptGo op p s).log [.read .pt none]) x
  · rw [← ptGo_blind, h, ptRead, State.chRead, ptGo_blind, withRx_rx, hx]

/-- A write is accepted in a phase whose call is the `ChWrite` of `b`. -/
theorem brings_ptWrite {op : PtOp} {p : PtPhase} {s : State} {b : Byte} {k : State → State} (hk : Blind k)
    (h : ∀ v x, ptAdvance v ((ptGo op p s).withRx x) = ptWrite op b k v ((ptGo op p s).withRx x)) :
    Brings ptAdvance (ptGo op p s) [.write .pt b true] (k ((ptGo op p s).log [.write .pt b true])) :=
  brings_writeOk rfl fun x => by rw [h]; exact hk ((ptGo op p s).log [.write .pt b true]) x

/-- A write fails in a phase whose call is the `ChWrite` of `b`: the attempt ends. -/
theorem brings_ptWriteFail {op : PtOp} {p : PtPhase} {s : State} {b : Byte} {k : State → State}
    (h : ∀ v x, ptAdvance v ((ptGo op p s).withRx x) = ptWrite op b k v ((ptGo op p s).withRx x)) :
    Brings ptAdvance (ptGo op p s) [.write .pt b false]
      (ptNextAttempt .communicationFailure op ((ptGo op p s).log [.write .pt b false])) :=
  brings_writeFail rfl fun x => by rw [h]; exact ptNextAttempt_blind _ _ ((ptGo op p s).log [.write .pt b false]) x

/-! ### A whole operation -/

theorem ptStart_blind (k : PtKind) (budget : Nat) : Blind (ptStart k budget) := fun s x =>
  ptBegin_blind ⟨k, budget, [], 0⟩ { s with pt := { s.pt with attempts := 0 } } x

/-- An operation whose calls, from its start, bring it to its end: what it answers when the environment makes them come out so. -/
theorem ptRun_brings {k : PtKind} {budget : Nat} {s t : State} {cs : List Call}
    (h : Brings ptAdvance (ptStart k budget s) cs t) (ht : t.callOutstanding = false) {ms rest : List EnvMove} {y : Sides}
    (he : s.env = ms ++ rest) (ha : answered ms ⟨s.ptRx, s.crRx⟩ cs = some y) :
    ptRun k budget s = .next { t.withRx y with env := rest } := by
  have hx := ptStart_blind k budget s ⟨s.ptRx, s.crRx⟩
  rw [withRx_self] at hx
  rw [ptRun, he, hx, h.finish ht ha]

/-! ### Writing -/

/-- A framed attempt's next byte, or its first CRC byte. -/
theorem ptToTx_framed {op : PtOp} (h : ptFramed op.kind = true) (i : Nat) (s : State) :
    ptToTx op i s = ptGo op (if i < (ptRequest s.cfg op.kind).length then .txBody i else .txCrcHi) s := by
  unfold ptToTx
  by_cases hi : i < (ptRequest s.cfg op.kind).length
  · simp [hi, h]
  · simp [hi, h]

/-- Some of the bytes of a framed request, each write accepted. -/
theorem brings_ptBody {op : PtOp} (h : ptFramed op.kind = true) (n i : Nat) (s : State)
    (hn : i + n ≤ (ptRequest s.cfg op.kind).length) :
    Brings ptAdvance (ptToTx op i s) (writes .pt (((ptRequest s.cfg op.kind).drop i).take n))
      (ptToTx op (i + n) (s.log (writes .pt (((ptRequest s.cfg op.kind).drop i).take n)))) := by
  induction n generalizing i s with
  | zero => simpa [writes, State.log] using Brings.refl (adv := ptAdvance) (s := ptToTx op i s)
  | succ n ih =>
    have hi : i < (ptRequest s.cfg op.kind).length := by omega
    have hb : ptToTx op i s = ptGo op (.txBody i) s := by rw [ptToTx_framed h, if_pos hi]
    have hg : (ptRequest s.cfg op.kind).getD i 0 = (ptRequest s.cfg op.kind)[i] := by simp [hi]
    have one := brings_ptWrite (op := op) (p := .txBody i) (s := s) (b := (ptRequest s.cfg op.kind).getD i 0)
      (ptToTx_blind op (i + 1)) (fun v x => rfl)
    have two := ih (i + 1) (s.log [.write .pt (ptRequest s.cfg op.kind)[i] true]) (by simp; omega)
    rw [hg, ptGo_log, show ptToTx op (i + 1) (ptGo op (.txBody i) (s.log [.write .pt (ptRequest s.cfg op.kind)[i] true])) =
      ptToTx op (i + 1) (s.log [.write .pt (ptRequest s.cfg op.kind)[i] true]) by rw [ptToTx_framed h, ptToTx_framed h]; rfl]
      at one
    rw [hb, List.drop_eq_getElem_cons hi, List.take_succ_cons, writes_cons]
    have both := one.trans two
    rw [show i + (n + 1) = i + 1 + n by omega]
    simpa [State.log, List.append_assoc] using both

/-- A framed attempt starts: it is counted and the CRC is that of the request. -/
theorem ptBegin_framed {op : PtOp} (h : ptFramed op.kind = true) (s : State) :
    ptBegin op s = ptToTx { op with got := [], crcHi := 0 } 0
      { s with pt := { s.pt with
          attempts := s.pt.attempts + 1, crc := crc16 s.cfg.poly s.cfg.crcInit (ptRequest s.cfg op.kind) } } := by
  simp [ptBegin, h]

/-- A whole frame with every write accepted: body, CRC high byte, CRC low byte, then what follows the frame. -/
theorem brings_ptFrame {op : PtOp} (h : ptFramed op.kind = true) (s : State) :
    Brings ptAdvance (ptToTx op 0 s) (writes .pt (ptRequest s.cfg op.kind ++ bytes16 s.pt.crc))
      (ptAfterFrame op (ptGo op .txCrcLo (s.log (writes .pt (ptRequest s.cfg op.kind ++ bytes16 s.pt.crc))))) := by
  have body := brings_ptBody h (ptRequest s.cfg op.kind).length 0 s (by omega)
  rw [List.drop_zero, List.take_length, Nat.zero_add, ptToTx_framed h (ptRequest s.cfg op.kind).length,
    if_neg (by simp)] at body
  have hi := brings_ptWrite (op := op) (p := .txCrcHi) (s := s.log (writes .pt (ptRequest s.cfg op.kind)))
    (b := hiByte s.pt.crc) (ptGo_blind op .txCrcLo) (fun v x => rfl)
  have lo := brings_ptWrite (op := op) (p := .txCrcLo)
    (s := (s.log (writes .pt (ptRequest s.cfg op.kind))).log [.write .pt (hiByte s.pt.crc) true])
    (b := loByte s.pt.crc) (ptAfterFrame_blind op) (fun v x => rfl)
  rw [ptGo_log, ptGo_ptGo] at hi
  have all := (body.trans hi).trans lo
  simpa [writes, bytes16, State.log, ptGo] using all

/-- One attempt of a framed operation with every write accepted, up to what follows the frame. -/
theorem brings_ptAttempt {op : PtOp} (h : ptFramed op.kind = true) (hg : op.got = []) (hc : op.crcHi = 0) (s : State) :
    Brings ptAdvance (ptBegin op s) (writes .pt (framed s.cfg (ptRequest s.cfg op.kind)))
      (ptAfterFrame op (ptGo op .txCrcLo
        { s with
          pt := { s.pt with
            attempts := s.pt.attempts + 1, crc := crc16 s.cfg.poly s.cfg.crcInit (ptRequest s.cfg op.kind) }
          hist := s.hist ++ writes .pt (framed s.cfg (ptRequest s.cfg op.kind)) })) := by
  obtain ⟨k, b, g, c⟩ := op
  simp only at hg hc
  subst hg hc
  rw [ptBegin_framed h]
  exact brings_ptFrame (op := ⟨k, b, [], 0⟩) h
    { s with pt := { s.pt with
      attempts := s.pt.attempts + 1, crc := crc16 s.cfg.poly s.cfg.crcInit (ptRequest s.cfg k) } }

theorem ptNextAttempt_more (e : ErrClass) (op : PtOp) (s : State) (h : s.pt.attempts ≤ op.budget) :
    ptNextAttempt e op s = ptBegin op s := by simp [ptNextAttempt, h]

theorem ptNextAttempt_last (e : ErrClass) (op : PtOp) (s : State) (h : op.budget < s.pt.attempts) :
    ptNextAttempt e op s = ptError e op s := by
  simp [ptNextAttempt]; omega

/-! ### Reading -/

/-- The operation reads a response: PT.READWORDS or PT.READBYTEPAIR. -/
theorem ptData_read {op : PtOp} (h : ptFramed op.kind = false) (b : Byte) (s : State) :
    ptData op b s = ptToRx { op with got := op.got ++ [b] } (ptSetCrc (crc16Update s.cfg.poly s.pt.crc b) s) := by
  unfold ptData
  cases hk : op.kind <;> simp_all [ptFramed]

theorem ptData_blind {op : PtOp} (h : ptFramed op.kind = false) (b : Byte) : Blind (ptData op b) := by
  intro s x
  rw [ptData_read h, ptData_read h]
  exact ptToRx_blind _ (ptSetCrc (crc16Update s.cfg.poly s.pt.crc b) s) x

/-- Some of the response bytes before the CRC: they are taken into the CRC. -/
theorem brings_ptData (ds : List Byte) (op : PtOp) (s : State) (h : ptFramed op.kind = false)
    (hl : op.got.length + ds.length ≤ ptDataLen op.kind) :
    Brings ptAdvance (ptToRx op s) (reads .pt ds) (ptToRx { op with got := op.got ++ ds }
      { s with pt := { s.pt with crc := crc16 s.cfg.poly s.pt.crc ds }, hist := s.hist ++ reads .pt ds }) := by
  induction ds generalizing op s with
  | nil => simpa [reads, crc16] using Brings.refl (adv := ptAdvance) (s := ptToRx op s)
  | cons b ds ih =>
    have hlt : op.got.length < ptDataLen op.kind := by simp at hl; omega
    have h0 : ptToRx op s = ptGo op (.rxData op.got.length) s := by simp [ptToRx, hlt]
    have one := brings_ptRead (op := op) (p := .rxData op.got.length) (s := s) (b := b) (ptData_blind h b) (fun v u => rfl)
    rw [ptData_read h] at one
    have two := ih { op with got := op.got ++ [b] }
      (ptSetCrc (crc16Update s.cfg.poly s.pt.crc b) ((ptGo op (.rxData op.got.length) s).log [.read .pt (some b)])) h
      (by simp at hl ⊢; omega)
    rw [h0, reads_cons]
    refine (one.trans two).congr (fun _ => rfl) (fun x => ?_)
    rw [← ptToRx_blind, ← ptToRx_blind]
    simp only [ptToRx]
    split <;> rename_i h2 <;>
      simp [ptGo, ptSetCrc, State.log, crc16, State.withRx] <;> simp at h2 <;> omega

/-- The two bytes of a read's request, each write accepted, entering the CRC; the response comes next. -/
theorem brings_ptRequest (op : PtOp) (h : ptFramed op.kind = false) (cc : Byte) (s : State)
    (hq : ptRequest s.cfg op.kind = [s.cfg.address, cc]) :
    Brings ptAdvance (ptBegin op s) (writes .pt [s.cfg.address, cc]) (ptToRx { op with got := [], crcHi := 0 }
      { s with
        busy := some (.pt { op with got := [], crcHi := 0 })
        pt := { s.pt with
          phase := .txBody 1, attempts := s.pt.attempts + 1, crc := crc16 s.cfg.poly s.cfg.crcInit [s.cfg.address, cc] }
        hist := s.hist ++ writes .pt [s.cfg.address, cc] }) := by
  obtain ⟨k, b, g, c⟩ := op
  have begin0 : ptBegin ⟨k, b, g, c⟩ s = ptGo ⟨k, b, [], 0⟩ (.txBody 0)
      { s with pt := { s.pt with
        attempts := s.pt.attempts + 1, crc := crc16 s.cfg.poly s.cfg.crcInit [s.cfg.address] } } := by
    simp only at hq h
    simp [ptBegin, ptToTx, hq, h, ptSetCrc, crc16]
  have first := brings_ptWrite (op := ⟨k, b, [], 0⟩) (p := .txBody 0) (s := { s with pt := { s.pt with
        attempts := s.pt.attempts + 1, crc := crc16 s.cfg.poly s.cfg.crcInit [s.cfg.address] } })
    (b := (ptRequest s.cfg k).getD 0 0) (ptToTx_blind _ 1) (fun v x => rfl)
  have next : ∀ u : State, u.cfg = s.cfg → ptToTx ⟨k, b, [], 0⟩ 1 u = ptGo ⟨k, b, [], 0⟩ (.txBody 1)
      (ptSetCrc (crc16Update u.cfg.poly u.pt.crc cc) u) := by
    intro u hu
    simp only at hq h
    simp [ptToTx, hu, hq, h]
  rw [next] at first
  case a => rfl
  have second := brings_ptWrite (op := ⟨k, b, [], 0⟩) (p := .txBody 1) (s := (ptSetCrc (crc16Update s.cfg.poly
      (crc16 s.cfg.poly s.cfg.crcInit [s.cfg.address]) cc) { s with
        pt := { s.pt with attempts := s.pt.attempts + 1 }
        hist := s.hist ++ [.write .pt ((ptRequest s.cfg k).getD 0 0) true] }))
    (b := (ptRequest s.cfg k).getD 1 0) (ptToTx_blind _ 2) (fun v x => rfl)
  have last : ∀ u : State, u.cfg = s.cfg → ptToTx ⟨k, b, [], 0⟩ 2 u = ptToRx ⟨k, b, [], 0⟩ u := by
    intro u hu
    simp only at hq h
    simp [ptToTx, hu, hq, h]
  rw [last] at second
  case a => rfl
  rw [begin0]
  have all := first.trans second
  simp only at hq
  rw [hq] at all
  simpa [writes, State.log, ptGo, ptSetCrc, crc16] using all

end Sys2Proof.Machine
end

