-- ==== Sys2Proof/Laws/Frames.lean ====
section
/-! SUPPORT. What the shared operations of one unit leave alone: the other units, the configuration, the schedule, the host's
bytes; and that they only add to the event history. -/

namespace Sys2Proof.Machine

/-- From `s` to `t` only unit `u` may have changed, and the parts of the state that no unit holds. -/
structure Frame (u : UnitName) (s t : State) : Prop where
  cfg : t.cfg = s.cfg
  sched : t.sched = s.sched
  host : t.host = s.host
  hist : ∃ cs, t.hist = s.hist ++ cs
  pt : u ≠ .pt → t.pt = s.pt
  cr : u ≠ .cr → t.cr = s.cr
  sp : u ≠ .sp → t.sp = s.sp
  pg : u ≠ .pg → t.pg = s.pg

namespace Frame

variable {u : UnitName} {s t r : State}

theorem refl (u : UnitName) (s : State) : Frame u s s :=
  ⟨rfl, rfl, rfl, ⟨[], by simp⟩, fun _ => rfl, fun _ => rfl, fun _ => rfl, fun _ => rfl⟩

theorem trans (h : Frame u s t) (k : Frame u t r) : Frame u s r := by
  obtain ⟨cs, hc⟩ := h.hist
  obtain ⟨ds, hd⟩ := k.hist
  exact ⟨k.cfg.trans h.cfg, k.sched.trans h.sched, k.host.trans h.host, ⟨cs ++ ds, by rw [hd, hc, List.append_assoc]⟩,
    fun n => (k.pt n).trans (h.pt n), fun n => (k.cr n).trans (h.cr n), fun n => (k.sp n).trans (h.sp n),
    fun n => (k.pg n).trans (h.pg n)⟩

end Frame

/-! ### Any unit -/

theorem log_frame (u : UnitName) (s : State) (cs : List Call) : Frame u s (s.log cs) :=
  ⟨rfl, rfl, rfl, ⟨cs, rfl⟩, fun _ => rfl, fun _ => rfl, fun _ => rfl, fun _ => rfl⟩

theorem setRx_frame (u : UnitName) (s : State) (ch : Chan) (b : List Byte) : Frame u s (s.setRx ch b) := by
  cases ch <;> exact ⟨rfl, rfl, rfl, ⟨[], by simp [State.setRx]⟩, fun _ => rfl, fun _ => rfl, fun _ => rfl, fun _ => rfl⟩

theorem env_frame (u : UnitName) (s : State) (ms : List EnvMove) : Frame u s { s with env := ms } :=
  ⟨rfl, rfl, rfl, ⟨[], by simp⟩, fun _ => rfl, fun _ => rfl, fun _ => rfl, fun _ => rfl⟩

theorem busy_frame (u : UnitName) (s : State) (b : Option Pending) : Frame u s { s with busy := b } :=
  ⟨rfl, rfl, rfl, ⟨[], by simp⟩, fun _ => rfl, fun _ => rfl, fun _ => rfl, fun _ => rfl⟩

theorem opReturn_frame (u : UnitName) (ok : Bool) (e : BitVec 3) (d : Data) (s : State) :
    Frame u s (opReturn u ok e d s) := by
  cases u <;>
    exact ⟨rfl, rfl, rfl, ⟨[], by simp⟩, fun n => by first | rfl | exact absurd rfl n,
      fun n => by first | rfl | exact absurd rfl n, fun n => by first | rfl | exact absurd rfl n,
      fun n => by first | rfl | exact absurd rfl n⟩

theorem opError_frame (u : UnitName) (e : ErrClass) (s : State) : Frame u s (opError u e s) := opReturn_frame _ _ _ _ _

theorem opOk_frame (u : UnitName) (d : Data) (s : State) : Frame u s (opOk u d s) := opReturn_frame _ _ _ _ _

theorem chRead_frame (u : UnitName) (s : State) (ch : Chan) (v : Verdict) : Frame u s (s.chRead ch v).2 := by
  unfold State.chRead
  split
  · exact log_frame _ _ _
  · split
    · exact Frame.refl _ _
    · exact (setRx_frame _ _ _ _).trans (log_frame _ _ _)

/-- Running an operation whose answers keep the frame keeps it. -/
theorem drive_frame {u : UnitName} {adv : Verdict → State → State} (h : ∀ v s, Frame u s (adv v s)) (ms : List EnvMove)
    (s : State) : Frame u s (drive adv ms s) :=
  drive_keeps (P := Frame u s) (fun _ _ _ k => k.trans (setRx_frame _ _ _ _)) (fun _ _ k => k.trans (env_frame _ _ _))
    (fun _ _ k => k.trans (h _ _)) ms s (Frame.refl _ _)

/-! ### PT -/

theorem pt_frame (s : State) (p : PtUnit) : Frame .pt s { s with pt := p } :=
  ⟨rfl, rfl, rfl, ⟨[], by simp⟩, fun n => absurd rfl n, fun _ => rfl, fun _ => rfl, fun _ => rfl⟩

theorem ptGo_frame (op : PtOp) (p : PtPhase) (s : State) : Frame .pt s (ptGo op p s) :=
  (pt_frame s { s.pt with phase := p }).trans (busy_frame _ _ _)

theorem ptToRx_frame (op : PtOp) (s : State) : Frame .pt s (ptToRx op s) := by
  unfold ptToRx; split <;> exact ptGo_frame _ _ _

theorem ptToTx_frame (op : PtOp) (i : Nat) (s : State) : Frame .pt s (ptToTx op i s) := by
  unfold ptToTx
  split
  · split
    · exact ptGo_frame _ _ _
    · exact (pt_frame _ _).trans (ptGo_frame _ _ _)
  · split
    · exact ptGo_frame _ _ _
    · exact ptToRx_frame _ _

theorem ptBegin_frame (op : PtOp) (s : State) : Frame .pt s (ptBegin op s) := (pt_frame s _).trans (ptToTx_frame _ _ _)

theorem ptError_frame (e : ErrClass) (op : PtOp) (s : State) : Frame .pt s (ptError e op s) := by
  refine Frame.trans ?_ (opError_frame _ _ _)
  unfold ptDropData
  split
  · exact pt_frame _ _
  · exact pt_frame _ _
  · exact Frame.refl _ _
  · exact Frame.refl _ _

theorem ptNextAttempt_frame (e : ErrClass) (op : PtOp) (s : State) : Frame .pt s (ptNextAttempt e op s) := by
  unfold ptNextAttempt; split
  · exact ptBegin_frame _ _
  · exact ptError_frame _ _ _

theorem ptAfterFrame_frame (op : PtOp) (s : State) : Frame .pt s (ptAfterFrame op s) := by
  unfold ptAfterFrame; split
  · exact ptGo_frame _ _ _
  · exact opOk_frame _ _ _
  · exact ptGo_frame _ _ _
  · exact Frame.refl _ _
  · exact Frame.refl _ _

theorem ptCheck_frame (op : PtOp) (s : State) : Frame .pt s (ptCheck op s) := by
  unfold ptCheck; split
  · split
    · exact (pt_frame _ _).trans (opOk_frame _ _ _)
    · exact (pt_frame _ _).trans (opOk_frame _ _ _)
    · exact Frame.refl _ _
  · exact ptNextAttempt_frame _ _ _

theorem ptWrite_frame (op : PtOp) (b : Byte) {k : State → State} (hk : ∀ s, Frame .pt s (k s)) (v : Verdict) (s : State) :
    Frame .pt s (ptWrite op b k v s) := by
  cases v
  · exact (log_frame _ _ _).trans (hk _)
  · exact (log_frame _ _ _).trans (ptNextAttempt_frame _ _ _)

theorem ptRead_frame (op : PtOp) {k : Byte → State → State} (hk : ∀ b s, Frame .pt s (k b s)) (v : Verdict) (s : State) :
    Frame .pt s (ptRead op k v s) := by
  have h := chRead_frame .pt s .pt v
  unfold ptRead
  split <;> rename_i he <;> rw [he] at h
  · exact h.trans (hk _ _)
  · exact h.trans (ptNextAttempt_frame _ _ _)
  · exact h

theorem ptData_frame (op : PtOp) (b : Byte) (s : State) : Frame .pt s (ptData op b s) := by
  unfold ptData; split
  · exact opOk_frame _ _ _
  all_goals exact (pt_frame _ _).trans (ptToRx_frame _ _)

theorem ptWait_frame (op : PtOp) (v : Verdict) (s : State) : Frame .pt s (ptWait op v s) := by
  unfold ptWait; split
  · exact (log_frame _ _ _).trans (ptGo_frame _ _ _)
  · exact Frame.refl _ _
  · exact (log_frame _ _ _).trans (ptError_frame _ _ _)

theorem ptCall_frame (op : PtOp) (v : Verdict) (s : State) : Frame .pt s (ptCall op v s) := by
  unfold ptCall
  split
  · exact ptWrite_frame _ _ (ptToTx_frame _ _) _ _
  · exact ptWrite_frame _ _ (ptGo_frame _ _) _ _
  · exact ptWrite_frame _ _ (ptAfterFrame_frame _) _ _
  · refine ptRead_frame _ (fun b s' => ?_) _ _
    split
    · exact opOk_frame _ _ _
    · exact ptNextAttempt_frame _ _ _
  · exact ptRead_frame _ (ptData_frame _) _ _
  · exact ptRead_frame _ (fun b => ptGo_frame _ _) _ _
  · exact ptRead_frame _ (fun b s => (pt_frame _ _).trans (ptCheck_frame _ _)) _ _
  · exact ptWait_frame _ _ _
  · exact ptCheck_frame _ _
  · exact Frame.refl _ _

/-- One answer of the environment touches PT alone. -/
theorem ptAdvance_frame (v : Verdict) (s : State) : Frame .pt s (ptAdvance v s) := by
  unfold ptAdvance; split
  · exact ptCall_frame _ _ _
  · exact Frame.refl _ _

theorem ptStart_frame (k : PtKind) (n : Nat) (s : State) : Frame .pt s (ptStart k n s) :=
  (pt_frame s _).trans (ptBegin_frame _ _)

/-! ### CR -/

theorem cr_frame (s : State) (c : CrUnit) : Frame .cr s { s with cr := c } :=
  ⟨rfl, rfl, rfl, ⟨[], by simp⟩, fun _ => rfl, fun n => absurd rfl n, fun _ => rfl, fun _ => rfl⟩

theorem crGo_frame (op : CrOp) (p : CrPhase) (s : State) : Frame .cr s (crGo op p s) :=
  (cr_frame s { s.cr with phase := p }).trans (busy_frame _ _ _)

theorem crError_frame (e : ErrClass) (op : CrOp) (s : State) : Frame .cr s (crError e op s) := by
  refine Frame.trans ?_ (opError_frame _ _ _)
  unfold crDropData
  split <;> exact cr_frame _ _

theorem crDeliver_frame (d : List (BitVec 16)) (s : State) : Frame .cr s (crDeliver d s) :=
  (cr_frame _ _).trans (opOk_frame _ _ _)

theorem crNextWord_frame (op : CrOp) (n : Nat) (s : State) : Frame .cr s (crNextWord op n s) := by
  unfold crNextWord; split
  · exact crGo_frame _ _ _
  · exact crDeliver_frame _ _

theorem crAfterTx_frame (op : CrOp) (s : State) : Frame .cr s (crAfterTx op s) := by
  unfold crAfterTx; split
  · exact opOk_frame _ _ _
  · exact opOk_frame _ _ _
  · exact crGo_frame _ _ _
  · exact crGo_frame _ _ _
  · exact crNextWord_frame _ _ _
  · exact (log_frame _ _ _).trans (crGo_frame _ _ _)
  · exact crGo_frame _ _ _

theorem crToTx_frame (op : CrOp) (i : Nat) (s : State) : Frame .cr s (crToTx op i s) := by
  unfold crToTx; split
  · exact crGo_frame _ _ _
  · exact crAfterTx_frame _ _

theorem crUse_frame (op : CrOp) (w : BitVec 16) (s : State) : Frame .cr s (crUse op w s) := by
  unfold crUse; split
  · exact opOk_frame _ _ _
  · exact crNextWord_frame _ _ _
  · exact (cr_frame _ _).trans (opOk_frame _ _ _)
  · exact (cr_frame _ _).trans (opOk_frame _ _ _)
  · split
    · exact crNextWord_frame _ _ _
    · split
      · exact crError_frame _ _ _
      · exact crNextWord_frame _ _ _
  · exact Frame.refl _ _
  · exact Frame.refl _ _

theorem crWrite_frame (op : CrOp) (b : Byte) {k : State → State} (hk : ∀ s, Frame .cr s (k s)) (v : Verdict) (s : State) :
    Frame .cr s (crWrite op b k v s) := by
  cases v
  · exact (log_frame _ _ _).trans (hk _)
  · exact (log_frame _ _ _).trans (crError_frame _ _ _)

theorem crRead_frame (op : CrOp) {k : Byte → State → State} (hk : ∀ b s, Frame .cr s (k b s)) (v : Verdict) (s : State) :
    Frame .cr s (crRead op k v s) := by
  have h := chRead_frame .cr s .cr v
  unfold crRead
  split <;> rename_i he <;> rw [he] at h
  · exact h.trans (hk _ _)
  · exact h.trans (crError_frame _ _ _)
  · exact h

theorem crIdTest_frame (op : CrOp) (s : State) : Frame .cr s (crIdTest op s) := by
  unfold crIdTest; split
  · exact crError_frame _ _ _
  · exact crGo_frame _ _ _

theorem crPollTest_frame (op : CrOp) (s : State) : Frame .cr s (crPollTest op s) := by
  unfold crPollTest; split
  · exact crGo_frame _ _ _
  · split
    · exact (log_frame _ _ _).trans (crGo_frame _ _ _)
    · exact (cr_frame _ _).trans (opOk_frame _ _ _)

theorem crCall_frame (op : CrOp) (v : Verdict) (s : State) : Frame .cr s (crCall op v s) := by
  unfold crCall
  split
  · exact crWrite_frame _ _ (crToTx_frame _ _) _ _
  · exact crRead_frame _ (fun b => crGo_frame _ _) _ _
  · exact crRead_frame _ (fun b s => (cr_frame _ _).trans (crUse_frame _ _ _)) _ _
  · exact (log_frame _ _ _).trans (crIdTest_frame _ _)
  · exact (log_frame _ _ _).trans (crPollTest_frame _ _)
  · exact Frame.refl _ _

/-- One answer of the environment touches CR alone. -/
theorem crAdvance_frame (v : Verdict) (s : State) : Frame .cr s (crAdvance v s) := by
  unfold crAdvance; split
  · exact crCall_frame _ _ _
  · exact Frame.refl _ _

theorem crStart_frame (k : CrKind) (s : State) : Frame .cr s (crStart k s) := crToTx_frame _ _ _

/-! ### SP -/

theorem sp_frame (s : State) (p : SpUnit) : Frame .sp s { s with sp := p } :=
  ⟨rfl, rfl, rfl, ⟨[], by simp⟩, fun _ => rfl, fun _ => rfl, fun n => absurd rfl n, fun _ => rfl⟩

theorem qPush_frame (e : QElem) (s : State) : Frame .sp s (qPush e s) := by
  unfold qPush; split
  · exact (sp_frame _ _).trans (log_frame _ _ _)
  · exact sp_frame _ _

theorem spTake_frame (s : State) : Frame .sp s (spTake s) := by
  unfold spTake; split
  · exact Frame.refl _ _
  · exact (sp_frame _ _).trans (opOk_frame _ _ _)

theorem spAdvance_frame (v : Verdict) (s : State) : Frame .sp s (spAdvance v s) := by
  unfold spAdvance; split
  · exact (log_frame _ _ _).trans (opError_frame _ _ _)
  · exact Frame.refl _ _

theorem spPoptRun_frame (s : State) : Frame .sp s (spPoptRun s) := (spTake_frame s).trans (drive_frame spAdvance_frame _ _)

theorem spPushSample_frame (ts : BitVec 64) (v : SampleValue) (s : State) : Frame .sp s (spPushSample ts v s) :=
  (sp_frame _ _).trans (qPush_frame _ _)

theorem spIntegrate_frame (v : List (BitVec 32)) (s : State) : Frame .sp s (spIntegrate v s) :=
  (sp_frame _ _).trans (qPush_frame _ _)

/-- One interrupt touches SP alone. -/
theorem spIrq_frame {ts : BitVec 64} {raw : List (BitVec 32)} {s t : State} (h : spIrq ts raw s = .next t) :
    Frame .sp s t := by
  unfold spIrq at h
  split at h
  · refine (log_frame .sp s [.busRead (busVector s.cfg raw)]).trans ?_
    generalize s.log [.busRead (busVector s.cfg raw)] = s1 at h ⊢
    unfold spHandle at h
    split at h
    · cases h; exact spPushSample_frame _ _ _
    · unfold spCalibrate at h
      split at h
      · cases h; exact sp_frame _ _
      · cases h
    all_goals
      cases h
      first | exact spPushSample_frame _ _ _ | exact spIntegrate_frame _ _
  · cases h; exact Frame.refl _ _

/-! ### PG -/

theorem pg_frame (s : State) (p : PgUnit) : Frame .pg s { s with pg := p } :=
  ⟨rfl, rfl, rfl, ⟨[], by simp⟩, fun _ => rfl, fun _ => rfl, fun _ => rfl, fun n => absurd rfl n⟩

theorem setStep_frame (b : Bool) (s : State) : Frame .pg s (setStep b s) := (pg_frame _ _).trans (log_frame _ _ _)

theorem setDir_frame (d : Dir) (s : State) : Frame .pg s (setDir d s) := (pg_frame _ _).trans (log_frame _ _ _)

theorem pgGo_frame (p : PgPhase) (s : State) : Frame .pg s (pgGo p s) := pg_frame _ _

theorem emitComplete_frame (b : Bool) (s : State) : Frame .pg s (emitComplete b s) := by
  cases b
  · exact Frame.refl _ _
  · exact log_frame _ _ _

theorem haltLoop_frame (s : State) : Frame .pg s (haltLoop s) :=
  ⟨rfl, rfl, rfl, ⟨[.toggleStop], rfl⟩, fun _ => rfl, fun _ => rfl, fun _ => rfl, fun n => absurd rfl n⟩

theorem stopLoop_frame (s : State) : Frame .pg s (stopLoop s) := by
  unfold stopLoop; split
  · exact (haltLoop_frame _).trans (emitComplete_frame _ _)
  · exact pg_frame _ _

theorem launchNext_frame (op : LaunchOp) (a : LaunchAct) (s : State) : Frame .pg s (launchNext op a s) := busy_frame _ _ _

theorem launchSettle_frame (op : LaunchOp) (s : State) : Frame .pg s (launchSettle op s) :=
  (pgGo_frame _ _).trans (launchNext_frame _ _ _)

theorem launchStop_frame (op : LaunchOp) (s : State) : Frame .pg s (launchStop op s) := by
  unfold launchStop; split
  · exact (haltLoop_frame _).trans (launchNext_frame _ _ _)
  · exact (haltLoop_frame _).trans (launchSettle_frame _ _)

theorem launched_frame (op : LaunchOp) (s : State) : Frame .pg s (launched op s) := by
  unfold launched; split
  · exact opOk_frame _ _ _
  · exact busy_frame _ _ _

/-- One action of PG.RUN or PG.STEPCOUNT touches PG alone. -/
theorem launchStep_frame (op : LaunchOp) (s : State) : Frame .pg s (launchStep op s) := by
  unfold launchStep; split
  · exact (emitComplete_frame _ _).trans (launchSettle_frame _ _)
  · exact (log_frame _ _ _).trans (launchNext_frame _ _ _)
  · exact ((pg_frame _ _).trans (setDir_frame _ _)).trans (launchNext_frame _ _ _)
  · exact (pg_frame _ _).trans (launchNext_frame _ _ _)
  · exact (log_frame _ _ _).trans (launchNext_frame _ _ _)
  · exact ((setStep_frame _ _).trans (pgGo_frame _ _)).trans (launched_frame _ _)

theorem pgLoopEnd_frame (s : State) : Frame .pg s (pgLoopEnd s) := by
  unfold pgLoopEnd; split
  · exact opOk_frame _ _ _
  · exact Frame.refl _ _

/-- One toggle step touches PG alone. -/
theorem pgToggle_frame {s t : State} (h : pgToggle s = .next t) : Frame .pg s t := by
  unfold pgToggle at h
  split at h
  · cases h; exact (setStep_frame _ _).trans (pgGo_frame _ _)
  · unfold toggleLow at h
    split at h
    · dsimp only at h
      split at h
      · cases h; exact (pg_frame _ _).trans (pgGo_frame _ _)
      · cases h; exact ((pg_frame _ _).trans (setStep_frame _ _)).trans (pgGo_frame _ _)
    · cases h
  · cases h; exact ((pg_frame _ _).trans (emitComplete_frame _ _)).trans (pgGo_frame _ _)
  all_goals cases h; exact Frame.refl _ _

/-! ### The operation in progress -/

/-- Going on with the environment's moves touches the unit of the operation in progress alone. -/
theorem goOn_frame {s : State} {p : Pending} (h : s.busy = some p) : Frame p.unit s (goOn s) := by
  unfold goOn
  rw [h]
  cases p with
  | pt op => exact drive_frame ptAdvance_frame _ _
  | cr op => exact drive_frame crAdvance_frame _ _
  | popt ms => exact spPoptRun_frame _
  | pop => exact Frame.refl _ _
  | launch op => exact Frame.refl _ _
  | loopEnd => exact Frame.refl _ _

/-- Going on with the operation in progress touches its unit alone. -/
theorem resume_frame {s : State} {p : Pending} (h : s.busy = some p) : Frame p.unit s (resume s) := by
  unfold resume
  rw [h]
  cases p with
  | pt op => exact goOn_frame h
  | cr op => exact goOn_frame h
  | popt ms => exact goOn_frame h
  | pop => exact spTake_frame _
  | launch op => exact launchStep_frame _ _
  | loopEnd => exact pgLoopEnd_frame _

end Sys2Proof.Machine
end

