-- ==== Sys2Proof/Laws/Keeps.lean ====
section
/-! SUPPORT. One induction for each of PT and CR: what every phase change, every register write, every history entry and every
return of the unit keeps, its operations keep. An invariant of the whole machine is shown for PT and CR by giving the
fields of `PtKeeps` and `CrKeeps`. -/

namespace Sys2Proof.Machine

variable {P : State → Prop}

/-! ### PT -/

/-- What the steps of a PT operation keep. A register write leaves the flags, and leaves the phase unless the operation is in
progress. -/
structure PtKeeps (P : State → Prop) : Prop where
  go : ∀ op ph s, P s → P (ptGo op ph s)
  upd : ∀ s (p : PtUnit), P s → p.phase = s.pt.phase → p.ok = s.pt.ok → p.err = s.pt.err → P { s with pt := p }
  updB : ∀ s (p : PtUnit), P s → (∃ op, s.busy = some (.pt op)) → p.ok = s.pt.ok → p.err = s.pt.err →
    P { s with pt := p }
  log : ∀ s cs, P s → P (s.log cs)
  rx : ∀ s ch b, P s → P (s.setRx ch b)
  env : ∀ s ms, P s → P { s with env := ms }
  ok : ∀ s d, P s → P (opOk .pt d s)
  er : ∀ s e, e ∈ [ErrClass.communicationFailure, .integrityFailure, .deviceUnavailable] → P s → P (opError .pt e s)

theorem ptToRx_keeps (h : PtKeeps P) (op : PtOp) (s : State)
    (p : P s) : P (ptToRx op s) := by unfold ptToRx; split <;> exact h.go _ _ _ p

theorem ptToTx_keeps (h : PtKeeps P) (op i s) (p : P s) : P (ptToTx op i s) := by
  unfold ptToTx; split
  · split
    · exact h.go _ _ _ p
    · exact h.go _ _ _ (h.upd _ _ p rfl rfl rfl)
  · split
    · exact h.go _ _ _ p
    · exact ptToRx_keeps h _ _ p

theorem ptBegin_keeps (h : PtKeeps P) (op : PtOp) (s : State)
    (p : P s) : P (ptBegin op s) := ptToTx_keeps h _ _ _ (h.upd _ _ p rfl rfl rfl)

theorem ptError_keeps (h : PtKeeps P) (e op s) (he : e ∈ [.communicationFailure, .integrityFailure, .deviceUnavailable])
    (p : P s) : P (ptError e op s) := by
  refine h.er _ _ he ?_
  unfold ptDropData; split
  · exact h.upd _ _ p rfl rfl rfl
  · exact h.upd _ _ p rfl rfl rfl
  · exact p
  · exact p

theorem ptNextAttempt_keeps (h : PtKeeps P) (e op s) (he : e ∈ [.communicationFailure, .integrityFailure, .deviceUnavailable])
    (p : P s) : P (ptNextAttempt e op s) := by
  unfold ptNextAttempt; split
  · exact ptBegin_keeps h _ _ p
  · exact ptError_keeps h _ _ _ he p

theorem ptAfterFrame_keeps (h : PtKeeps P) (op : PtOp) (s : State) (p : P s) : P (ptAfterFrame op s) := by
  unfold ptAfterFrame; split
  · exact h.go _ _ _ p
  · exact h.ok _ _ p
  · exact h.go _ _ _ p
  · exact p
  · exact p

theorem ptCheck_keeps (h : PtKeeps P) (op : PtOp) (s : State) (p : P s) : P (ptCheck op s) := by
  unfold ptCheck; split
  · split
    · exact h.ok _ _ (h.upd _ _ p rfl rfl rfl)
    · exact h.ok _ _ (h.upd _ _ p rfl rfl rfl)
    · exact p
  · exact ptNextAttempt_keeps h _ _ _ (by simp) p

theorem ptWrite_keeps (h : PtKeeps P) (op b v s) {k : State → State} (hk : ∀ s, P s → P (k s))
    (p : P s) : P (ptWrite op b k v s) := by
  cases v
  · exact hk _ (h.log _ _ p)
  · exact ptNextAttempt_keeps h _ _ _ (by simp) (h.log _ _ p)

theorem ptRead_keeps (h : PtKeeps P) (op v s) {k : Byte → State → State} (hb : ∃ op, s.busy = some (.pt op))
    (hk : ∀ b s, (∃ op, s.busy = some (.pt op)) → P s → P (k b s))
    (p : P s) : P (ptRead op k v s) := by
  unfold ptRead State.chRead
  cases v
  · dsimp only
    split <;> rename_i he
    · split at he
      · cases he
      · cases he; exact hk _ _ (by simpa using hb) (h.log _ _ (h.rx _ _ _ p))
    · split at he <;> cases he
    · split at he <;> cases he; exact p
  · exact ptNextAttempt_keeps h _ _ _ (by simp) (h.log _ _ p)


theorem ptAdvance_keeps (h : PtKeeps P) (v s) (p : P s) : P (ptAdvance v s) := by
  unfold ptAdvance
  split
  · rename_i op hb
    unfold ptCall
    split
    · exact ptWrite_keeps h _ _ _ _ (fun s p => ptToTx_keeps h _ _ _ p) p
    · exact ptWrite_keeps h _ _ _ _ (fun s p => h.go _ _ _ p) p
    · exact ptWrite_keeps h _ _ _ _ (fun s p => ptAfterFrame_keeps h _ _ p) p
    · refine ptRead_keeps h _ _ _ ⟨_, hb⟩ (fun b s _ p => ?_) p
      split
      · exact h.ok _ _ p
      · exact ptNextAttempt_keeps h _ _ _ (by simp) p
    · refine ptRead_keeps h _ _ _ ⟨_, hb⟩ (fun b s _ p => ?_) p
      unfold ptData; split
      · exact h.ok _ _ p
      all_goals exact ptToRx_keeps h _ _ (h.upd _ _ p rfl rfl rfl)
    · exact ptRead_keeps h _ _ _ ⟨_, hb⟩ (fun b s _ p => h.go _ _ _ p) p
    · exact ptRead_keeps h _ _ _ ⟨_, hb⟩ (fun b s hb p => ptCheck_keeps h _ _ (h.updB _ _ p hb rfl rfl)) p
    · unfold ptWait; split
      · exact h.go _ _ _ (h.log _ _ p)
      · exact p
      · exact ptError_keeps h _ _ _ (by simp) (h.log _ _ p)
    · exact ptCheck_keeps h _ _ p
    · exact p
  · exact p


theorem drive_ptKeeps (h : PtKeeps P) (ms s) (p : P s) : P (drive ptAdvance ms s) :=
  drive_keeps (fun _ _ _ p => h.rx _ _ _ p) (fun _ _ p => h.env _ _ p) (fun _ _ p => ptAdvance_keeps h _ _ p) _ _ p


theorem ptStart_keeps (h : PtKeeps P) (k n s) (p : P s) : P (ptStart k n s) := ptBegin_keeps h _ _ (h.upd _ _ p rfl rfl rfl)

/-! ### CR -/

/-- What the steps of a CR operation keep. -/
structure CrKeeps (P : State → Prop) : Prop where
  go : ∀ op ph s, P s → P (crGo op ph s)
  upd : ∀ s (p : CrUnit), P s → p.phase = s.cr.phase → p.ok = s.cr.ok → p.err = s.cr.err → P { s with cr := p }
  log : ∀ s cs, P s → P (s.log cs)
  rx : ∀ s ch b, P s → P (s.setRx ch b)
  env : ∀ s ms, P s → P { s with env := ms }
  ok : ∀ s d, P s → P (opOk .cr d s)
  er : ∀ s e, e ∈ [ErrClass.communicationFailure, .protocolFault, .deviceUnavailable] → P s → P (opError .cr e s)

theorem crError_keeps (h : CrKeeps P) (e op s) (he : e ∈ [.communicationFailure, .protocolFault, .deviceUnavailable])
    (p : P s) : P (crError e op s) := by
  refine h.er _ _ he ?_
  unfold crDropData; split <;> exact h.upd _ _ p rfl rfl rfl

theorem crDeliver_keeps (h : CrKeeps P) (d s) (p : P s) : P (crDeliver d s) := h.ok _ _ (h.upd _ _ p rfl rfl rfl)

theorem crNextWord_keeps (h : CrKeeps P) (op n s) (p : P s) : P (crNextWord op n s) := by
  unfold crNextWord; split
  · exact h.go _ _ _ p
  · exact crDeliver_keeps h _ _ p

theorem crAfterTx_keeps (h : CrKeeps P) (op : CrOp) (s : State) (p : P s) : P (crAfterTx op s) := by
  unfold crAfterTx; split
  · exact h.ok _ _ p
  · exact h.ok _ _ p
  · exact h.go _ _ _ p
  · exact h.go _ _ _ p
  · exact crNextWord_keeps h _ _ _ p
  · exact h.go _ _ _ (h.log _ _ p)
  · exact h.go _ _ _ p

theorem crToTx_keeps (h : CrKeeps P) (op i s) (p : P s) : P (crToTx op i s) := by
  unfold crToTx; split
  · exact h.go _ _ _ p
  · exact crAfterTx_keeps h _ _ p

theorem crUse_keeps (h : CrKeeps P) (op w s) (p : P s) : P (crUse op w s) := by
  unfold crUse; split
  · exact h.ok _ _ p
  · exact crNextWord_keeps h _ _ _ p
  · exact h.ok _ _ (h.upd _ _ p rfl rfl rfl)
  · exact h.ok _ _ (h.upd _ _ p rfl rfl rfl)
  · split
    · exact crNextWord_keeps h _ _ _ p
    · split
      · exact crError_keeps h _ _ _ (by simp) p
      · exact crNextWord_keeps h _ _ _ p
  · exact p
  · exact p

theorem crWrite_keeps (h : CrKeeps P) (op b v s) {k : State → State} (hk : ∀ s, P s → P (k s))
    (p : P s) : P (crWrite op b k v s) := by
  cases v
  · exact hk _ (h.log _ _ p)
  · exact crError_keeps h _ _ _ (by simp) (h.log _ _ p)

theorem crRead_keeps (h : CrKeeps P) (op v s) {k : Byte → State → State} (hk : ∀ b s, P s → P (k b s))
    (p : P s) : P (crRead op k v s) := by
  unfold crRead State.chRead
  cases v
  · dsimp only
    split <;> rename_i he
    · split at he
      · cases he
      · cases he; exact hk _ _ (h.log _ _ (h.rx _ _ _ p))
    · split at he <;> cases he
    · split at he <;> cases he; exact p
  · exact crError_keeps h _ _ _ (by simp) (h.log _ _ p)

theorem crAdvance_keeps (h : CrKeeps P) (v s) (p : P s) : P (crAdvance v s) := by
  unfold crAdvance
  split
  · unfold crCall
    split
    · exact crWrite_keeps h _ _ _ _ (fun s p => crToTx_keeps h _ _ _ p) p
    · exact crRead_keeps h _ _ _ (fun b s p => h.go _ _ _ p) p
    · exact crRead_keeps h _ _ _ (fun b s p => crUse_keeps h _ _ _ (h.upd _ _ p rfl rfl rfl)) p
    · unfold crIdTest; split
      · exact crError_keeps h _ _ _ (by simp) (h.log _ _ p)
      · exact h.go _ _ _ (h.log _ _ p)
    · unfold crPollTest; split
      · exact h.go _ _ _ (h.log _ _ p)
      · split
        · exact h.go _ _ _ (h.log _ _ (h.log _ _ p))
        · exact h.ok _ _ (h.upd _ _ (h.log _ _ p) rfl rfl rfl)
    · exact p
  · exact p

theorem drive_crKeeps (h : CrKeeps P) (ms s) (p : P s) : P (drive crAdvance ms s) :=
  drive_keeps (fun _ _ _ p => h.rx _ _ _ p) (fun _ _ p => h.env _ _ p) (fun _ _ p => crAdvance_keeps h _ _ p) _ _ p

theorem crStart_keeps (h : CrKeeps P) (k s) (p : P s) : P (crStart k s) := crToTx_keeps h _ _ _ p

end Sys2Proof.Machine
end

