-- ==== Sys2Proof/Laws/Step.lean ====
section
/-! SUPPORT. What one step is: whose turn it is, what the host's turn does, and that a next state of an operation comes from a
free host. -/

namespace Sys2Proof.Machine

/-- With an empty schedule the host moves. -/
theorem step_host {s : State} (hc : legalConfig s.cfg = true) (hs : s.sched = []) : step s = hostTurn s := by
  simp [step, nextStep, hc, hs]

/-- The head of the schedule moves, and is taken off it. -/
theorem step_event {s : State} {e : Event} {es : List Event} (hc : legalConfig s.cfg = true) (hs : s.sched = e :: es) :
    step s = takeEvent e { s with sched := es } := by
  simp [step, nextStep, hc, hs]

/-- The host moves: nothing is scheduled, or its entry is the next one, which is taken off. -/
theorem step_hostTurn {s : State} {es : List Event} (hc : legalConfig s.cfg = true) (hs : HostTurns 1 s es) : step s = hostTurn { s with sched := es } := by
  rcases hs with ⟨hs, rfl⟩ | hs
  · rw [step_host hc hs, ← hs]
  · exact step_event hc hs

/-- A configuration outside its domains is refused. -/
theorem step_illegal {s : State} (hc : legalConfig s.cfg = false) : step s = .refused .illegalConfig := by
  simp [step, nextStep, hc]

/-- A next state needs a legal configuration. -/
theorem legal_of_step {s t : State} (h : step s = .next t) : legalConfig s.cfg = true := by
  cases hc : legalConfig s.cfg with
  | true => rfl
  | false => simp [step, nextStep, hc] at h

theorem hostTurn_busy {s : State} {p : Pending} (h : s.busy = some p) : hostTurn s = .next (resume s) := by
  simp [hostTurn, h]

/-- The host's turn inside PG.RUN or PG.STEPCOUNT is its next action. -/
theorem step_launch {s : State} {op : LaunchOp} {es : List Event} (hc : legalConfig s.cfg = true)
    (hs : HostTurns 1 s es) (hb : s.busy = some (.launch op)) :
    step s = .next (launchStep op { s with sched := es }) := by
  rw [step_hostTurn hc hs, hostTurn_busy (s := { s with sched := es }) hb]; simp only [resume, hb]

theorem hostTurn_idle {s : State} (hb : s.busy = none) (hh : s.host = []) : hostTurn s = .next s := by
  simp [hostTurn, hb, hh]

theorem hostTurn_exec {s : State} {i : Instr} {rest : List Byte} (hb : s.busy = none)
    (hd : decode s.cfg.flen s.host = .ok (i, rest)) : hostTurn s = exec i { s with host := rest } := by
  have hn : s.host ≠ [] := by intro e; rw [e] at hd; simp [decode] at hd
  simp [hostTurn, hb, hn, fetch, hd]

theorem hostTurn_reject {s : State} {e : Reject} (hb : s.busy = none) (hn : s.host ≠ [])
    (hd : decode s.cfg.flen s.host = .error e) : hostTurn s = .refused (.descriptor e) := by
  simp [hostTurn, hb, hn, fetch, hd]

/-- Every way a step comes to a next state. -/
theorem step_next {s t : State} (h : step s = .next t) :
    (s.sched = [] ∧ hostTurn s = .next t) ∨
    ∃ e es, s.sched = e :: es ∧ takeEvent e { s with sched := es } = .next t := by
  have hc := legal_of_step h
  cases hs : s.sched with
  | nil => exact .inl ⟨rfl, by rw [← h, step_host hc hs]⟩
  | cons e es => exact .inr ⟨e, es, rfl, by rw [← h, step_event hc hs]⟩

/-- Every way the host's turn comes to a next state. -/
theorem hostTurn_next {s t : State} (h : hostTurn s = .next t) :
    t = s ∨ t = resume s ∨ s.busy = none ∧ ∃ i rest, exec i { s with host := rest } = .next t := by
  cases hb : s.busy with
  | some p => rw [hostTurn_busy hb] at h; cases h; exact .inr (.inl rfl)
  | none =>
    by_cases hn : s.host = []
    · rw [hostTurn_idle hb hn] at h; cases h; exact .inl rfl
    · cases hd : decode s.cfg.flen s.host with
      | error e => rw [hostTurn_reject hb hn hd] at h; cases h
      | ok p =>
        obtain ⟨i, rest⟩ := p
        rw [hostTurn_exec hb hd] at h
        exact .inr (.inr ⟨rfl, i, rest, hb ▸ h⟩)

/-- Every operation is issued: its meaning starts only from a free host. -/
theorem exec_issue (i : Instr) (s : State) : ∃ k, exec i s = issue s k := by
  cases i <;>
    simp only [exec, execPtWriteframe, execPtReadwords, execPtReadbytepair, execPtVerifyid, execCrWritecmd,
      execCrWritecmdp, execCrReadword, execCrReadwordsn, execCrIdcheck, execCrIstaskdone, execCrScanretr, execSpActivate,
      execSpDeactivate, execSpCalend, execSpPop, execSpPopt, execPgRun, execPgStepcount, execPgStop, execPgGetstepcount,
      execPgClose] <;>
    exact ⟨_, rfl⟩

/-- An operation that came to a next state started from a free host. -/
theorem exec_free {i : Instr} {s t : State} (h : exec i s = .next t) : s.busy = none := by
  obtain ⟨k, hk⟩ := exec_issue i s
  exact (issue_next (hk ▸ h)).1

/-- Every way a step comes to a next state, in terms of the operations it calls: nothing happens; the operation in progress
goes on; an operation is issued; an interrupt; a toggle step; an entry of the history, after which the number of the next
free value may be another; a move of the environment, with which an operation that waits for it goes on; the reset. -/
theorem step_forms {s t : State} (h : step s = .next t) :
    ∃ es : List Event,
      t = { s with sched := es } ∨
      (∃ p, s.busy = some p ∧ t = resume { s with sched := es }) ∨
      (s.busy = none ∧ ∃ i rest, exec i { s with sched := es, host := rest } = .next t) ∨
      (∃ ts raw, spIrq ts raw { s with sched := es } = .next t) ∨
      pgToggle { s with sched := es } = .next t ∨
      (∃ c n, t = { { s with sched := es }.log [c] with fresh := n }) ∨
      (∃ m, t = goOn { s with sched := es, env := s.env ++ [m] }) ∨
      t = resetTurn { s with sched := es } := by
  have busy : s.busy = none ∨ ∃ p, s.busy = some p := by cases s.busy <;> simp
  have host : ∀ es, hostTurn { s with sched := es } = .next t →
      t = { s with sched := es } ∨ (∃ p, s.busy = some p ∧ t = resume { s with sched := es }) ∨
      (s.busy = none ∧ ∃ i rest, exec i { s with sched := es, host := rest } = .next t) := by
    intro es h
    rcases busy with hb | ⟨p, hb⟩
    · rcases hostTurn_next h with h | h | ⟨_, i, rest, h⟩
      · exact .inl h
      · exact .inl (by rw [h]; simp only [resume, hb])
      · exact .inr (.inr ⟨hb, i, rest, h⟩)
    · rw [hostTurn_busy (s := { s with sched := es }) hb] at h
      cases h
      exact .inr (.inl ⟨p, hb, rfl⟩)
  rcases step_next h with ⟨hs, h⟩ | ⟨e, es, -, h⟩
  · refine ⟨[], ?_⟩
    rcases host [] (by rw [← hs]; exact h) with h | h | h
    · exact .inl h
    · exact .inr (.inl h)
    · exact .inr (.inr (.inl h))
  · refine ⟨es, ?_⟩
    cases e with
    | host =>
      rcases host es h with h | h | h
      · exact .inl h
      · exact .inr (.inl h)
      · exact .inr (.inr (.inl h))
    | irq ts raw => exact .inr (.inr (.inr (.inl ⟨ts, raw, h⟩)))
    | toggle => exact .inr (.inr (.inr (.inr (.inl h))))
    | answer m =>
      simp only [takeEvent, answerTurn] at h
      cases h
      exact .inr (.inr (.inr (.inr (.inr (.inr (.inl ⟨m, rfl⟩))))))
    | read r =>
      simp only [takeEvent, readTurn] at h
      split at h
      · cases h
      · split at h
        · cases h; exact .inr (.inr (.inr (.inr (.inr (.inl ⟨_, s.fresh, rfl⟩)))))
        · cases h
        · cases h; exact .inr (.inr (.inr (.inr (.inr (.inl ⟨_, _, rfl⟩)))))
    | reset =>
      simp only [takeEvent] at h
      cases h
      exact .inr (.inr (.inr (.inr (.inr (.inr (.inr rfl))))))

end Sys2Proof.Machine
end

