-- ==== Sys2Proof/Laws/Answers.lean ====
section
/-! SUPPORT. Answers given one by one do what the same answers do at once: an operation neither reads nor writes the moves not
yet used and the schedule, and a run over two rows of moves is one run after the other. -/

namespace Sys2Proof.Machine

/-- The moves not yet used and the schedule become `e` and `es`. -/
def State.outside (e : List EnvMove) (es : List Event) (s : State) : State := { s with env := e, sched := es }

/-- A function of the state that neither reads nor writes the moves not yet used and the schedule. -/
def Inside (f : State → State) : Prop := ∀ e es s, f (s.outside e es) = (f s).outside e es

theorem chRead_outside (ch : Chan) (v : Verdict) (e : List EnvMove) (es : List Event) (s : State) :
    (s.outside e es).chRead ch v = ((s.chRead ch v).1, (s.chRead ch v).2.outside e es) := by
  cases v
  · cases ch
    · cases h : s.ptRx <;> simp [State.chRead, State.outside, h, State.setRx, State.log]
    · cases h : s.crRx <;> simp [State.chRead, State.outside, h, State.setRx, State.log]
  · rfl

/-! ### PT -/

theorem ptToRx_inside (op : PtOp) : Inside (ptToRx op) := by
  intro e es s; unfold ptToRx; split <;> rfl

theorem ptToTx_inside (op : PtOp) (i : Nat) : Inside (ptToTx op i) := by
  intro e es s
  have hc : (s.outside e es).cfg = s.cfg := rfl
  unfold ptToTx
  rw [hc]
  split
  · split <;> rfl
  · split
    · rfl
    · exact ptToRx_inside _ _ _ _

theorem ptBegin_inside (op : PtOp) : Inside (ptBegin op) := by
  intro e es s
  exact ptToTx_inside { op with got := [], crcHi := 0 } 0 e es
    { s with pt := { s.pt with
        attempts := s.pt.attempts + 1
        crc := if ptFramed op.kind then crc16 s.cfg.poly s.cfg.crcInit (ptRequest s.cfg op.kind) else s.cfg.crcInit } }

theorem ptError_inside (c : ErrClass) (op : PtOp) : Inside (ptError c op) := by
  intro e es s
  obtain ⟨k, _, _, _⟩ := op
  cases k <;> rfl

theorem ptNextAttempt_inside (c : ErrClass) (op : PtOp) : Inside (ptNextAttempt c op) := by
  intro e es s
  have hp : (s.outside e es).pt = s.pt := rfl
  unfold ptNextAttempt
  rw [hp]
  split
  · exact ptBegin_inside _ _ _ _
  · exact ptError_inside _ _ _ _ _

theorem ptCheck_inside (op : PtOp) : Inside (ptCheck op) := by
  intro e es s
  have hp : (s.outside e es).pt = s.pt := rfl
  unfold ptCheck
  rw [hp]
  split
  · split <;> rfl
  · exact ptNextAttempt_inside _ _ _ _ _

theorem ptWrite_inside (op : PtOp) (b : Byte) {k : State → State} (hk : Inside k) (v : Verdict) :
    Inside (ptWrite op b k v) := by
  intro e es s
  cases v
  · exact hk e es (s.log [.write .pt b true])
  · exact ptNextAttempt_inside .communicationFailure op e es (s.log [.write .pt b false])

theorem ptRead_inside (op : PtOp) {k : Byte → State → State} (hk : ∀ b, Inside (k b)) (v : Verdict) :
    Inside (ptRead op k v) := by
  intro e es s
  unfold ptRead
  rw [chRead_outside]
  rcases s.chRead .pt v with ⟨a, u⟩
  cases a
  · exact hk _ _ _ _
  · exact ptNextAttempt_inside _ _ _ _ _
  · rfl

theorem ptWait_inside (op : PtOp) (v : Verdict) : Inside (ptWait op v) := by
  intro e es s
  have hr : (s.outside e es).ptRx = s.ptRx := rfl
  unfold ptWait
  rw [hr]
  split
  · rfl
  · rfl
  · exact ptError_inside .deviceUnavailable op e es (s.log [.waitByte .pt s.cfg.verifyTimeoutMs false])

theorem ptAdvance_inside (v : Verdict) : Inside (ptAdvance v) := by
  intro e es s
  have hb : (s.outside e es).busy = s.busy := rfl
  have hp : (s.outside e es).pt = s.pt := rfl
  have hc : (s.outside e es).cfg = s.cfg := rfl
  unfold ptAdvance
  rw [hb]
  split
  · rename_i op _
    unfold ptCall
    rw [hp, hc]
    split
    · exact ptWrite_inside _ _ (ptToTx_inside _ _) _ _ _ _
    · exact ptWrite_inside _ _ (fun _ _ _ => rfl) _ _ _ _
    · refine ptWrite_inside _ _ (fun _ _ u => ?_) _ _ _ _
      unfold ptAfterFrame; split <;> rfl
    · refine ptRead_inside _ (fun b e es u => ?_) _ _ _ _
      have hu : (u.outside e es).cfg = u.cfg := rfl
      rw [hu]
      split
      · rfl
      · exact ptNextAttempt_inside _ _ _ _ _
    · refine ptRead_inside _ (fun b e es u => ?_) _ _ _ _
      unfold ptData; split
      · rfl
      all_goals exact ptToRx_inside { op with got := op.got ++ [b] } e es (ptSetCrc (crc16Update u.cfg.poly u.pt.crc b) u)
    · exact ptRead_inside _ (fun _ _ _ _ => rfl) _ _ _ _
    · exact ptRead_inside _ (fun l e es u => ptCheck_inside op e es
        { u with pt := { u.pt with rxcrc := ⟨word16 op.crcHi l, .written⟩, phase := .check } }) _ _ _ _
    · exact ptWait_inside _ _ _ _ _
    · exact ptCheck_inside _ _ _ _
    · rfl
  · rfl

/-! ### CR -/

theorem crError_inside (c : ErrClass) (op : CrOp) : Inside (crError c op) := by
  intro e es s
  obtain ⟨k, _, _, _⟩ := op
  cases k <;> rfl

theorem crNextWord_inside (op : CrOp) (n : Nat) : Inside (crNextWord op n) := by
  intro e es s; unfold crNextWord; split <;> rfl

theorem crToTx_inside (op : CrOp) (i : Nat) : Inside (crToTx op i) := by
  intro e es s
  have hc : (s.outside e es).cfg = s.cfg := rfl
  unfold crToTx crAfterTx
  rw [hc]
  split
  · rfl
  · split
    all_goals first | rfl | exact crNextWord_inside _ _ _ _ _

theorem crUse_inside (op : CrOp) (w : BitVec 16) : Inside (crUse op w) := by
  intro e es s
  have hc : (s.outside e es).cfg = s.cfg := rfl
  unfold crUse
  rw [hc]
  split
  · rfl
  · exact crNextWord_inside _ _ _ _ _
  · rfl
  · rfl
  · split
    · exact crNextWord_inside _ _ _ _ _
    · split
      · exact crError_inside _ _ _ _ _
      · exact crNextWord_inside _ _ _ _ _
  · rfl
  · rfl

theorem crWrite_inside (op : CrOp) (b : Byte) {k : State → State} (hk : Inside k) (v : Verdict) :
    Inside (crWrite op b k v) := by
  intro e es s
  cases v
  · exact hk e es (s.log [.write .cr b true])
  · exact crError_inside .communicationFailure op e es (s.log [.write .cr b false])

theorem crRead_inside (op : CrOp) {k : Byte → State → State} (hk : ∀ b, Inside (k b)) (v : Verdict) :
    Inside (crRead op k v) := by
  intro e es s
  unfold crRead
  rw [chRead_outside]
  rcases s.chRead .cr v with ⟨a, u⟩
  cases a
  · exact hk _ _ _ _
  · exact crError_inside _ _ _ _ _
  · rfl

theorem crAdvance_inside (v : Verdict) : Inside (crAdvance v) := by
  intro e es s
  have hb : (s.outside e es).busy = s.busy := rfl
  have hp : (s.outside e es).cr = s.cr := rfl
  have hc : (s.outside e es).cfg = s.cfg := rfl
  have hr : (s.outside e es).crRx = s.crRx := rfl
  unfold crAdvance
  rw [hb]
  split
  · rename_i op _
    unfold crCall
    rw [hp, hc, hr]
    split
    · exact crWrite_inside _ _ (crToTx_inside _ _) _ _ _ _
    · exact crRead_inside _ (fun _ _ _ _ => rfl) _ _ _ _
    · exact crRead_inside _ (fun b e es u => crUse_inside op (word16 op.hi b) e es
        { u with cr := { u.cr with word := ⟨word16 op.hi b, .written⟩ } }) _ _ _ _
    · have hx : ((s.outside e es).log [.avail .cr s.crRx.length]).crRx = s.crRx := rfl
      have hy : (s.log [.avail .cr s.crRx.length]).crRx = s.crRx := rfl
      unfold crIdTest
      rw [hx, hy]
      split
      · exact crError_inside .deviceUnavailable op e es (s.log [.avail .cr s.crRx.length])
      · rfl
    · have hx : ((s.outside e es).log [.avail .cr s.crRx.length]).crRx = s.crRx := rfl
      have hy : (s.log [.avail .cr s.crRx.length]).crRx = s.crRx := rfl
      unfold crPollTest
      rw [hx, hy]
      split
      · rfl
      · split <;> rfl
    · rfl
  · rfl

/-! ### SP.POPT -/

theorem spAdvance_inside (v : Verdict) : Inside (spAdvance v) := by
  intro e es s
  have hb : (s.outside e es).busy = s.busy := rfl
  unfold spAdvance
  rw [hb]
  split <;> rfl

theorem spTake_inside : Inside spTake := by
  intro e es s
  have hq : (s.outside e es).sp = s.sp := rfl
  unfold spTake
  rw [hq]
  split <;> rfl

/-! ### Runs -/

/-- A run looks at no move but those it is given. -/
theorem drive_outside {adv : Verdict → State → State} (ha : ∀ v, Inside (adv v)) (ms e : List EnvMove) (es : List Event)
    (s : State) : drive adv ms (s.outside e es) = { drive adv ms s with sched := es } := by
  induction ms generalizing s with
  | nil => rfl
  | cons m rest ih =>
    have ho : (s.outside e es).callOutstanding = s.callOutstanding := rfl
    unfold drive
    rw [ho]
    split
    · cases m with
      | rx ch bytes =>
        have : (s.outside e es).setRx ch bytes = (s.setRx ch bytes).outside e es := by cases ch <;> rfl
        dsimp only
        rw [this, ih]
      | answer v => dsimp only; rw [ha, ih]
    · rfl

/-- A run leaves the schedule. -/
theorem drive_sched {adv : Verdict → State → State} (ha : ∀ v, Inside (adv v)) (ms : List EnvMove) (s : State) :
    (drive adv ms s).sched = s.sched :=
  drive_keeps (P := fun t => t.sched = s.sched) (fun _ _ _ h => by simpa using h) (fun _ _ h => h)
    (fun v t h => by rw [show adv v t = (adv v t).outside t.env t.sched from ha v t.env t.sched t]; exact h) ms s rfl

/-- While a run has a call outstanding it has used every move; else the further moves stay for later. -/
theorem drive_append {adv : Verdict → State → State} (ha : ∀ v, Inside (adv v)) (ms ns : List EnvMove) (s : State) :
    drive adv (ms ++ ns) s =
      if (drive adv ms s).callOutstanding then drive adv ns (drive adv ms s)
      else { drive adv ms s with env := (drive adv ms s).env ++ ns } := by
  induction ms generalizing s with
  | nil =>
    have ho : (drive adv [] s).callOutstanding = s.callOutstanding := rfl
    rw [ho]
    split
    · rw [List.nil_append, show drive adv [] s = s.outside [] s.sched from rfl, drive_outside ha, ← drive_sched ha ns s]
    · rename_i h
      rw [List.nil_append, drive_stopped _ _ _ (by simpa using h)]
      rfl
  | cons m rest ih =>
    cases ho : s.callOutstanding with
    | true =>
      cases m with
      | answer v => rw [List.cons_append, drive_answer _ _ _ _ ho, drive_answer _ _ _ _ ho, ih]
      | rx ch bytes => rw [List.cons_append, drive_rx _ _ _ _ _ ho, drive_rx _ _ _ _ _ ho, ih]
    | false =>
      rw [drive_stopped _ _ _ ho, drive_stopped _ _ _ ho]
      rw [if_neg (by rw [Bool.not_eq_true]; exact ho)]

/-- A run with a call outstanding has used every move. -/
theorem drive_used {adv : Verdict → State → State} (ms : List EnvMove) (s : State)
    (h : (drive adv ms s).callOutstanding = true) : (drive adv ms s).env = [] := by
  induction ms generalizing s with
  | nil => rfl
  | cons m rest ih =>
    cases ho : s.callOutstanding with
    | true =>
      cases m with
      | answer v => rw [drive_answer _ _ _ _ ho] at h ⊢; exact ih _ h
      | rx ch bytes => rw [drive_rx _ _ _ _ _ ho] at h ⊢; exact ih _ h
    | false =>
      rw [drive_stopped _ _ _ ho] at h
      exact absurd (ho.symm.trans h) (by simp)

/-- A run takes its first step. -/
theorem run_next {s t : State} (h : step s = .next t) (k : Nat) :
    Host.Core.run core (k + 1) s = Host.Core.run core k t := by
  have h' : core.step s = .next t := h
  simp only [Host.Core.run]
  rw [h']

/-- Answers given one by one, each in a step of its own, bring an operation where the same answers given at once bring it. -/
theorem run_answers {adv : Verdict → State → State} (ha : ∀ v, Inside (adv v)) (s0 : State)
    (own : ∀ E, (drive adv E s0).busy = none ∨ (drive adv E s0).callOutstanding = true ∧
      ∀ e es, goOn ((drive adv E s0).outside e es) = drive adv e ((drive adv E s0).outside e es))
    (hc : ∀ E, legalConfig (drive adv E s0).cfg = true) (ms : List EnvMove) (es : List Event) (E : List EnvMove) :
    Host.Core.run core ms.length { drive adv E s0 with sched := ms.map Event.answer ++ es } =
      .next { drive adv (E ++ ms) s0 with sched := es } := by
  induction ms generalizing E with
  | nil => simp [Host.Core.run]
  | cons m rest ih =>
    have hs : step { drive adv E s0 with sched := (m :: rest).map Event.answer ++ es } =
        .next (goOn ((drive adv E s0).outside ((drive adv E s0).env ++ [m]) (rest.map Event.answer ++ es))) :=
      (step_event (s := { drive adv E s0 with sched := (m :: rest).map Event.answer ++ es }) (hc E) rfl).trans rfl
    have hg : goOn ((drive adv E s0).outside ((drive adv E s0).env ++ [m]) (rest.map Event.answer ++ es)) =
        { drive adv (E ++ [m]) s0 with sched := rest.map Event.answer ++ es } := by
      rw [drive_append ha]
      rcases own E with hb | ⟨ho, hd⟩
      · rw [if_neg (by simp [State.callOutstanding, hb])]
        unfold goOn
        rw [show ((drive adv E s0).outside ((drive adv E s0).env ++ [m]) (rest.map Event.answer ++ es)).busy = none from hb]
        rfl
      · rw [if_pos ho, hd, drive_outside ha, drive_used E s0 ho, List.nil_append]
    have hrun : Host.Core.run core (m :: rest).length
        { drive adv E s0 with sched := (m :: rest).map Event.answer ++ es } =
      Host.Core.run core rest.length { drive adv (E ++ [m]) s0 with sched := rest.map Event.answer ++ es } :=
      run_next (hs.trans (by rw [hg])) _
    rw [hrun, ih (E ++ [m]), List.append_assoc, List.singleton_append]

end Sys2Proof.Machine
end

