-- ==== Sys2Proof/Laws/Attempts.lean ====
section
/-! SUPPORT. What a failed attempt of a PT operation brings it to, in terms of `FailedWrite` and `FailedRead`, and what a row of
them does before the attempt that ends the operation. -/

namespace Sys2Proof.Machine

/-- What a failed attempt leaves. -/
def attempted (a : Attempt) (s : State) : State :=
  { s with
    pt := { s.pt with
      attempts := s.pt.attempts + 1, crc := a.crc
      rxcrc := match a.rxcrc with | some v => ⟨v, .written⟩ | none => s.pt.rxcrc }
    hist := s.hist ++ a.calls }

/-- The next attempt, or the end of the operation, looks at nothing of the attempt before but the count. -/
theorem ptNextAttempt_fresh (e : ErrClass) {op op' : PtOp} (hk : op'.kind = op.kind) (hb : op'.budget = op.budget)
    {s s' : State} (h : ∃ b p, s' = { s with busy := b, pt := { s.pt with phase := p } }) :
    ptNextAttempt e op' s' = ptNextAttempt e op s := by
  obtain ⟨b, p, rfl⟩ := h
  obtain ⟨k, n, g, c⟩ := op
  obtain ⟨k', n', g', c'⟩ := op'
  simp only at hk hb
  subst hk hb
  unfold ptNextAttempt
  dsimp only
  split
  · simp only [ptBegin, ptToTx, ptToRx]
    repeat' split
    all_goals rfl
  · cases k' <;> rfl

/-! ### Writing -/

/-- A framed attempt abandoned at a write. -/
theorem brings_abandonedFrame {op : PtOp} (h : ptFramed op.kind = true) {a : Attempt} {j : Nat} (s : State)
    (ha : AbandonedWrite (framed s.cfg (ptRequest s.cfg op.kind)) a j)
    (hc : a.crc = crc16 s.cfg.poly s.cfg.crcInit (ptRequest s.cfg op.kind)) :
    Brings ptAdvance (ptBegin op s) a.calls (ptNextAttempt a.err op (attempted a s)) := by
  obtain ⟨b, hb, hcalls, he, hx⟩ := ha
  obtain ⟨calls, err, crc, rxcrc⟩ := a
  simp only at hcalls he hx hc
  subst hcalls he hx hc
  rw [ptBegin_framed h]
  have hop : ptFramed ({ op with got := [], crcHi := 0 } : PtOp).kind = true := h
  generalize hs0 : ({ s with pt := { s.pt with
          attempts := s.pt.attempts + 1, crc := crc16 s.cfg.poly s.cfg.crcInit (ptRequest s.cfg op.kind) } } : State) = s0
  have hreq : ptRequest s0.cfg op.kind = ptRequest s.cfg op.kind := by rw [← hs0]
  have hcrc : s0.pt.crc = crc16 s.cfg.poly s.cfg.crcInit (ptRequest s.cfg op.kind) := by rw [← hs0]
  by_cases hj : j < (ptRequest s.cfg op.kind).length
  · have body := brings_ptBody hop j 0 s0 (by rw [hreq]; omega)
    rw [List.drop_zero, hreq, Nat.zero_add, ptToTx_framed hop j, if_pos (by simpa [hreq] using hj)] at body
    have hg : (ptRequest s.cfg op.kind).getD j 0 = b := by
      rw [framed, List.getElem?_append_left hj] at hb
      simp [hb]
    have cut := brings_ptWriteFail (op := { op with got := [], crcHi := 0 }) (p := .txBody j)
      (s := s0.log (writes .pt ((ptRequest s.cfg op.kind).take j))) (b := b)
      (k := ptToTx { op with got := [], crcHi := 0 } (j + 1))
      (fun v x => by rw [← hg, ← hreq]; rfl)
    rw [framed, List.take_append_of_le_length (Nat.le_of_lt hj)]
    refine (body.trans cut).to ?_
    refine ptNextAttempt_fresh (s := attempted _ _) _ rfl rfl ⟨some (.pt { op with got := [], crcHi := 0 }), .txBody j, ?_⟩
    rw [← hs0]
    simp [attempted, ptGo, State.log]
  · have hlt : j < (ptRequest s.cfg op.kind).length + 2 := by
      have := (List.getElem?_eq_some_iff.1 hb).1
      simpa [framed, bytes16] using this
    have hsplit : j = (ptRequest s.cfg op.kind).length ∨ j = (ptRequest s.cfg op.kind).length + 1 := by omega
    have body := brings_ptBody hop (ptRequest s.cfg op.kind).length 0 s0 (by rw [hreq]; omega)
    rw [List.drop_zero, hreq, List.take_length, Nat.zero_add,
      ptToTx_framed hop (ptRequest s.cfg op.kind).length, if_neg (by simp [hreq])] at body
    rcases hsplit with hj' | hj'
    · subst hj'
      have hb' : b = hiByte s0.pt.crc := by
        rw [framed, List.getElem?_append_right (Nat.le_refl _)] at hb
        simpa [bytes16, hcrc, eq_comm] using hb
      have cut := brings_ptWriteFail (op := { op with got := [], crcHi := 0 }) (p := .txCrcHi)
        (s := s0.log (writes .pt (ptRequest s.cfg op.kind))) (b := b) (k := ptGo { op with got := [], crcHi := 0 } .txCrcLo)
        (fun v x => by rw [hb']; rfl)
      rw [framed, List.take_append_of_le_length (Nat.le_refl _), List.take_length]
      refine (body.trans cut).to ?_
      refine ptNextAttempt_fresh (s := attempted _ _) _ rfl rfl ⟨some (.pt { op with got := [], crcHi := 0 }), .txCrcHi, ?_⟩
      rw [← hs0]
      simp [attempted, ptGo, State.log]
    · subst hj'
      have hb' : b = loByte s0.pt.crc := by
        rw [framed, List.getElem?_append_right (by omega)] at hb
        simpa [bytes16, hcrc, eq_comm] using hb
      have hi := brings_ptWrite (op := { op with got := [], crcHi := 0 }) (p := .txCrcHi)
        (s := s0.log (writes .pt (ptRequest s.cfg op.kind))) (b := hiByte s0.pt.crc)
        (ptGo_blind { op with got := [], crcHi := 0 } .txCrcLo) (fun v x => rfl)
      rw [ptGo_log, ptGo_ptGo] at hi
      have cut := brings_ptWriteFail (op := { op with got := [], crcHi := 0 }) (p := .txCrcLo)
        (s := (s0.log (writes .pt (ptRequest s.cfg op.kind))).log [.write .pt (hiByte s0.pt.crc) true]) (b := b)
        (k := ptAfterFrame { op with got := [], crcHi := 0 }) (fun v x => by rw [hb']; rfl)
      have htake : (framed s.cfg (ptRequest s.cfg op.kind)).take ((ptRequest s.cfg op.kind).length + 1) =
          ptRequest s.cfg op.kind ++ [hiByte s0.pt.crc] := by
        rw [framed, List.take_length_add_append, hcrc]
        rfl
      rw [htake, writes_append, List.append_assoc]
      have all := body.trans (hi.trans cut)
      refine all.to ?_
      refine ptNextAttempt_fresh (s := attempted _ _) _ rfl rfl ⟨some (.pt { op with got := [], crcHi := 0 }), .txCrcLo, ?_⟩
      rw [← hs0]
      simp [attempted, ptGo, State.log, writes]

/-- A failed attempt of PT.WRITEFRAME. -/
theorem brings_failedWrite {ack : Bool} {bytes : List Byte} {n : Nat} {g : List Byte} {hi : Byte} {a : Attempt} (s : State)
    (ha : FailedWrite s.cfg bytes ack a) :
    Brings ptAdvance (ptBegin ⟨.writeFrame ack bytes, n, g, hi⟩ s) a.calls
      (ptNextAttempt a.err ⟨.writeFrame ack bytes, n, g, hi⟩ (attempted a s)) := by
  obtain ⟨hc, ⟨j, ha⟩ | ⟨rfl, r, hne, hcalls, he, hx⟩⟩ := ha
  · exact brings_abandonedFrame (op := ⟨.writeFrame ack bytes, n, g, hi⟩) rfl s ha hc
  · obtain ⟨calls, err, crc, rxcrc⟩ := a
    simp only at hcalls he hx hc
    subst hcalls he hx hc
    have hg : ptBegin ⟨.writeFrame true bytes, n, g, hi⟩ s = ptBegin ⟨.writeFrame true bytes, n, [], 0⟩ s := rfl
    have frame := brings_ptAttempt (op := ⟨.writeFrame true bytes, n, [], 0⟩) rfl rfl rfl s
    rw [hg]
    cases r with
    | none =>
      have cut := brings_ptReadFail (op := ⟨.writeFrame true bytes, n, [], 0⟩) (p := .rxAck)
        (s := { s with
          pt := { s.pt with attempts := s.pt.attempts + 1, crc := crc16 s.cfg.poly s.cfg.crcInit bytes }
          hist := s.hist ++ writes .pt (framed s.cfg bytes) })
        (k := fun b s' => if b = s'.cfg.ack then opOk .pt .none s' else
          ptNextAttempt .communicationFailure ⟨.writeFrame true bytes, n, [], 0⟩ s') (fun v u => rfl)
      refine (frame.trans cut).to ?_
      refine ptNextAttempt_fresh (op' := ⟨.writeFrame true bytes, n, [], 0⟩) (s := attempted _ s) _ rfl rfl
        ⟨some (.pt ⟨.writeFrame true bytes, n, [], 0⟩), .rxAck, ?_⟩
      simp [attempted, ptGo, State.log]
    | some b =>
      have hb : ¬ b = s.cfg.ack := fun e => hne (by rw [e])
      have cut := brings_ptRead (op := ⟨.writeFrame true bytes, n, [], 0⟩) (p := .rxAck)
        (s := { s with
          pt := { s.pt with attempts := s.pt.attempts + 1, crc := crc16 s.cfg.poly s.cfg.crcInit bytes }
          hist := s.hist ++ writes .pt (framed s.cfg bytes) }) (b := b)
        (k := fun b s' => if b = s'.cfg.ack then opOk .pt .none s' else
          ptNextAttempt .communicationFailure ⟨.writeFrame true bytes, n, [], 0⟩ s')
        (fun u x => by
          by_cases hu : b = u.cfg.ack
          · simp only [withRx_cfg, hu]; rfl
          · simp only [withRx_cfg, hu, if_false, ptNextAttempt_blind _ _ u x]) (fun v u => rfl)
      refine (frame.trans cut).to ?_
      refine (if_neg hb).trans ?_
      refine ptNextAttempt_fresh (op' := ⟨.writeFrame true bytes, n, [], 0⟩) (s := attempted _ s) _ rfl rfl
        ⟨some (.pt ⟨.writeFrame true bytes, n, [], 0⟩), .rxAck, ?_⟩
      simp [attempted, ptGo, State.log]

/-! ### Reading -/

/-- The operation reads `n` data bytes and their CRC (PT.READWORDS, `n = 4 * W`, and PT.READBYTEPAIR, `n = 2`). -/
def ReadsData (op : PtOp) (c : Config) (cc : Byte) (n : Nat) : Prop :=
  ptFramed op.kind = false ∧ ptRequest c op.kind = [c.address, cc] ∧ ptDataLen op.kind = n

/-- The request of a read and some of its data bytes. -/
theorem brings_ptResponse {op : PtOp} {cc : Byte} {n : Nat} (s : State) (ho : ReadsData op s.cfg cc n) (ds : List Byte)
    (hl : ds.length ≤ n) :
    Brings ptAdvance (ptBegin op s) (writes .pt [s.cfg.address, cc] ++ reads .pt ds)
      (ptToRx { op with got := ds, crcHi := 0 } { s with
        busy := some (.pt { op with got := [], crcHi := 0 })
        pt := { s.pt with
          phase := .txBody 1, attempts := s.pt.attempts + 1
          crc := crc16 s.cfg.poly s.cfg.crcInit (s.cfg.address :: cc :: ds) }
        hist := s.hist ++ (writes .pt [s.cfg.address, cc] ++ reads .pt ds) }) := by
  obtain ⟨hf, hq, hn⟩ := ho
  have req := brings_ptRequest op hf cc s hq
  have resp := brings_ptData ds { op with got := [], crcHi := 0 }
    { s with
      busy := some (.pt { op with got := [], crcHi := 0 })
      pt := { s.pt with
        phase := .txBody 1, attempts := s.pt.attempts + 1, crc := crc16 s.cfg.poly s.cfg.crcInit [s.cfg.address, cc] }
      hist := s.hist ++ writes .pt [s.cfg.address, cc] } hf (by simp [hn, hl])
  simpa [crc16] using req.trans resp

/-- The two CRC bytes of a response. -/
theorem brings_ptCrc (op : PtOp) (h l : Byte) (s : State) :
    Brings ptAdvance (ptGo op .rxCrcHi s) [.read .pt (some h), .read .pt (some l)]
      (ptRxCrc { op with crcHi := h } l
        ((ptGo { op with crcHi := h } .rxCrcLo (s.log [.read .pt (some h)])).log [.read .pt (some l)])) := by
  have hi := brings_ptRead (op := op) (p := .rxCrcHi) (s := s) (b := h) (k := fun b => ptGo { op with crcHi := b } .rxCrcLo)
    (ptGo_blind _ _) (fun v u => rfl)
  rw [ptGo_log, ptGo_ptGo] at hi
  exact hi.trans (brings_ptRead (op := { op with crcHi := h }) (p := .rxCrcLo) (b := l) (k := ptRxCrc { op with crcHi := h })
    (fun u x => ptCheck_blind { op with crcHi := h }
      { u with pt := { u.pt with rxcrc := ⟨word16 h l, .written⟩, phase := .check } } x) (fun v u => rfl))

/-- A failed attempt of PT.READWORDS or PT.READBYTEPAIR. -/
theorem brings_failedRead {op : PtOp} {cc : Byte} {n : Nat} {a : Attempt} (s : State) (ho : ReadsData op s.cfg cc n)
    (ha : FailedRead s.cfg cc n a) :
    Brings ptAdvance (ptBegin op s) a.calls (ptNextAttempt a.err op (attempted a s)) := by
  obtain ⟨calls, err, crc, rxcrc⟩ := a
  rcases ha with ⟨j, ⟨b, hb, hcalls, he, hx⟩, hc⟩ | ⟨took, hlen, hcalls, he, hc, hx⟩ |
    ⟨data, h, l, hlen, hne, hcalls, he, hc, hx⟩
  · obtain ⟨hf, hq, hn⟩ := ho
    simp only at hcalls he hx hc
    subst hcalls he hx hc
    obtain ⟨k, bu, g, c⟩ := op
    have hcase : (j = 0 ∧ b = s.cfg.address) ∨ (j = 1 ∧ b = cc) := by
      match j with
      | 0 => exact .inl ⟨rfl, by simpa [eq_comm] using hb⟩
      | 1 => exact .inr ⟨rfl, by simpa [eq_comm] using hb⟩
      | j + 2 => simp at hb
    simp only at hq hf
    have begin0 : ptBegin ⟨k, bu, g, c⟩ s = ptGo ⟨k, bu, [], 0⟩ (.txBody 0)
          { s with pt := { s.pt with
            attempts := s.pt.attempts + 1, crc := crc16 s.cfg.poly s.cfg.crcInit [s.cfg.address] } } := by
      simp [ptBegin, ptToTx, hq, hf, ptSetCrc, crc16]
    have at0 : ∀ u : State, u.cfg = s.cfg → (ptRequest u.cfg k).getD 0 0 = s.cfg.address := fun u hu => by rw [hu, hq]; rfl
    have at1 : ∀ u : State, u.cfg = s.cfg → (ptRequest u.cfg k).getD 1 0 = cc := fun u hu => by rw [hu, hq]; rfl
    rcases hcase with ⟨rfl, rfl⟩ | ⟨rfl, rfl⟩
    · have cut := brings_ptWriteFail (op := ⟨k, bu, [], 0⟩) (p := .txBody 0)
        (s := { s with pt := { s.pt with
          attempts := s.pt.attempts + 1, crc := crc16 s.cfg.poly s.cfg.crcInit [s.cfg.address] } })
        (b := s.cfg.address) (k := ptToTx ⟨k, bu, [], 0⟩ 1) (fun v x => by
          show ptWrite _ ((ptRequest s.cfg k).getD 0 0) _ v _ = _
          rw [at0 s rfl])
      rw [begin0]
      refine cut.to ?_
      refine ptNextAttempt_fresh (s := attempted _ s) _ rfl rfl ⟨some (.pt ⟨k, bu, [], 0⟩), .txBody 0, ?_⟩
      simp [ptGo, State.log, attempted, writes]
    · have first := brings_ptWrite (op := ⟨k, bu, [], 0⟩) (p := .txBody 0)
        (s := { s with pt := { s.pt with
          attempts := s.pt.attempts + 1, crc := crc16 s.cfg.poly s.cfg.crcInit [s.cfg.address] } })
        (b := s.cfg.address) (ptToTx_blind ⟨k, bu, [], 0⟩ 1) (fun v x => by
          show ptWrite _ ((ptRequest s.cfg k).getD 0 0) _ v _ = _
          rw [at0 s rfl])
      have second := brings_ptWriteFail (op := ⟨k, bu, [], 0⟩) (p := .txBody 1)
        (s := { s with
          pt := { s.pt with
            attempts := s.pt.attempts + 1, crc := crc16 s.cfg.poly s.cfg.crcInit [s.cfg.address, b] }
          hist := s.hist ++ [.write .pt s.cfg.address true] })
        (b := b) (k := ptToTx ⟨k, bu, [], 0⟩ 2) (fun v x => by
          show ptWrite _ ((ptRequest s.cfg k).getD 1 0) _ v _ = _
          rw [at1 s rfl])
      rw [begin0]
      have mid := first.congr (s' := ptGo ⟨k, bu, [], 0⟩ (.txBody 0) _) (t' := ptGo ⟨k, bu, [], 0⟩ (.txBody 1)
        { s with
          pt := { s.pt with
            attempts := s.pt.attempts + 1, crc := crc16 s.cfg.poly s.cfg.crcInit [s.cfg.address, b] }
          hist := s.hist ++ [.write .pt s.cfg.address true] }) (fun _ => rfl) (fun x => by
            simp [ptToTx, hq, hf, ptSetCrc, crc16, ptGo, State.log])
      refine (mid.trans second).to ?_
      refine ptNextAttempt_fresh (s := attempted _ s) _ rfl rfl ⟨some (.pt ⟨k, bu, [], 0⟩), .txBody 1, ?_⟩
      simp [ptGo, State.log, attempted, writes]
  · simp only at hcalls he hc hx
    subst hcalls he hc hx
    have hn := ho.2.2
    by_cases hs : took.length < n
    · have resp := brings_ptResponse s ho took (by omega)
      rw [ptToRx, if_pos (by simpa [hn] using hs)] at resp
      refine (resp.trans (brings_ptReadFail (k := ptData _) (fun v u => rfl))).to ?_
      refine ptNextAttempt_fresh (s := attempted _ s) _ rfl rfl
        ⟨some (.pt { op with got := took, crcHi := 0 }), .rxData took.length, ?_⟩
      simp [ptGo, State.log, attempted, List.take_of_length_le (Nat.le_of_lt hs)]
    · have hlen' : (took.take n).length = n := by simp; omega
      have resp := brings_ptResponse s ho (took.take n) (by omega)
      rw [ptToRx, if_neg (by simp [hn]; omega)] at resp
      have hd : took = took.take n ∨ ∃ b, took = took.take n ++ [b] := by
        have hcat := List.take_append_drop n took
        match hdn : took.drop n with
        | [] => rw [hdn, List.append_nil] at hcat; exact .inl hcat.symm
        | [b] => rw [hdn] at hcat; exact .inr ⟨b, hcat.symm⟩
        | _ :: _ :: _ =>
          have := congrArg List.length hdn
          simp at this
          omega
      rcases hd with hd | ⟨b, hd⟩
      · conv => arg 3; rw [hd]
        refine (resp.trans (brings_ptReadFail (k := fun b => ptGo { op with got := took.take n, crcHi := b } .rxCrcLo)
          (fun v u => rfl))).to ?_
        refine ptNextAttempt_fresh (s := attempted _ s) _ rfl rfl
          ⟨some (.pt { op with got := took.take n, crcHi := 0 }), .rxCrcHi, ?_⟩
        conv => rhs; arg 1; rw [hd]
        simp [ptGo, State.log, attempted]
        exact congrArg _ hd.symm
      · have hi := brings_ptRead (op := { op with got := took.take n, crcHi := 0 }) (p := .rxCrcHi)
          (s := { s with
            busy := some (.pt { op with got := [], crcHi := 0 })
            pt := { s.pt with
              phase := .txBody 1, attempts := s.pt.attempts + 1
              crc := crc16 s.cfg.poly s.cfg.crcInit (s.cfg.address :: cc :: took.take n) }
            hist := s.hist ++ (writes .pt [s.cfg.address, cc] ++ reads .pt (took.take n)) }) (b := b)
          (k := fun b => ptGo { op with got := took.take n, crcHi := b } .rxCrcLo) (ptGo_blind _ _) (fun v u => rfl)
        have lo := brings_ptReadFail (op := { op with got := took.take n, crcHi := b }) (p := .rxCrcLo)
          (s := { s with
            busy := some (.pt { op with got := [], crcHi := 0 })
            pt := { s.pt with
              phase := .txBody 1, attempts := s.pt.attempts + 1
              crc := crc16 s.cfg.poly s.cfg.crcInit (s.cfg.address :: cc :: took.take n) }
            hist := s.hist ++ (writes .pt [s.cfg.address, cc] ++ reads .pt (took.take n)) ++ [.read .pt (some b)] })
          (k := ptRxCrc { op with got := took.take n, crcHi := b }) (fun v u => rfl)
        have hrd : reads .pt took = reads .pt (took.take n) ++ [.read .pt (some b)] := by
          conv => lhs; rw [hd]
          simp [reads]
        have all := (resp.trans hi).trans lo
        simp only [hrd, ← List.append_assoc]
        simp only [← List.append_assoc] at all
        refine all.to ?_
        refine ptNextAttempt_fresh (s := attempted _ s) _ rfl rfl
          ⟨some (.pt { op with got := took.take n, crcHi := b }), .rxCrcLo, ?_⟩
        simp [ptGo, State.log, attempted]
  · simp only at hcalls he hc hx
    subst hcalls he hc hx
    have hn := ho.2.2
    have resp := brings_ptResponse s ho data (by omega)
    rw [ptToRx, if_neg (by simp [hn, hlen])] at resp
    have all := resp.trans (brings_ptCrc _ h l _)
    rw [reads_append, ← List.append_assoc]
    refine all.to ?_
    rw [ptRxCrc, ptCheck, if_neg (by simpa [ptGo, State.log] using hne)]
    refine ptNextAttempt_fresh (s := attempted _ s) _ rfl rfl ⟨some (.pt { op with got := data, crcHi := h }), .check, ?_⟩
    simp [ptGo, State.log, attempted, reads]

/-! ### A row of failed attempts -/

/-- The budget lasts: the failed attempts are made, one after the other, and the next one begins. -/
theorem brings_failedAttempts {op : PtOp} {P : Attempt → Prop} (c : Config)
    (one : ∀ (s : State) (a : Attempt), s.cfg = c → P a →
      Brings ptAdvance (ptBegin op s) a.calls (ptNextAttempt a.err op (attempted a s)))
    (as : List Attempt) (s : State) (hc : s.cfg = c) (hp : ∀ a ∈ as, P a) (hn : s.pt.attempts + as.length ≤ op.budget) :
    Brings ptAdvance (ptBegin op s) (as.flatMap Attempt.calls) (ptBegin op { s with
      pt := { s.pt with attempts := s.pt.attempts + as.length, rxcrc := rxcrcAfter s.pt.rxcrc as }
      hist := s.hist ++ as.flatMap Attempt.calls }) := by
  have dropCrc : ∀ (u : State) (v : BitVec 16), ptBegin op { u with pt := { u.pt with crc := v } } = ptBegin op u := by
    intro u v; rfl
  induction as generalizing s with
  | nil => simpa [rxcrcAfter] using Brings.refl (adv := ptAdvance) (s := ptBegin op s)
  | cons a as ih =>
    simp only [List.length_cons] at hn
    have first := one s a hc (hp a (by simp))
    rw [ptNextAttempt_more _ _ _ (by simp [attempted]; omega)] at first
    have rest := ih (attempted a s) hc (fun b hb => hp b (by simp [hb])) (by simp [attempted]; omega)
    rw [List.flatMap_cons]
    refine (first.trans rest).to ?_
    rw [← dropCrc _ s.pt.crc]
    congr 1
    simp [attempted, rxcrcAfter, Nat.add_assoc, Nat.add_comm 1] <;> rfl

/-- The budget runs out: the operation ends with the class of the last failure. -/
theorem brings_exhausted {op : PtOp} {P : Attempt → Prop} (c : Config)
    (one : ∀ (s : State) (a : Attempt), s.cfg = c → P a →
      Brings ptAdvance (ptBegin op s) a.calls (ptNextAttempt a.err op (attempted a s)))
    (as : List Attempt) (last : Attempt) (s : State) (hc : s.cfg = c) (hp : ∀ a ∈ as ++ [last], P a)
    (hn : s.pt.attempts + as.length = op.budget) :
    Brings ptAdvance (ptBegin op s) ((as ++ [last]).flatMap Attempt.calls) (ptError last.err op { s with
      pt := { s.pt with
        attempts := op.budget + 1, crc := last.crc, rxcrc := rxcrcAfter s.pt.rxcrc (as ++ [last]) }
      hist := s.hist ++ (as ++ [last]).flatMap Attempt.calls }) := by
  have row := brings_failedAttempts c one as s hc (fun a ha => hp a (by simp [ha])) (by omega)
  have fin := one { s with
      pt := { s.pt with attempts := s.pt.attempts + as.length, rxcrc := rxcrcAfter s.pt.rxcrc as }
      hist := s.hist ++ as.flatMap Attempt.calls } last hc (hp last (by simp))
  rw [ptNextAttempt_last _ _ _ (by simp [attempted]; omega)] at fin
  rw [List.flatMap_append, List.flatMap_singleton]
  refine (row.trans fin).to (congrArg _ ?_)
  simp [attempted, rxcrcAfter, hn, List.foldl_append] <;> rfl

end Sys2Proof.Machine
end

