-- ==== Sys2Proof/Laws/Bytes.lean ====
section
/-! SUPPORT. Assembling a field from its own bytes gives the field back; the words of a response are the words of R110 and R111. -/

namespace Sys2Proof.Machine

/-- Two neighbouring fields side by side are one field. -/
theorem extract_join {w : Nat} (v : BitVec w) (n k : Nat) :
    v.extractLsb' (k + 8) n ++ v.extractLsb' k 8 = v.extractLsb' k (n + 8) := by
  ext i hi
  simp only [BitVec.getElem_append, BitVec.getElem_extractLsb']
  by_cases h : i < 8
  · simp [h]
  · simp [h, show k + 8 + (i - 8) = k + i by omega]

theorem word16_bytes (v : BitVec 16) : word16 (v.extractLsb' 8 8) (v.extractLsb' 0 8) = v :=
  (extract_join v 8 0).trans BitVec.extractLsb'_eq_self

theorem word32_bytes (v : BitVec 32) :
    word32 (v.extractLsb' 24 8) (v.extractLsb' 16 8) (v.extractLsb' 8 8) (v.extractLsb' 0 8) = v := by
  show v.extractLsb' (16 + 8) 8 ++ v.extractLsb' 16 8 ++ v.extractLsb' 8 8 ++ v.extractLsb' 0 8 = v
  rw [extract_join v 8 16]
  show v.extractLsb' (8 + 8) (8 + 8) ++ v.extractLsb' 8 8 ++ v.extractLsb' 0 8 = v
  rw [extract_join v (8 + 8) 8]
  exact (extract_join v (8 + 8 + 8) 0).trans BitVec.extractLsb'_eq_self

theorem word64_bytes (v : BitVec 64) :
    word64 (v.extractLsb' 56 8) (v.extractLsb' 48 8) (v.extractLsb' 40 8) (v.extractLsb' 32 8)
      (v.extractLsb' 24 8) (v.extractLsb' 16 8) (v.extractLsb' 8 8) (v.extractLsb' 0 8) = v := by
  have h1 : v.extractLsb' 56 8 ++ v.extractLsb' 48 8 = v.extractLsb' 48 16 := extract_join v 8 48
  have h2 : v.extractLsb' 48 16 ++ v.extractLsb' 40 8 = v.extractLsb' 40 24 := extract_join v 16 40
  have h3 : v.extractLsb' 40 24 ++ v.extractLsb' 32 8 = v.extractLsb' 32 32 := extract_join v 24 32
  have h4 : v.extractLsb' 32 32 ++ v.extractLsb' 24 8 = v.extractLsb' 24 40 := extract_join v 32 24
  have h5 : v.extractLsb' 24 40 ++ v.extractLsb' 16 8 = v.extractLsb' 16 48 := extract_join v 40 16
  have h6 : v.extractLsb' 16 48 ++ v.extractLsb' 8 8 = v.extractLsb' 8 56 := extract_join v 48 8
  have h7 : v.extractLsb' 8 56 ++ v.extractLsb' 0 8 = v.extractLsb' 0 64 := extract_join v 56 0
  unfold word64
  exact (congrArg (fun x => x ++ v.extractLsb' 40 8 ++ v.extractLsb' 32 8 ++ v.extractLsb' 24 8 ++ v.extractLsb' 16 8
      ++ v.extractLsb' 8 8 ++ v.extractLsb' 0 8) h1).trans
    ((congrArg (fun x => x ++ v.extractLsb' 32 8 ++ v.extractLsb' 24 8 ++ v.extractLsb' 16 8
      ++ v.extractLsb' 8 8 ++ v.extractLsb' 0 8) h2).trans
    ((congrArg (fun x => x ++ v.extractLsb' 24 8 ++ v.extractLsb' 16 8 ++ v.extractLsb' 8 8 ++ v.extractLsb' 0 8) h3).trans
    ((congrArg (fun x => x ++ v.extractLsb' 16 8 ++ v.extractLsb' 8 8 ++ v.extractLsb' 0 8) h4).trans
    ((congrArg (fun x => x ++ v.extractLsb' 8 8 ++ v.extractLsb' 0 8) h5).trans
    ((congrArg (fun x => x ++ v.extractLsb' 0 8) h6).trans (h7.trans BitVec.extractLsb'_eq_self))))))

/-- The four bytes of a word side by side are the shifts of R110. -/
theorem word32_eq (b0 b1 b2 b3 : Byte) : word32 b0 b1 b2 b3 =
    b0.setWidth 32 <<< 24 ||| b1.setWidth 32 <<< 16 ||| b2.setWidth 32 <<< 8 ||| b3.setWidth 32 := by
  apply BitVec.eq_of_getLsbD_eq
  intro i hi
  show (b0 ++ b1 ++ b2 ++ b3 : BitVec (8 + 8 + 8 + 8)).getLsbD i = _
  simp only [BitVec.getLsbD_append, BitVec.getLsbD_or, BitVec.getLsbD_shiftLeft, BitVec.getLsbD_setWidth]
  have h0 : ∀ (b : Byte) (k : Nat), 8 ≤ k → b.getLsbD k = false := fun b k hk => BitVec.getLsbD_of_ge b k hk
  have hcase : i < 8 ∨ (8 ≤ i ∧ i < 16) ∨ (16 ≤ i ∧ i < 24) ∨ (24 ≤ i ∧ i < 32) := by omega
  rcases hcase with h | ⟨_, h⟩ | ⟨_, h⟩ | ⟨_, h⟩
  · simp [show i < 8 by omega, show i < 16 by omega, show i < 24 by omega, hi]
  · simp [h, show ¬ i < 8 by omega, show i < 24 by omega, show i - 8 < 8 by omega, show i - 8 < 32 by omega,
      h0 b3 i (by omega), hi]
  · simp [h, show ¬ i < 8 by omega, show ¬ i < 16 by omega, show ¬ i - 8 < 8 by omega, show i - 8 - 8 = i - 16 by omega,
      show i - 16 < 8 by omega, show i - 16 < 32 by omega, h0 b3 i (by omega), h0 b2 (i - 8) (by omega), hi]
  · simp [h, show ¬ i < 8 by omega, show ¬ i < 16 by omega, show ¬ i < 24 by omega, show ¬ i - 8 < 8 by omega,
      show i - 8 - 8 = i - 16 by omega, show ¬ i - 16 < 8 by omega, show i - 16 - 8 = i - 24 by omega,
      show i - 24 < 32 by omega, h0 b3 i (by omega), h0 b2 (i - 8) (by omega), h0 b1 (i - 16) (by omega)]

theorem words32_eq (n : Nat) (d : List Byte) (h : d.length = 4 * n) : words32 d = bigEndian32 n d := by
  induction n generalizing d with
  | zero => rw [List.eq_nil_of_length_eq_zero h]; rfl
  | succ n ih =>
    match d, h with
    | b0 :: b1 :: b2 :: b3 :: t, h =>
      rw [words32, ih t (by simp only [List.length_cons] at h; omega), bigEndian32, bigEndian32, List.range_succ_eq_map, List.map_cons, List.map_map,
        word32_eq]
      rfl
    | [], h => simp at h
    | [_], h => simp only [List.length_cons, List.length_nil] at h; omega
    | [_, _], h => simp only [List.length_cons, List.length_nil] at h; omega
    | [_, _, _], h => simp only [List.length_cons, List.length_nil] at h; omega

theorem words16_eq (n : Nat) (d : List Byte) (h : d.length / 2 = n) : words16 d = bigEndian16 n d := by
  induction n generalizing d with
  | zero =>
    match d, h with
    | [], _ => rfl
    | [_], _ => rfl
    | _ :: _ :: t, h => simp only [List.length_cons] at h; omega
  | succ n ih =>
    match d, h with
    | b0 :: b1 :: t, h =>
      rw [words16, ih t (by simp only [List.length_cons] at h; omega), bigEndian16, bigEndian16, List.range_succ_eq_map, List.map_cons, List.map_map]
      rfl
    | [], h => simp at h
    | [_], h => simp at h

end Sys2Proof.Machine
end

