-- ==== Sys2Proof/Laws/Float.lean ====
section
/-! SUPPORT. The rounding of the float operations: a common factor of the exact quotient cancels, and an integer below
`2 ^ prec` is converted exactly. -/

namespace Sys2Proof.Machine

/-- A common factor of numerator and denominator does not change the rounded magnitude. -/
theorem roundMag_scale (fl : FLen) (a b c : Nat) (hc : 0 < c) : roundMag fl (a * c) (b * c) = roundMag fl a b := by
  have hq : a * c / (b * c) = a / b := Nat.mul_div_mul_right _ _ hc
  have hd : ∀ e, a * c / (b * c * e) = a / (b * e) := fun e => by
    rw [Nat.mul_right_comm]; exact Nat.mul_div_mul_right _ _ hc
  have hm : ∀ e, a * c % (b * c * e) = a % (b * e) * c := fun e => by
    rw [Nat.mul_right_comm]; exact Nat.mul_mod_mul_right _ _ _
  unfold roundMag
  simp only [hq, hd, hm]
  have h1 : ∀ e, (b * c * e < 2 * (a % (b * e) * c)) = (b * e < 2 * (a % (b * e))) := fun e => by
    rw [Nat.mul_right_comm, ← Nat.mul_assoc]; exact propext (Nat.mul_lt_mul_right hc)
  have h2 : ∀ e, (b * c * e = 2 * (a % (b * e) * c)) = (b * e = 2 * (a % (b * e))) := fun e => by
    rw [Nat.mul_right_comm, ← Nat.mul_assoc]; exact propext (Nat.mul_left_inj hc.ne')
  simp only [h1, h2]

theorem FLen.prec_pos (fl : FLen) : 0 < fl.prec := by cases fl <;> decide

theorem FLen.prec_lt_unitExp (fl : FLen) : fl.prec < fl.unitExp := by cases fl <;> decide

/-- A whole number of `2 ^ unitExp` units that is below `2 ^ prec` of them is a float exactly: its exponent field counts the
shift, its fraction is the shifted number. -/
theorem roundMag_exact (fl : FLen) (n : Nat) (h0 : 0 < n) (hn : n < 2 ^ fl.prec) :
    roundMag fl (n * 2 ^ fl.unitExp) 1 =
      (Nat.log2 n + fl.unitExp + 1 - fl.prec) * 2 ^ (fl.prec - 1) + n * 2 ^ (fl.prec - 1 - Nat.log2 n) := by
  have hp := FLen.prec_lt_unitExp fl
  have hp0 := FLen.prec_pos fl
  have hl : Nat.log2 n < fl.prec := (Nat.log2_lt h0.ne').2 hn
  have hlog : Nat.log2 (n * 2 ^ fl.unitExp) = Nat.log2 n + fl.unitExp := by
    rw [Nat.log2_eq_log_two, Nat.log2_eq_log_two]
    induction fl.unitExp with
    | zero => simp
    | succ e ih => rw [Nat.pow_succ, ← Nat.mul_assoc, Nat.log_mul_base (by omega) (by positivity), ih]; omega
  have hexp : fl.unitExp = (fl.prec - 1 - Nat.log2 n) + (Nat.log2 n + fl.unitExp + 1 - fl.prec) := by omega
  have hnum : n * 2 ^ fl.unitExp = n * 2 ^ (fl.prec - 1 - Nat.log2 n) * 2 ^ (Nat.log2 n + fl.unitExp + 1 - fl.prec) := by
    rw [Nat.mul_assoc, ← Nat.pow_add, ← hexp]
  unfold roundMag
  simp only [Nat.div_one, hlog, Nat.one_mul]
  rw [hnum, Nat.mul_div_cancel _ (by positivity), Nat.mul_mod_left]
  simp

/-- The magnitude of an integer below `2 ^ prec` stands for exactly that many units. -/
theorem units_roundMag_exact (fl : FLen) (n : Nat) (hn : n < 2 ^ fl.prec) :
    units fl (roundMag fl (n * 2 ^ fl.unitExp) 1) = n * 2 ^ fl.unitExp := by
  rcases Nat.eq_zero_or_pos n with rfl | h0
  · cases fl <;> simp [roundMag, units, FLen.prec]
  have hp := FLen.prec_lt_unitExp fl
  have hp0 := FLen.prec_pos fl
  have hl : Nat.log2 n < fl.prec := (Nat.log2_lt h0.ne').2 hn
  have hlo : 2 ^ Nat.log2 n ≤ n := Nat.log2_self_le h0.ne'
  have hhi : n < 2 ^ (Nat.log2 n + 1) := Nat.lt_log2_self
  have hexp : fl.unitExp = (fl.prec - 1 - Nat.log2 n) + (Nat.log2 n + fl.unitExp + 1 - fl.prec) := by omega
  rw [roundMag_exact fl n h0 hn]
  have q1 : 2 ^ (fl.prec - 1) ≤ n * 2 ^ (fl.prec - 1 - Nat.log2 n) := by
    calc 2 ^ (fl.prec - 1) = 2 ^ Nat.log2 n * 2 ^ (fl.prec - 1 - Nat.log2 n) := by rw [← Nat.pow_add]; congr 1; omega
      _ ≤ _ := Nat.mul_le_mul_right _ hlo
  have q2 : n * 2 ^ (fl.prec - 1 - Nat.log2 n) < 2 * 2 ^ (fl.prec - 1) := by
    calc _ < 2 ^ (Nat.log2 n + 1) * 2 ^ (fl.prec - 1 - Nat.log2 n) := Nat.mul_lt_mul_of_pos_right hhi (by positivity)
      _ = 2 ^ (fl.prec - 1 + 1) := by rw [← Nat.pow_add]; congr 1; omega
      _ = _ := by rw [Nat.pow_succ, Nat.mul_comm]
  have hnum : n * 2 ^ fl.unitExp = n * 2 ^ (fl.prec - 1 - Nat.log2 n) * 2 ^ (Nat.log2 n + fl.unitExp + 1 - fl.prec) := by
    rw [Nat.mul_assoc, ← Nat.pow_add, ← hexp]
  rw [hnum]
  generalize n * 2 ^ (fl.prec - 1 - Nat.log2 n) = q at q1 q2 ⊢
  obtain ⟨k, hk⟩ : ∃ k, Nat.log2 n + fl.unitExp + 1 - fl.prec = k := ⟨_, rfl⟩
  rw [hk]
  unfold units
  generalize hh : 2 ^ (fl.prec - 1) = h at q1 q2 ⊢
  have hhp : 0 < h := hh ▸ by positivity
  have hdiv : (k * h + q) / h = k + 1 := by
    rw [show k * h + q = (q - h) + (k + 1) * h by rw [Nat.add_mul]; omega, Nat.add_mul_div_right _ _ hhp,
      Nat.div_eq_of_lt (by omega)]; omega
  have hmod : (k * h + q) % h = q - h := by
    rw [show k * h + q = (q - h) + (k + 1) * h by rw [Nat.add_mul]; omega, Nat.add_mul_mod_self_right,
      Nat.mod_eq_of_lt (by omega)]
  simp only [hdiv, hmod]
  rw [if_neg (by nlinarith [Nat.zero_le (k * h)])]
  rw [Nat.add_sub_cancel, Nat.add_sub_cancel' q1]

/-- An integer below `2 ^ prec` is converted to a finite number. -/
theorem fOfInt_exact (fl : FLen) (n : Int) (hn : n.natAbs < 2 ^ fl.prec) :
    fOfInt fl n = .fin (n < 0) (roundMag fl (n.natAbs * 2 ^ fl.unitExp) 1) := by
  have : roundMag fl (n.natAbs * 2 ^ fl.unitExp) 1 < fl.infMag := by
    rcases Nat.eq_zero_or_pos n.natAbs with h0 | h0
    · rw [h0, Nat.zero_mul]; cases fl <;> decide
    have hl : Nat.log2 n.natAbs < fl.prec := (Nat.log2_lt h0.ne').2 hn
    have hhi : n.natAbs < 2 ^ (Nat.log2 n.natAbs + 1) := Nat.lt_log2_self
    rw [roundMag_exact fl _ h0 hn]
    have hp := FLen.prec_lt_unitExp fl
    have hp0 := FLen.prec_pos fl
    have q2 : n.natAbs * 2 ^ (fl.prec - 1 - Nat.log2 n.natAbs) < 2 * 2 ^ (fl.prec - 1) := by
      calc _ < 2 ^ (Nat.log2 n.natAbs + 1) * 2 ^ (fl.prec - 1 - Nat.log2 n.natAbs) :=
            Nat.mul_lt_mul_of_pos_right hhi (by positivity)
        _ = 2 ^ (fl.prec - 1 + 1) := by rw [← Nat.pow_add]; congr 1; omega
        _ = _ := by rw [Nat.pow_succ, Nat.mul_comm]
    have q3 : (Nat.log2 n.natAbs + fl.unitExp + 1 - fl.prec) * 2 ^ (fl.prec - 1) ≤ fl.unitExp * 2 ^ (fl.prec - 1) :=
      Nat.mul_le_mul_right _ (by omega)
    refine Nat.lt_of_lt_of_le (Nat.add_lt_add_of_le_of_lt q3 q2) ?_
    cases fl <;> decide
  simp only [fOfInt, roundF]
  rw [if_neg (by omega)]

/-- The rounded magnitude of a large number lies at or above the least magnitude of its exponent field. -/
theorem roundMag_ge (fl : FLen) (num : Nat) (h : fl.prec ≤ Nat.log2 num + 1) (h0 : num ≠ 0) :
    (Nat.log2 num + 2 - fl.prec) * 2 ^ (fl.prec - 1) ≤ roundMag fl num 1 := by
  have hp0 := FLen.prec_pos fl
  have hlo : 2 ^ Nat.log2 num ≤ num := Nat.log2_self_le h0
  have hq : 2 ^ (fl.prec - 1) ≤ num / 2 ^ (Nat.log2 num + 1 - fl.prec) := by
    rw [Nat.le_div_iff_mul_le (by positivity), ← Nat.pow_add]
    exact (Nat.pow_le_pow_right (by omega) (by omega)).trans hlo
  unfold roundMag
  simp only [Nat.div_one, Nat.one_mul]
  rw [show Nat.log2 num + 2 - fl.prec = (Nat.log2 num + 1 - fl.prec) + 1 by omega, Nat.add_mul, Nat.one_mul]
  refine Nat.add_le_add_left (hq.trans ?_) _
  split <;> omega

end Sys2Proof.Machine
end

