-- ==== Sys2Proof/Laws/Launch.lean ====
section
/-! SUPPORT. PG.RUN and PG.STEPCOUNT with the host moving alone: their further actions, each a step of its own, in one row. -/

namespace Sys2Proof.Machine

/-- A run in which the host moves next takes the next action of PG.RUN or PG.STEPCOUNT. -/
theorem run_launch {op : LaunchOp} {s : State} {es : List Event} (hc : legalConfig s.cfg = true)
    (hs : HostTurns 1 s es) (hb : s.busy = some (.launch op)) (k : Nat) :
    Host.Core.run core (k + 1) s = Host.Core.run core k (launchStep op { s with sched := es }) :=
  run_next (step_launch hc hs hb) k

/-- From the settle delay to the loop's first phase (R212, R213). The schedule `turns n` is that of a host that has `n` turns to
go. -/
theorem run_launchTurns (op : LaunchOp) {s : State} (hc : legalConfig s.cfg = true) (turns : Nat → List Event)
    (ht : ∀ n, turns (n + 1) = [] ∧ turns n = [] ∨ turns (n + 1) = .host :: turns n) :
    Host.Core.run core 5 (launchSettle op { s with sched := turns 5 }) = .next { s with
      pg := { s.pg with
        phase := .high 0, dir := ⟨op.dir, .written⟩, half := ⟨op.half, .written⟩, target := op.target, count := 0, cbEn := op.cbEn
        running := true, stepOut := true, dirOut := ⟨dirLevel s.cfg op.dir, .written⟩
        ok := if op.background then true else s.pg.ok, err := if op.background then 0 else s.pg.err }
      busy := if op.background then none else some .loopEnd
      ret := if op.background then some ⟨.pg, true, 0, .none⟩ else s.ret
      hist := s.hist ++ [.delay s.cfg.settleMs, .dout .dir (dirLevel s.cfg op.dir),
        .toggleStart op.half op.half op.target.iterations op.background op.target.counted, .dout .step true]
      sched := turns 0 } := by
  have go : ∀ (a : LaunchAct) (u : State) (k : Nat), u.cfg = s.cfg ∧ u.sched = turns (k + 1) →
      u.busy = some (.launch { op with act := a }) →
      Host.Core.run core (k + 1) u = Host.Core.run core k (launchStep { op with act := a } { u with sched := turns k }) :=
    fun a u k h1 h2 => run_launch (h1.1 ▸ hc) (by have h := ht k; rw [← h1.2] at h; exact h) h2 k
  have keep : ∀ (a : LaunchAct) (u : State) (k : Nat), u.cfg = s.cfg →
      (launchStep { op with act := a } { u with sched := turns k }).cfg = s.cfg ∧
        (launchStep { op with act := a } { u with sched := turns k }).sched = turns k :=
    fun a u k h => ⟨(launchStep_frame _ _).cfg.trans h, (launchStep_frame _ _).sched⟩
  have k0 : (launchSettle op { s with sched := turns 5 }).cfg = s.cfg ∧
      (launchSettle op { s with sched := turns 5 }).sched = turns 5 := ⟨rfl, rfl⟩
  have k1 := keep .delay _ 4 k0.1
  have k2 := keep .dir _ 3 k1.1
  have k3 := keep .registers _ 2 k2.1
  have k4 := keep .start _ 1 k3.1
  rw [go .delay _ 4 k0 rfl, go .dir _ 3 k1 rfl, go .registers _ 2 k2 rfl, go .start _ 1 k3 rfl, go .stepOn _ 0 k4 rfl]
  simp only [Host.Core.run]
  obtain ⟨d, h, t, cb, bg, a⟩ := op
  cases bg <;>
    simp [launchStep, launchNext, launchSettle, launched, setDir, setStep, pgGo, State.log, opOk, opReturn,
      State.setFlags, State.rest]

/-- From the settle delay to the loop's first phase, the host's turns coming from an empty schedule or from its entries. -/
theorem run_launchSettle (op : LaunchOp) {s : State} {es : List Event} (hc : legalConfig s.cfg = true)
    (hs : HostTurns 5 s es) :
    Host.Core.run core 5 (launchSettle op s) = .next { s with
      pg := { s.pg with
        phase := .high 0, dir := ⟨op.dir, .written⟩, half := ⟨op.half, .written⟩, target := op.target, count := 0, cbEn := op.cbEn
        running := true, stepOut := true, dirOut := ⟨dirLevel s.cfg op.dir, .written⟩
        ok := if op.background then true else s.pg.ok, err := if op.background then 0 else s.pg.err }
      busy := if op.background then none else some .loopEnd
      ret := if op.background then some ⟨.pg, true, 0, .none⟩ else s.ret
      hist := s.hist ++ [.delay s.cfg.settleMs, .dout .dir (dirLevel s.cfg op.dir),
        .toggleStart op.half op.half op.target.iterations op.background op.target.counted, .dout .step true]
      sched := es } := by
  rcases hs with ⟨hs, rfl⟩ | hs
  · have h := run_launchTurns op (s := s) hc (fun _ => []) (fun _ => .inl ⟨rfl, rfl⟩)
    rw [show ({ s with sched := [] } : State) = s by rw [← hs]] at h
    exact h
  · have h := run_launchTurns op (s := s) hc (fun n => List.replicate n .host ++ es) (fun n => .inr (by simp [List.replicate_succ]))
    rw [show ({ s with sched := List.replicate 5 .host ++ es } : State) = s by rw [← hs]] at h
    exact h

end Sys2Proof.Machine
end

