-- ==== Sys2Proof/Laws/PerInstr.lean ====
section
/-! SUPPORT. The statement made of every constructor of Instr: its descriptor starts with an opcode byte whose bits 7:4 name the
operation's unit. -/

namespace Sys2Proof.Laws.EncodeForm

/-- "Opcode bits 7:4 name the unit (0 PT, 1 CR, 2 SP, 3 PG)" (30_encoding.md R114). -/
def Statement (i : Instr) : Prop :=
  ∃ (op : Byte) (rest : List Byte), encode i = op :: rest ∧ op.toNat / 16 = unitNumber i.unit

theorem ptWriteframe (r : Byte) (ack : Bool) (bytes : List Byte) : Statement (.ptWriteframe r ack bytes) := ⟨_, _, rfl, rfl⟩

theorem ptReadwords (cc w : Byte) : Statement (.ptReadwords cc w) := ⟨_, _, rfl, rfl⟩

theorem ptReadbytepair (cc : Byte) : Statement (.ptReadbytepair cc) := ⟨_, _, rfl, rfl⟩

theorem ptVerifyid : Statement .ptVerifyid := ⟨_, _, rfl, rfl⟩

theorem crWritecmd (t : Byte) : Statement (.crWritecmd t) := ⟨_, _, rfl, rfl⟩

theorem crWritecmdp (t : Byte) (p : BitVec 16) : Statement (.crWritecmdp t p) := ⟨_, _, rfl, rfl⟩

theorem crReadword : Statement .crReadword := ⟨_, _, rfl, rfl⟩

theorem crReadwordsn (n : BitVec 16) : Statement (.crReadwordsn n) := ⟨_, _, rfl, rfl⟩

theorem crIdcheck : Statement .crIdcheck := ⟨_, _, rfl, rfl⟩

theorem crIstaskdone (wait : Bool) : Statement (.crIstaskdone wait) := ⟨_, _, rfl, rfl⟩

theorem crScanretr : Statement .crScanretr := ⟨_, _, rfl, rfl⟩

theorem spActivate (m : Mode) : Statement (.spActivate m) := ⟨_, _, rfl, rfl⟩

theorem spDeactivate : Statement .spDeactivate := ⟨_, _, rfl, rfl⟩

theorem spCalend : Statement .spCalend := ⟨_, _, rfl, rfl⟩

theorem spPop : Statement .spPop := ⟨_, _, rfl, rfl⟩

theorem spPopt (ms : BitVec 32) : Statement (.spPopt ms) := ⟨_, _, rfl, rfl⟩

theorem pgRun (d : Dir) (v : FBits) : Statement (.pgRun d v) := ⟨_, _, rfl, rfl⟩

theorem pgStepcount (n : BitVec 32) (d : Dir) (v : FBits) (bg cb : Bool) : Statement (.pgStepcount n d v bg cb) := ⟨_, _, rfl, rfl⟩

theorem pgStop : Statement .pgStop := ⟨_, _, rfl, rfl⟩

theorem pgGetstepcount : Statement .pgGetstepcount := ⟨_, _, rfl, rfl⟩

theorem pgClose : Statement .pgClose := ⟨_, _, rfl, rfl⟩

end Sys2Proof.Laws.EncodeForm
end

