-- ==== Sys2Proof/Tests/Slice0.lean ====
section
/-! SUPPORT. The model's own tests: ill-formed terms, descriptors written out from 30_encoding.md R114, vectors of
95_test_vectors.md (named in each comment) run one step from a small state, and for every obligation with hypotheses a state
and operands that meet them. -/

namespace Sys2Proof.Tests

open Sys2Proof Sys2Proof.Machine

/-! ### Helpers -/

/-- The block after reset with the environment's moves and the two receive sides given. -/
def ready (env : List EnvMove) (pt cr : List Byte) : State := { State.reset with env := env, ptRx := pt, crRx := cr }

/-- The block after reset with descriptor bytes to issue and a schedule. -/
def hosted (host : List Byte) (sched : List Event) : State := { State.reset with host := host, sched := sched }

/-- The block after reset with another SP unit. -/
def withSp (u : SpUnit) : State := { State.reset with sp := u }

/-- The block after reset with another PG unit. -/
def withPg (u : PgUnit) : State := { State.reset with pg := u }

/-- What is seen of the next state, none if there is none. -/
def got {α : Type} (o : Outcome) (f : State → α) : Option α :=
  match o with
  | .next t => some (f t)
  | _ => none

/-- What is seen after `n` more steps. -/
def gotAfter {α : Type} (n : Nat) (o : Outcome) (f : State → α) : Option α :=
  match o with
  | .next t => got (Host.Core.run core n t) f
  | _ => none

/-- A call that lets the environment fail the outstanding call. -/
abbrev no : EnvMove := .answer .fail

/-- A calibrated SP unit, active in a mode, with offsets given. -/
def calibrated (m : Mode) (offset : List F) : SpUnit :=
  { SpUnit.reset 1 with active := true, mode := m, offset := ⟨offset, .written⟩, offsetValid := true }

/-- An SP unit that calibrates. -/
def calibrating (count : BitVec 32) (sum : List (BitVec 64)) : SpUnit :=
  { SpUnit.reset 1 with active := true, mode := .cal, count := count, sum := sum }

/-- A PG unit whose counted loop with a callback turns clockwise. -/
def turning (phase : PgPhase) (target : Target) (count : BitVec 32) (stepOut cb : Bool) : PgUnit :=
  { PgUnit.reset with
    phase := phase, target := target, count := count, stepOut := stepOut, cbEn := cb, running := true
    dir := ⟨.cw, .written⟩, half := ⟨.fin false 0x3A800000, .written⟩, dirOut := ⟨true, .written⟩ }

/-- `F` at 32 bits from an integer. -/
abbrev f32 (z : Int) : F := fOfInt .f32 z

/-- The configuration of reset with the other float format. -/
def cfg64 : Config :=
  { Config.initial with
    flen := .f64, deadZone := fOfInt .f64 20, sens := .fin false 0x3FB0000000000000, odr := fOfInt .f64 64
    microsteps := fOfInt .f64 512 }

theorem legal_initial : legalConfig Config.initial = true := by decide +kernel

/-! ### Ill-formed operations: one per check of WellFormed (R119) -/

theorem test_len_above_txmax_ill_formed :
    Instr.wellFormed Config.initial (.ptWriteframe 2 true (List.replicate 33 0)) = false ∧
    Instr.wellFormed Config.initial (.ptWriteframe 2 true (List.replicate 32 0)) = true := by decide

theorem test_wordcount_above_wmax_ill_formed :
    Instr.wellFormed Config.initial (.ptReadwords 0x10 17) = false ∧
    Instr.wellFormed Config.initial (.ptReadwords 0x10 16) = true := by decide

theorem test_count_out_of_range_ill_formed :
    Instr.wellFormed Config.initial (.pgStepcount 0 .cw (.b32 0x42700000) true true) = false ∧
    Instr.wellFormed Config.initial (.pgStepcount 0x80000000 .cw (.b32 0x42700000) true true) = false ∧
    Instr.wellFormed Config.initial (.pgStepcount 0x7FFFFFFF .cw (.b32 0x42700000) true true) = true := by decide

/-- PG-4b: 0.0, -60.0, NaN, +inf; and a pattern of the other format. -/
theorem test_speed_ill_formed :
    Instr.wellFormed Config.initial (.pgRun .cw (.b32 0)) = false ∧
    Instr.wellFormed Config.initial (.pgRun .cw (.b32 0xC2700000)) = false ∧
    Instr.wellFormed Config.initial (.pgRun .cw (.b32 0x7FC00000)) = false ∧
    Instr.wellFormed Config.initial (.pgRun .cw (.b32 0x7F800000)) = false ∧
    Instr.wellFormed Config.initial (.pgRun .cw (.b64 0x404E000000000000)) = false ∧
    Instr.wellFormed Config.initial (.pgRun .cw (.b32 0x7F7FFFFF)) = true ∧
    Instr.wellFormed Config.initial (.pgRun .cw (.b32 1)) = true := by decide

theorem test_step_speed_ill_formed :
    Instr.wellFormed Config.initial (.pgStepcount 1 .cw (.b32 0x80000000) true true) = false ∧
    Instr.wellFormed cfg64 (.pgStepcount 1 .cw (.b64 0x7FF0000000000000) true true) = false ∧
    Instr.wellFormed cfg64 (.pgStepcount 1 .cw (.b64 0x404E000000000000) true true) = true := by decide +kernel

/-! ### Descriptors, byte by byte (95_test_vectors.md 2.6) -/

theorem test_decode_pt :
    decode .f32 [0x01, 0x02, 0x01, 0x00, 0x03, 0x80, 0x00, 0x40] = .ok (.ptWriteframe 2 true [0x80, 0x00, 0x40], []) ∧
    decode .f32 [0x01, 0x00, 0x00, 0x00, 0x00] = .ok (.ptWriteframe 0 false [], []) ∧
    decode .f32 [0x02, 0x10, 0x01] = .ok (.ptReadwords 0x10 1, []) ∧
    decode .f32 [0x03, 0x5A] = .ok (.ptReadbytepair 0x5A, []) ∧
    decode .f32 [0x04] = .ok (.ptVerifyid, []) := ⟨rfl, rfl, rfl, rfl, rfl⟩

theorem test_decode_cr :
    decode .f32 [0x10, 0x49] = .ok (.crWritecmd 0x49, []) ∧
    decode .f32 [0x11, 0x53, 0x01, 0x68] = .ok (.crWritecmdp 0x53 360, []) ∧
    decode .f32 [0x12] = .ok (.crReadword, []) ∧
    decode .f32 [0x13, 0x01, 0x69] = .ok (.crReadwordsn 361, []) ∧
    decode .f32 [0x14] = .ok (.crIdcheck, []) ∧
    decode .f32 [0x15, 0x01] = .ok (.crIstaskdone true, []) ∧
    decode .f32 [0x15, 0x00] = .ok (.crIstaskdone false, []) ∧
    decode .f32 [0x16] = .ok (.crScanretr, []) := ⟨rfl, rfl, rfl, rfl, rfl, rfl, rfl, rfl⟩

theorem test_decode_sp :
    decode .f32 [0x20, 0x00] = .ok (.spActivate .raw, []) ∧ decode .f32 [0x20, 0x01] = .ok (.spActivate .cal, []) ∧
    decode .f32 [0x20, 0x02] = .ok (.spActivate .offset, []) ∧ decode .f32 [0x20, 0x03] = .ok (.spActivate .deadZone, []) ∧
    decode .f32 [0x20, 0x04] = .ok (.spActivate .heading, []) ∧
    decode .f32 [0x21] = .ok (.spDeactivate, []) ∧ decode .f32 [0x22] = .ok (.spCalend, []) ∧
    decode .f32 [0x23] = .ok (.spPop, []) ∧
    decode .f32 [0x24, 0x00, 0x00, 0x01, 0xF4] = .ok (.spPopt 500, []) :=
  ⟨rfl, rfl, rfl, rfl, rfl, rfl, rfl, rfl, rfl⟩

theorem test_decode_pg :
    decode .f32 [0x30, 0x00, 0x42, 0x70, 0x00, 0x00] = .ok (.pgRun .cw (.b32 0x42700000), []) ∧
    decode .f64 [0x30, 0x01, 0x40, 0x4E, 0, 0, 0, 0, 0, 0] = .ok (.pgRun .ccw (.b64 0x404E000000000000), []) ∧
    decode .f32 [0x31, 0x06, 0x00, 0x00, 0x00, 0x64, 0x42, 0x70, 0x00, 0x00] =
      .ok (.pgStepcount 100 .cw (.b32 0x42700000) true true, []) ∧
    decode .f32 [0x31, 0x01, 0x00, 0x00, 0x00, 0x05, 0x42, 0xF0, 0x00, 0x00] =
      .ok (.pgStepcount 5 .ccw (.b32 0x42F00000) false false, []) ∧
    decode .f32 [0x32] = .ok (.pgStop, []) ∧ decode .f32 [0x33] = .ok (.pgGetstepcount, []) ∧
    decode .f32 [0x34] = .ok (.pgClose, []) := ⟨rfl, rfl, rfl, rfl, rfl, rfl, rfl⟩

/-- The list "refused" of 2.6, and descriptors whose operand fields are cut off. -/
theorem test_decode_refused :
    decode .f32 [0x00] = .error (.opcode 0x00) ∧ decode .f32 [0x05] = .error (.opcode 0x05) ∧
    decode .f32 [0x17] = .error (.opcode 0x17) ∧ decode .f32 [0x25] = .error (.opcode 0x25) ∧
    decode .f32 [0x35] = .error (.opcode 0x35) ∧ decode .f32 [0xFF] = .error (.opcode 0xFF) ∧
    decode .f32 [0x20, 0x05] = .error (.reservedMode 0x05) ∧ decode .f32 [0x15, 0x02] = .error (.reservedFlags 0x02) ∧
    decode .f32 [0x30, 0x02, 0x42, 0x70, 0x00, 0x00] = .error (.reservedFlags 0x02) ∧
    decode .f32 [0x31, 0x08, 0x00, 0x00, 0x00, 0x01, 0x42, 0x70, 0x00, 0x00] = .error (.reservedFlags 0x08) ∧
    decode .f32 [0x01, 0x02, 0x01, 0x00, 0x03, 0x80, 0x00] = .error .truncated ∧
    decode .f64 [0x30, 0x00, 0x42, 0x70, 0x00, 0x00] = .error .truncated ∧ decode .f32 [] = .error .empty :=
  ⟨rfl, rfl, rfl, rfl, rfl, rfl, rfl, rfl, rfl, rfl, rfl, rfl, rfl⟩

theorem test_encode_words :
    encode (.ptWriteframe 2 true [0x80, 0x00, 0x40]) = [0x01, 0x02, 0x01, 0x00, 0x03, 0x80, 0x00, 0x40] ∧
    encode (.crReadwordsn 361) = [0x13, 0x01, 0x69] ∧
    encode (.spActivate .heading) = [0x20, 0x04] ∧
    encode (.pgStepcount 100 .cw (.b32 0x42700000) true true) =
      [0x31, 0x06, 0x00, 0x00, 0x00, 0x64, 0x42, 0x70, 0x00, 0x00] := by decide

/-- Two words of spec/opcode_table.json: the first byte is in the low bits, the operand words after it are zeros. -/
theorem test_table_words :
    decodeTableWord 8 0x16 = some .crScanretr ∧ decodeTableWord 8 0x01 = some (.ptWriteframe 0 false []) := by decide

/-! ### CRC and floats -/

/-- V1, V2, V4, V5, V6, V7, V10, V17. -/
theorem test_crc_vectors :
    crc16 0x1021 0 [] = 0 ∧ crc16 0x1021 0 [0x00] = 0 ∧ crc16 0x1021 0 [0x01] = 0x1021 ∧
    crc16 0x1021 0 [0x80] = 0x9188 ∧ crc16 0x1021 0 [0xFF] = 0x1EF0 ∧
    crc16 0x1021 0 [0x31, 0x32, 0x33, 0x34, 0x35, 0x36, 0x37, 0x38, 0x39] = 0x31C3 ∧
    crc16 0x1021 0 [0x80, 0x00, 0x40] = 0x739E ∧
    crc16 0x1021 0 [0x80, 0x10, 0x00, 0x00, 0x12, 0x34, 0xFF, 0xFF, 0xFF, 0xFE] = 0x2A08 := by decide +kernel

/-- PG-3 and PG-4, in both formats. -/
theorem test_half_period_rounds :
    halfPeriod { Config.initial with microsteps := f32 200 } (f32 60) = .fin false 0x3B23D70A ∧
    halfPeriod { Config.initial with microsteps := f32 200 } (f32 1) = .fin false 0x3E199999 ∧
    halfPeriod { cfg64 with microsteps := fOfInt .f64 200 } (fOfInt .f64 60) = .fin false 0x3F647AE147AE147B ∧
    halfPeriod { cfg64 with microsteps := fOfInt .f64 200 } (fOfInt .f64 1) = .fin false 0x3FC3333333333333 := by
  decide +kernel

/-- SP-4b: 31 / 3 in both formats. -/
theorem test_division_rounds :
    fDiv .f32 (f32 31) (f32 3) = .fin false 0x41255555 ∧
    fDiv .f64 (fOfInt .f64 31) (fOfInt .f64 3) = .fin false 0x4024AAAAAAAAAAAB := by decide +kernel

/-- Ties to even, overflow to infinity, and the signs of zero and of a quotient by zero (R17: IEEE 754). -/
theorem test_float_corners :
    f32 16777217 = f32 16777216 ∧ f32 16777219 = f32 16777220 ∧
    fAdd .f32 (.fin false 0x7F7FFFFF) (.fin false 0x7F7FFFFF) = .inf false ∧
    fAdd .f32 (.fin true 0) (.fin true 0) = .fin true 0 ∧ fSub .f32 (f32 5) (f32 5) = F.zero ∧
    fDiv .f32 (f32 (-1)) F.zero = .inf true ∧ fDiv .f32 F.zero F.zero = .nan := by decide +kernel

/-! ### PT -/

/-- The frame of V10 with its CRC. -/
abbrev frame : List Byte := [0x80, 0x00, 0x40, 0x73, 0x9E]

/-- PT-4b: three attempts with a wrong acknowledge, IOFail, and a wrong acknowledge. -/
theorem test_writeframe_exhausts :
    got (exec (.ptWriteframe 2 true [0x80, 0x00, 0x40]) (ready (proceeds 11 ++ no :: proceeds 6) [0x00, 0xFE] []))
      (fun t => (t.pt.ok, t.pt.err, t.pt.attempts, wire .pt t.hist, t.busy.isSome)) =
      some (false, 1, 3, frame ++ frame ++ frame, false) := by decide +kernel

/-- PT-5: a write that fails in the middle of attempt 1. -/
theorem test_writeframe_partial_frame :
    got (exec (.ptWriteframe 1 true [0x80, 0x00, 0x40]) (ready (proceeds 2 ++ no :: proceeds 6) [0xFF] []))
      (fun t => (t.pt.ok, t.pt.attempts, wire .pt t.hist, t.ptRx)) =
      some (true, 2, [0x80, 0x00] ++ frame, []) := by decide +kernel

/-- PT-6. -/
theorem test_readwords :
    got (exec (.ptReadwords 0x10 2)
        (ready (proceeds 12) [0x00, 0x00, 0x12, 0x34, 0xFF, 0xFF, 0xFF, 0xFE, 0x2A, 0x08] []))
      (fun t => (t.pt.ok, t.pt.data, t.pt.crc, t.pt.rxcrc, t.pt.attempts)) =
      some (true, ⟨[0x00001234, 0xFFFFFFFE], .written⟩, 0x2A08, ⟨0x2A08, .written⟩, 1) := by decide +kernel

/-- PT-11: the stale byte misaligns the two later attempts. -/
theorem test_readwords_stale_byte :
    got (exec (.ptReadwords 0x10 1)
        (ready (proceeds 7 ++ [no, .rx .pt [0xBC, 0x00, 0x00, 0x12, 0x34, 0xC3, 0xBC]] ++ proceeds 8 ++
          .rx .pt [0xBC, 0x00, 0x00, 0x12, 0x34, 0xC3, 0xBC] :: proceeds 8) [0x00, 0x00, 0x12, 0x34, 0xC3] []))
      (fun t => ((t.pt.ok, t.pt.err, t.pt.attempts), t.pt.crc, t.pt.rxcrc.val, t.ptRx)) =
      some ((false, 2, 3), 0x5CEA, 0x34C3, [0xBC]) := by decide +kernel

/-- PT-8. -/
theorem test_readbytepair :
    got (exec (.ptReadbytepair 0x5A) (ready (proceeds 6) [0x00, 0x01, 0x54, 0x16] []))
      (fun t => (t.pt.ok, t.pt.pair, t.pt.crc)) = some (true, ⟨(0x00, 0x01), .written⟩, 0x5416) := by decide +kernel

/-- PT-12: the wire carries 80 15 59 0C, one byte is taken. -/
theorem test_verifyid_confirms :
    got (exec .ptVerifyid (ready (proceeds 6) [0x37, 0x38] []))
      (fun t => (t.pt.ok, wire .pt t.hist, t.ptRx)) = some (true, [0x80, 0x15, 0x59, 0x0C], [0x38]) := by decide +kernel

/-- PT-13. -/
theorem test_verifyid_silent_peer :
    got (exec .ptVerifyid (ready (proceeds 4 ++ [no]) [] []))
      (fun t => (t.pt.ok, t.pt.err, t.pt.attempts)) = some (false, 3, 1) := by decide +kernel

/-! ### CR -/

/-- CR-1. -/
theorem test_writecmd :
    got (exec (.crWritecmd 0x49) (ready (proceeds 1) [] [])) (fun t => (t.cr.ok, wire .cr t.hist)) =
      some (true, [0x49]) := by decide

/-- CR-2: parameter 360. -/
theorem test_writecmdp :
    got (exec (.crWritecmdp 0x53 360) (ready (proceeds 3) [] [])) (fun t => (t.cr.ok, wire .cr t.hist)) =
      some (true, [0x53, 0x01, 0x68]) := by decide

/-- CR-2c. -/
theorem test_writecmdp_fails :
    got (exec (.crWritecmdp 0x53 360) (ready (proceeds 1 ++ [no]) [] [])) (fun t => (t.cr.ok, t.cr.err, wire .cr t.hist)) =
      some (false, 1, [0x53]) := by decide

/-- CR-7: FF 38 is -200. -/
theorem test_readword_signed :
    got (exec .crReadword (ready (proceeds 2) [] [0xFF, 0x38])) (fun t => (t.cr.ok, t.cr.word.val.toInt)) =
      some (true, -200) := by decide

/-- CR-8: the byte read before the failure is gone. -/
theorem test_readword_fails :
    got (exec .crReadword (ready (proceeds 1 ++ [no]) [] [0x02, 0x58])) (fun t => (t.cr.ok, t.cr.err, t.cr.word.held, t.crRx)) =
      some (false, 1, .atReset, [0x58]) := by decide

/-- CR-9. -/
theorem test_readwordsn :
    got (exec (.crReadwordsn 2) (ready (proceeds 4) [] [0x00, 0x0A, 0xFF, 0xF6]))
      (fun t => (t.cr.data.val.map (·.toInt), t.cr.data.held, t.cr.word.val.toInt)) =
      some ([10, -10], .written, -10) := by decide

/-- CR-10b: a mismatch is not an error. -/
theorem test_idcheck_mismatch :
    got (exec .crIdcheck (ready (proceeds 4) [] [0x02, 0x59])) (fun t => (t.cr.ok, t.cr.word.val, t.cr.matched)) =
      some (true, 601, false) := by decide

/-- CR-10c: one byte is not a word, and stays queued. -/
theorem test_idcheck_unavailable :
    got (exec .crIdcheck (ready (proceeds 2) [] [0x02])) (fun t => (t.cr.ok, t.cr.err, t.crRx)) =
      some (false, 3, [0x02]) := by decide

/-- CR-11b. -/
theorem test_istaskdone_takes_one_word :
    got (exec (.crIstaskdone false) (ready (proceeds 3) [] [0x00, 0x00, 0x07, 0x08]))
      (fun t => (t.cr.ok, t.cr.done, t.crRx)) = some (true, true, [0x07, 0x08]) := by decide

/-- CR-11c: two polls before a word is there. -/
theorem test_istaskdone_polls :
    got (exec (.crIstaskdone true) (ready (proceeds 1 ++ .rx .cr [] :: (proceeds 1 ++ .rx .cr [0x00, 0x01] :: proceeds 3)) []
        [0x44]))
      (fun t => (t.cr.done, t.cr.word.val, t.hist.take 5)) =
      some (true, 1, [.avail .cr 1, .delay 1000, .avail .cr 0, .delay 1000, .avail .cr 2]) := by decide

/-- CR-12. -/
theorem test_scanretr_sentinel :
    got (exec .crScanretr (ready (proceeds 9) [] [0xFF, 0xFF, 0x01, 0x02]))
      (fun t => (t.cr.ok, t.cr.err, t.cr.word.val.toInt, t.cr.data.held, t.crRx)) =
      some (false, 4, -1, .failed, [0x01, 0x02]) := by decide

/-- CR-13: `SCAN_WORDS = 3`. -/
theorem test_scanretr_payload :
    got (exec .crScanretr { ready (proceeds 9) [] [0x00, 0x00, 0x00, 0x0A, 0xFF, 0xF6, 0x7F, 0xFF] with
        cfg := { Config.initial with scanWords := 3 } })
      (fun t => (t.cr.ok, t.cr.data.val.map (·.toInt))) = some (true, [10, -10, 32767]) := by decide

/-! ### SP -/

/-- SP-10: no calibration yet. -/
theorem test_activate_heading_rejected :
    got (exec (.spActivate .heading) State.reset) (fun t => (t.sp.ok, t.sp.err, t.sp.active)) =
      some (false, 6, false) := by decide

/-- R182: an accepted activation clears queue, overrun mark and timestamp reference. -/
theorem test_activate_clears :
    got (exec (.spActivate .heading)
        (withSp { calibrated .raw [F.zero] with q := [.angle F.zero], ovr := true, lastTs := 7, angle := f32 3 }))
      (fun t => (t.sp.mode, t.sp.q, t.sp.ovr, t.sp.lastTs, t.sp.angle, t.sp.offsetValid)) =
      some (.heading, [], false, 0, F.zero, true) := by decide +kernel

/-- R183: the queue is kept. -/
theorem test_deactivate_keeps_queue :
    got (exec .spDeactivate (withSp { calibrated .heading [F.zero] with q := [.angle F.zero] }))
      (fun t => (t.sp.active, t.sp.ok, t.sp.q)) = some (false, true, [.angle F.zero]) := by decide

/-- SP-4b: `sp_sum = [31]`, `sp_count = 8`. -/
theorem test_calend_average :
    got (exec .spCalend (withSp (calibrating 8 [31]))) (fun t => (t.sp.ok, t.sp.offset, t.sp.offsetValid, t.sp.active)) =
      some (true, ⟨[.fin false 0x41255555], .written⟩, true, false) := by decide +kernel

/-- SP-5: no sample accumulated. -/
theorem test_calend_too_early :
    got (exec .spCalend (withSp (calibrating 5 [0]))) (fun t => (t.sp.ok, t.sp.err, t.sp.offset.held, t.sp.offsetValid, t.sp.active)) =
      some (false, 6, .failed, false, false) := by decide +kernel

/-- R185: the worked example `[Angle(0.5), Angle(0.75)]`. -/
theorem test_pop_oldest :
    got (exec .spPop (withSp { SpUnit.reset 1 with q := [.angle (.fin false 0x3F000000), .angle (.fin false 0x3F400000)] }))
      (fun t => (t.ret, t.sp.q)) =
      some (some ⟨.sp, true, 0, .elem (.angle (.fin false 0x3F000000))⟩, [.angle (.fin false 0x3F400000)]) := by decide

/-- SP-12. -/
theorem test_popt_times_out :
    got (exec (.spPopt 500) (ready [no] [] [])) (fun t => (t.sp.ok, t.sp.err, t.busy.isSome)) =
      some (false, 3, false) := by decide

/-- SP-2b: a timestamp that goes back. -/
theorem test_irq_raw_delta :
    got (spIrq 1005000 [0] (withSp { calibrated .raw [F.zero] with lastTs := 1010000 })) (fun t => (t.sp.lastTs, t.sp.q)) =
      some (1005000, [.sample (.raw [0]) (-5000)]) := by decide

/-- SP-7c: no clamp in mode Offset. -/
theorem test_irq_offset :
    got (spIrq 5000 [110] (withSp (calibrated .offset [f32 100]))) (fun t => t.sp.q) =
      some [.sample (.float [f32 10]) 5000] := by decide +kernel

/-- SP-7: raw 79, 80, 120 and 121. -/
theorem test_irq_deadzone :
    [79, 80, 120, 121].map (fun v => got (spIrq 0 [v] (withSp (calibrated .deadZone [f32 100]))) (fun t => t.sp.q)) =
      [f32 (-21), F.zero, F.zero, f32 21].map (fun x => some [.sample (.float [x]) 0]) := by decide +kernel

/-- SP-8, the first interrupt: 0.09765625 is 0x3DC80000. -/
theorem test_irq_heading :
    got (spIrq 9 [100] (withSp (calibrated .heading [F.zero]))) (fun t => (t.sp.angle, t.sp.q, t.sp.lastTs)) =
      some (.fin false 0x3DC80000, [.angle (.fin false 0x3DC80000)], 0) := by decide +kernel

/-- R189: interrupt 5 is discarded, interrupt 6 accumulated. -/
theorem test_irq_cal_discards :
    got (spIrq 0 [100] (withSp (calibrating 4 [0]))) (fun t => (t.sp.count, t.sp.sum)) = some (5, [0]) ∧
    got (spIrq 0 [BitVec.ofInt 32 (-37)] (withSp (calibrating 5 [0]))) (fun t => (t.sp.count, t.sp.sum.map (·.toInt))) =
      some (6, [-37]) := by decide +kernel

/-- SP-9: the fifth push is dropped. -/
theorem test_queue_overrun :
    got (spIrq 3 [1] (withSp { calibrated .raw [] with q := List.replicate 4 (.angle F.zero) }))
      (fun t => (t.sp.q.length, t.sp.ovr, t.sp.lastTs, t.hist)) =
      some (4, true, 3, [.busRead [1], .emit .queueOverrun]) := by decide

/-! ### PG -/

/-- PG-8: PG.RUN while a counted loop is in Low(41), and its five further actions. -/
theorem test_run_replaces_loop :
    gotAfter 5 (exec (.pgRun .ccw (.b32 0x42700000)) (withPg (turning (.low 41) (.finite 100) 41 false true)))
      (fun t => ((t.pg.phase, t.pg.target, t.pg.count, t.pg.cbEn), t.pg.half.val, t.pg.dirOut.val, t.hist.take 3)) =
      some ((.high 0, .infinite, 0, false), .fin false 0x3A800000, false, [.toggleStop, .delay 100, .dout .dir false]) := by
  decide +kernel

/-- PG-11. -/
theorem test_run_after_close :
    got (exec (.pgRun .cw (.b32 0x42700000)) (withPg { PgUnit.reset with phase := .closed, closed := true }))
      (fun t => (t.pg.ok, t.pg.err, t.hist)) = some (false, 6, []) := by decide

/-- PG-5, the start of the loop; P4 step 10: rejected until the completion action has run. -/
theorem test_stepcount :
    gotAfter 5 (exec (.pgStepcount 100 .cw (.b32 0x42700000) true true) State.reset)
      (fun t => ((t.pg.phase, t.pg.target, t.pg.running), t.pg.ok, t.busy.isSome, t.hist)) =
      some ((.high 0, .finite 100, true), true, false, [.delay 100, .dout .dir true,
        .toggleStart (.fin false 0x3A800000) (.fin false 0x3A800000) (some 100) true true, .dout .step true]) ∧
    got (exec (.pgStepcount 5 .ccw (.b32 0x42700000) true false)
        (withPg (turning .completing (.finite 3) 3 false true)))
      (fun t => ((t.pg.ok, t.pg.err, t.pg.dir.val), t.pg.phase, t.hist)) =
      some ((false, 6, .cw), .completing, []) := by decide +kernel

/-- R82: an interrupt and a reset fall between the actions of PG.STEPCOUNT, the reset after ToggleStart. -/
theorem test_events_between_actions :
    gotAfter 6 (exec (.pgStepcount 100 .cw (.b32 0x42700000) true true)
        { withSp (calibrated .raw []) with sched := [.host, .irq 7 [1], .host, .host, .host, .reset] })
      (fun t => ((t.pg.phase, t.pg.running, t.busy.isSome), t.hist)) =
      some ((.noLoop, false, false), [.delay 100, .busRead [1], .dout .dir true,
        .toggleStart (.fin false 0x3A800000) (.fin false 0x3A800000) (some 100) true true, .toggleStop, .dout .step false,
        .reset]) := by decide +kernel

/-- PG-7. -/
theorem test_stop_without_loop :
    got (exec .pgStop State.reset) (fun t => (t.pg.ok, t.pg.phase, t.hist)) = some (true, .noLoop, []) := by decide

/-- P4 step 14: the loop is halted, and no callback means no Complete. -/
theorem test_stop_halts :
    got (exec .pgStop (withPg (turning (.high 0) (.finite 2) 0 true false)))
      (fun t => (t.pg.phase, t.pg.running, t.hist)) = some (.noLoop, false, [.toggleStop]) := by decide

/-- P4 step 5. -/
theorem test_getstepcount :
    got (exec .pgGetstepcount (withPg (turning (.high 1) (.finite 3) 1 true true))) (fun t => (t.ret, t.pg.phase, t.hist)) =
      some (some ⟨.pg, true, 0, .count 1⟩, .high 1, [.toggleCycles 1]) := by decide

/-- P4 step 16. -/
theorem test_close :
    got (exec .pgClose State.reset) (fun t => (t.pg.phase, t.pg.closed, t.pg.ok)) = some (.closed, true, true) := by decide

/-- P4 steps 9 and 11: the target, then the completion action. -/
theorem test_toggle_completes :
    got (pgToggle (withPg (turning (.low 2) (.finite 3) 2 false true))) (fun t => (t.pg.phase, t.pg.count, t.pg.stepOut)) =
      some (.completing, 3, false) ∧
    got (pgToggle (withPg (turning .completing (.finite 3) 3 false true))) (fun t => (t.pg.phase, t.pg.running, t.hist)) =
      some (.noLoop, false, [.emit .complete]) := by decide

/-! ### Witnesses: what each obligation assumes can be met, at the boundary values of each clause -/

theorem witness_DecodeOfEncode :
    (∀ i ∈ ([.ptWriteframe 255 true (List.replicate 32 0xFF), .ptWriteframe 0 false [], .ptReadwords 0xFF 16,
        .crReadwordsn 0xFFFF, .crIstaskdone true, .spActivate .heading, .spPopt 0xFFFFFFFF, .pgRun .ccw (.b32 0x7F7FFFFF),
        .pgStepcount 0x7FFFFFFF .ccw (.b32 1) true true, .pgClose] : List Instr),
      i.wellFormed Config.initial = true) ∧
    Instr.wellFormed cfg64 (.pgStepcount 1 .cw (.b64 0x7FEFFFFFFFFFFFFF) false true) = true := by decide +kernel

/-- On an empty schedule, and on one with the host's entry and one more. -/
theorem witness_UnlistedOpcodeRefused :
    ∀ op ∈ ([0x00, 0x05, 0x0F, 0x17, 0x1F, 0x25, 0x2F, 0x35, 0xFF] : List Byte), ∀ sched ∈ [[], [Event.host, .toggle]],
      ∃ (s : State) (es : List Event) (bs : List Byte),
      legalConfig s.cfg = true ∧ s.busy = none ∧ s.sched = sched ∧ HostTurns 1 s es ∧ s.host = op :: bs ∧
      (op = 0x00 ∨ (0x05 ≤ op.toNat ∧ op.toNat ≤ 0x0F) ∨ (0x17 ≤ op.toNat ∧ op.toNat ≤ 0x1F) ∨
        (0x25 ≤ op.toNat ∧ op.toNat ≤ 0x2F) ∨ 0x35 ≤ op.toNat) := by
  intro op h sched hs
  refine ⟨hosted [op] sched, sched.tail, [], legal_initial, rfl, rfl, ?_, rfl, by revert op; decide⟩
  rcases List.mem_cons.mp hs with rfl | hs
  · exact .inl ⟨rfl, rfl⟩
  · cases List.mem_singleton.mp hs; exact .inr rfl

/-- Each clause at its lowest and highest reserved value. -/
theorem witness_ReservedOperandsRefused :
    (∀ sched ∈ [[], [Event.host]], ∃ s : State, legalConfig s.cfg = true ∧ s.busy = none ∧ s.sched = sched ∧ HostTurns 1 s [] ∧
      s.cfg.flen = .f32 ∧ s.cfg.txMax < (List.replicate 33 (0 : Byte)).length ∧ s.cfg.wMax < (17 : Byte).toNat ∧ s.cfg.wMax < (255 : Byte).toNat) ∧
    (∀ m ∈ ([5, 255] : List Byte), 5 ≤ m.toNat ∧ (hosted [0x20, m] []).host = 0x20 :: m :: []) ∧
    (∀ f ∈ ([2, 255] : List Byte), 2 ≤ f.toNat ∧ (hosted [0x01, 0, f, 0, 0] []).host = [0x01, 0, f, 0, 0] ∧
      (hosted [0x15, f] []).host = [0x15, f] ∧ (hosted [0x30, f] []).host = [0x30, f]) ∧
    (∀ f ∈ ([8, 255] : List Byte), 8 ≤ f.toNat ∧ (hosted [0x31, f, 0, 0, 0, 1] []).host = [0x31, f, 0, 0, 0, 1]) ∧
    (0 : BitVec 32).toNat = 0 ∧ 2 ^ 31 - 1 < (0x80000000 : BitVec 32).toNat ∧
    ([0, 0x80000000, 0x80000001, 0xC2700000, 0x7F800000, 0x7F800001, 0xFFFFFFFF] : List (BitVec 32)).map
      (fun v => positiveIn .f32 (fOfBits (.b32 v))) = List.replicate 7 false ∧
    ([0, 0x8000000000000000, 0x7FF0000000000000, 0x7FF0000000000001] : List (BitVec 64)).map
      (fun v => positiveIn .f64 (fOfBits (.b64 v))) = List.replicate 4 false ∧
    legalConfig cfg64 = true ∧ legalCount 1 = true := by
  refine ⟨fun sched h => ⟨hosted [] sched, legal_initial, rfl, rfl, ?_, rfl,
    (by decide : Config.initial.txMax < (List.replicate 33 (0 : Byte)).length ∧ Config.initial.wMax < (17 : Byte).toNat ∧
      Config.initial.wMax < (255 : Byte).toNat)⟩, by decide +kernel⟩
  rcases List.mem_cons.mp h with rfl | h
  · exact .inl ⟨rfl, rfl⟩
  · cases List.mem_singleton.mp h; exact .inr rfl

/-- The last two conjuncts: each domain of U14 left, one at a time, and the legal configuration with `DEAD_ZONE = -0.0`. -/
theorem witness_StepRunsDecodedOperation :
    (∃ (s : State) (i : Instr) (rest : List Byte), legalConfig s.cfg = true ∧ s.busy = none ∧
      decode s.cfg.flen s.host = .ok (i, rest) ∧ s.sched = []) ∧
    (∃ (s : State) (i : Instr) (rest : List Byte), legalConfig s.cfg = true ∧ s.busy = none ∧
      decode s.cfg.flen s.host = .ok (i, rest) ∧ ∃ es, s.sched = .host :: es) ∧
    (∀ c ∈ [{ Config.initial with nAxes := 0 }, { Config.initial with hAxis := 1 }, { Config.initial with qCap := 0 },
        { Config.initial with verifyBytes := [0x80] }, { Config.initial with scanWords := 65536 },
        { Config.initial with wMax := 256 }, { Config.initial with sens := .nan }, { Config.initial with sens := .inf false },
        { Config.initial with odr := f32 0 }, { Config.initial with microsteps := f32 (-1) },
        { Config.initial with deadZone := f32 (-20) }],
      ∃ s : State, s.cfg = c ∧ legalConfig s.cfg = false) ∧
    legalConfig { Config.initial with deadZone := .fin true 0 } = true :=
  ⟨⟨hosted [0x33, 0x34] [], .pgGetstepcount, [0x34], by decide +kernel, rfl, rfl, rfl⟩,
    ⟨hosted [0x33, 0x34] [.host, .toggle], .pgGetstepcount, [0x34], by decide +kernel, rfl, rfl, [.toggle], rfl⟩,
    fun c h => ⟨{ State.reset with cfg := c }, rfl, by revert c; decide +kernel⟩, by decide +kernel⟩

/-- In a wait while the loop turns, and between ToggleStart and the loop's first phase. -/
theorem witness_ResetEventTakesEffect :
    (∃ (s : State) (es : List Event), legalConfig s.cfg = true ∧ s.sched = .reset :: es ∧ s.busy.isSome = true ∧
      s.pg.phase = .high 3) ∧
    ∃ (s : State) (es : List Event), legalConfig s.cfg = true ∧ s.sched = .reset :: es ∧ loopExists s = true ∧
      s.pg.phase = .settling :=
  ⟨⟨{ withPg (turning (.high 3) .infinite 3 true false) with busy := some .pop, sched := [.reset, .host] }, [.host],
    legal_initial, rfl, rfl, rfl⟩,
    { withPg { PgUnit.reset with phase := .settling } with
      busy := some (.launch ⟨.cw, F.zero, .infinite, false, true, .stepOn⟩), sched := [.reset] }, [],
    legal_initial, rfl, rfl, rfl⟩

theorem witness_SecondCallerRefused :
    (∃ s : State, s.busy.isSome = true) ∧
    ∃ (s : State) (r : RegName) (es : List Event), legalConfig s.cfg = true ∧ s.busy.isSome = true ∧ s.sched = .read r :: es :=
  ⟨⟨{ State.reset with busy := some .pop }, rfl⟩,
    { hosted [] [.read .pgCount, .host] with busy := some .loopEnd }, .pgCount, [.host], legal_initial, rfl, rfl⟩

/-- For ConfigurationNeverChanges and HistoryOnlyGrows: a step and an operation of each unit answer a next state. -/
theorem witness_next_states :
    (got (step State.reset) fun _ => ()) = some () ∧
    ∀ i ∈ ([.crWritecmd 0, .spDeactivate, .pgStop, .ptVerifyid] : List Instr), (got (exec i State.reset) fun _ => ()) = some () := by
  decide +kernel

/-- An operation of each unit in progress, at the host's turn (with a schedule and without) and at an answer; the operations
that start are in `witness_next_states`. -/
theorem witness_UnitsAreIsolated :
    ∀ p ∈ ([.pt ⟨.verify, 0, [], 0⟩, .cr ⟨.word, 0, [], false⟩, .popt 5, .launch ⟨.cw, F.zero, .infinite, false, true, .dir⟩] :
        List Pending),
      ∀ es ∈ ([[], [.host], [.answer (.answer .proceed)]] : List (List Event)), ∃ s : State, s.busy = some p ∧ s.sched = es ∧
        (got (step s) fun _ => ()) = some () := by
  intro p hp es he
  refine ⟨{ State.reset with busy := some p, sched := es }, rfl, rfl, ?_⟩
  revert p es
  decide +kernel

theorem witness_EventsTouchTheirUnit :
    (∃ (s t : State) (ts : BitVec 64) (raw : List (BitVec 32)), s.sp.active = true ∧ spIrq ts raw s = .next t) ∧
    ∃ s t : State, s.pg.phase = .high 0 ∧ pgToggle s = .next t :=
  ⟨⟨withSp (calibrated .raw []), _, 0, [], rfl, rfl⟩, withPg (turning (.high 0) .infinite 0 true false), _, rfl, rfl⟩

/-- A read of every register can be next, with the eight whose reset value is unspecified as at reset, written (with `ok` and
without), and left by a failed operation. -/
theorem witness_HostReadFaultsOnNoValue : ∀ (r : RegName) (h : Standing) (ok : Bool), ∃ (s : State) (es : List Event),
    legalConfig s.cfg = true ∧ s.busy = none ∧ s.sched = .read r :: es ∧
    s.pt.rxcrc.held = h ∧ s.cr.word.held = h ∧ s.pg.dir.held = h ∧ s.pg.half.held = h ∧
    s.pt.data.held = h ∧ s.pt.pair.held = h ∧ s.cr.data.held = h ∧ s.sp.offset.held = h ∧ s.pt.ok = ok ∧ s.cr.ok = ok :=
  fun r h ok => ⟨{ hosted [] [.read r] with
      pt := { PtUnit.reset with rxcrc := ⟨0, h⟩, data := ⟨[], h⟩, pair := ⟨(0, 1), h⟩, ok := ok }
      cr := { CrUnit.reset with word := ⟨0, h⟩, data := ⟨[], h⟩, ok := ok }
      sp := { SpUnit.reset 1 with offset := ⟨[F.zero], h⟩ }
      pg := { PgUnit.reset with dir := ⟨.ccw, h⟩, half := ⟨F.zero, h⟩ } }, [],
    legal_initial, rfl, rfl, rfl, rfl, rfl, rfl, rfl, rfl, rfl, rfl, rfl, rfl⟩

/-- A written register and a configuration register read as their values, an unwritten one as at reset; a data register that a
failed operation left, and a written one while `ok` is false, fault (P2, 93 U1); a read of what only the handler computes, or of a
fixed wait, completes too, with a value that is free (R308, R87, R261). -/
theorem test_host_read :
    got (readTurn .ptRxcrc { State.reset with pt := { PtUnit.reset with rxcrc := ⟨0xC3BD, .written⟩ } }) (fun t => t.hist) =
      some [.hostRead .ptRxcrc (.u16 0xC3BD)] ∧
    got (readTurn (.config .retries) State.reset) (fun t => t.hist) = some [.hostRead (.config .retries) (.nat 2)] ∧
    got (readTurn .crData State.reset) (fun t => t.hist) = some [.hostRead .crData (.wordList [])] ∧
    readTurn .ptData { State.reset with pt := { PtUnit.reset with data := ⟨[0x1234], .failed⟩, ok := true } } =
      .fault (.noValue .ptData) ∧
    readTurn .ptData { State.reset with pt := { PtUnit.reset with data := ⟨[0x1234], .written⟩ } } =
      .fault (.noValue .ptData) ∧
    (∀ r ∈ [RegName.spLastTs, .spCount, .spSum, .spAngle, .fixedWait .idWait], got (readTurn r State.reset) State.fresh = some 1) ∧
    ∃ v, got (readTurn .spCount State.reset) (fun t => t.hist) = some [.hostRead .spCount (.u32 v)] := by
  refine ⟨?_, ?_, ?_, rfl, rfl, ?_, _, rfl⟩ <;> decide +kernel

/-- Every clause: the end of a run, and each kind of wait, on an empty schedule and at the host's entry; a call that finds nothing
and goes on waiting, in each read phase; an answer that nothing waits for; an operation with the answer it needs. -/
theorem witness_BlockedOperationIsStuck :
    (∃ s : State, legalConfig s.cfg = true ∧ HostTurns 1 s [] ∧ runOver s) ∧
    (∃ s : State, legalConfig s.cfg = true ∧ HostTurns 1 s [.toggle] ∧ runOver s) ∧
    (∀ p ∈ ([.pt ⟨.verify, 0, [], 0⟩, .cr ⟨.word, 0, [], false⟩, .popt 5, .pop, .loopEnd] : List Pending),
      ∃ (s : State) (es : List Event), legalConfig s.cfg = true ∧ HostTurns 1 s es ∧ s.env = [] ∧ s.busy = some p ∧
        s.sp.q = [] ∧ s.pg.phase ≠ .noLoop) ∧
    (∀ ph ∈ [PtPhase.rxAck, .rxData 0, .rxCrcHi, .rxCrcLo, .idWait],
      ∃ (s : State) (n : Nat) (es : List Event), legalConfig s.cfg = true ∧ HostTurns 1 s es ∧ s.env = proceeds n ∧ n = 2 ∧
        (∃ op, s.busy = some (.pt op)) ∧ s.ptRx = [] ∧ s.pt.phase = ph) ∧
    (∀ k ∈ [0, 1], ∃ (s : State) (n : Nat) (es : List Event), legalConfig s.cfg = true ∧ HostTurns 1 s es ∧
      s.env = proceeds n ∧ n = 2 ∧ (∃ op, s.busy = some (.cr op)) ∧ s.crRx = [] ∧ s.cr.phase = .rx k) ∧
    (∃ (s : State) (n : Nat) (es : List Event), legalConfig s.cfg = true ∧ HostTurns 1 s es ∧ s.env = proceeds n ∧ n = 2 ∧
      ∃ ms, s.busy = some (.popt ms) ∧ s.sp.q = []) ∧
    (∀ b ∈ ([none, some .pop, some .loopEnd, some (.launch ⟨.cw, F.zero, .infinite, false, true, .dir⟩)] :
        List (Option Pending)),
      ∃ (s : State) (m : EnvMove) (es : List Event), legalConfig s.cfg = true ∧ s.sched = .answer m :: es ∧ s.busy = b) ∧
    ∃ (s : State) (i : Instr) (ms : List EnvMove) (t : State), legalConfig s.cfg = true ∧ ms ≠ [] ∧
      exec i { s with env := s.env ++ ms } = .next t ∧ t.busy = none :=
  ⟨⟨State.reset, legal_initial, .inl ⟨rfl, rfl⟩, rfl, rfl, rfl, rfl, .inl rfl⟩,
    ⟨hosted [] [.host, .toggle], legal_initial, .inr rfl, rfl, rfl, rfl, rfl, .inl rfl⟩,
    fun p _ => ⟨{ withPg (turning (.high 0) (.finite 1) 0 true false) with busy := some p, sched := [.host, .toggle] }, [.toggle],
      legal_initial, .inr rfl, rfl, rfl, rfl, PgPhase.noConfusion⟩,
    fun ph _ => ⟨{ ready (proceeds 2) [] [] with
      busy := some (.pt ⟨.verify, 0, [], 0⟩), pt := { PtUnit.reset with phase := ph } }, 2, [], legal_initial, .inl ⟨rfl, rfl⟩,
      rfl, rfl, ⟨_, rfl⟩, rfl, rfl⟩,
    fun k _ => ⟨{ ready (proceeds 2) [] [] with
      busy := some (.cr ⟨.word, 0, [], false⟩), cr := { CrUnit.reset with phase := .rx k }, sched := [.host] }, 2, [],
      legal_initial, .inr rfl, rfl, rfl, ⟨_, rfl⟩, rfl, rfl⟩,
    ⟨{ ready (proceeds 2) [] [] with busy := some (.popt 500) }, 2, [], legal_initial, .inl ⟨rfl, rfl⟩, rfl, rfl, 500, rfl, rfl⟩,
    fun b _ => ⟨{ State.reset with busy := b, sched := [.answer no] }, no, [], legal_initial, rfl, rfl⟩,
    State.reset, .crWritecmd 0x49, proceeds 1, _, legal_initial, List.cons_ne_nil _ _, rfl, rfl⟩

/-- A PT operation in its first write, and the step that answers it. -/
theorem witness_RestPhasesKept : ∃ s t : State, RestInv s ∧ s.pt.phase ≠ .idle ∧ step s = .next t :=
  ⟨{ State.reset with
      pt := { PtUnit.reset with phase := .txBody 0 }, busy := some (.pt ⟨.verify, 0, [], 0⟩), env := proceeds 1 }, _,
    ⟨fun _ => ⟨_, rfl⟩, fun h => absurd rfl h⟩, PtPhase.noConfusion, rfl⟩

theorem witness_FlagRulesKept : ∃ s t : State, FlagInv s ∧ s.cr.err = 4 ∧ step s = .next t :=
  ⟨{ hosted [0x21] [] with cr := { CrUnit.reset with err := 4 }, ret := some ⟨.cr, false, 4, .none⟩ }, _,
    ⟨fun u => by cases u <;> decide, fun r h => by cases h; rfl⟩, rfl, rfl⟩

/-- In a turning loop, and between the registers and ToggleStart of PG.STEPCOUNT. -/
theorem witness_PgInvariantKept :
    (∃ s t : State, PgInv s ∧ s.pg.phase = .low 2 ∧ step s = .next t) ∧
    ∃ s t : State, PgInv s ∧ s.pg.phase = .settling ∧ step s = .next t :=
  ⟨⟨{ withPg (turning (.low 2) (.finite 3) 2 false true) with sched := [.toggle] }, _,
    { launch := fun _ h => nomatch h
      settling := fun h => nomatch h
      directed := fun _ h => nomatch h
      marked := fun _ h => nomatch h
      runs := rfl
      closed := by decide
      counted := fun _ => .inr ⟨3, rfl, by decide, by decide⟩
      high := fun _ h => nomatch h
      low := fun k h => by cases h; exact ⟨rfl, rfl⟩
      completing := fun h => nomatch h
      programmed := fun _ => ⟨rfl, rfl, rfl⟩ }, rfl, rfl⟩,
    { withPg (turning .settling (.finite 3) 0 false true) with
      busy := some (.launch ⟨.cw, .fin false 0x3A800000, .finite 3, true, true, .start⟩) }, _,
    { launch := fun op h => by cases h; exact ⟨.inr ⟨3, rfl, by decide⟩, rfl⟩
      settling := fun _ => ⟨_, rfl⟩
      directed := fun op h _ => by cases h; exact ⟨rfl, rfl⟩
      marked := fun op h _ => by cases h; exact ⟨rfl, rfl, rfl, rfl⟩
      runs := rfl
      closed := by decide
      counted := fun h => nomatch h
      high := fun _ h => nomatch h
      low := fun _ h => nomatch h
      completing := fun h => nomatch h
      programmed := fun h => nomatch h }, rfl, rfl⟩

theorem witness_SpInvariantKept : ∃ s t : State, SpInv s ∧ s.sp.active = true ∧ s.sp.q.length = s.cfg.qCap ∧ step s = .next t :=
  ⟨{ withSp { calibrated .raw [F.zero] with q := List.replicate 4 (.angle F.zero) } with sched := [.irq 7 [1]] }, _,
    { bounded := by decide
      elems := fun e h => by cases List.eq_of_mem_replicate h; exact trivial
      sums := rfl
      offsets := rfl
      finalized := fun _ => rfl
      calibrated := fun _ _ => rfl
      calibrating := fun _ h => nomatch h }, rfl, rfl, rfl⟩

/-- A free host whose environment's moves `ms`, with `rest` after them, make the calls come out so and leave the receive sides
`pt` and `cr`: what every statement about PT, CR and the end of SP.POPT assumes. -/
abbrev Meets (s : State) (ms rest : List EnvMove) (calls : List Call) (pt cr : List Byte) : Prop :=
  s.busy = none ∧ s.env = ms ++ rest ∧ answered ms ⟨s.ptRx, s.crRx⟩ calls = some ⟨pt, cr⟩

/-- An attempt at the frame of V10 abandoned at byte `j`: PT-5 is `j = 2`. -/
def cutFrame (j : Nat) : Attempt :=
  ⟨writes .pt (frame.take j) ++ [.write .pt (frame.getD j 0) false], .communicationFailure, 0x739E, none⟩

/-- An attempt at the frame of V10 with another acknowledge, or none: PT-4b, P1. -/
def acked (r : Option Byte) : Attempt := ⟨writes .pt frame ++ [.read .pt r], .communicationFailure, 0x739E, none⟩

/-- A response whose CRC bytes do not match: P2, PT-9. -/
def badCrc (cc : Byte) (data : List Byte) (crc : BitVec 16) (h l : Byte) : Attempt :=
  ⟨writes .pt [0x80, cc] ++ reads .pt (data ++ [h, l]), .integrityFailure, crc, some (word16 h l)⟩

/-- A response that ends in IOFail after `took`: PT-9b, PT-11. -/
def cutResponse (cc : Byte) (took : List Byte) (crc : BitVec 16) : Attempt :=
  ⟨writes .pt [0x80, cc] ++ reads .pt took ++ [.read .pt none], .communicationFailure, crc, none⟩

/-- A request abandoned at its byte `j`. -/
def cutRequest (cc : Byte) (j : Nat) (crc : BitVec 16) : Attempt :=
  ⟨writes .pt ([0x80, cc].take j) ++ [.write .pt ([0x80, cc].getD j 0) false], .communicationFailure, crc, none⟩

/-- Of each of two attempts. -/
theorem both {p : Attempt → Prop} {x y : Attempt} (hx : p x) (hy : p y) : ∀ a ∈ [x, y], p a := by simp [hx, hy]

/-- Of each of three attempts. -/
theorem all3 {p : Attempt → Prop} {x y z : Attempt} (hx : p x) (hy : p y) (hz : p z) : ∀ a ∈ [x, y, z], p a := by
  simp [hx, hy, hz]

theorem cutFrame_failed (ack : Bool) :
    ∀ j ∈ [0, 1, 2, 3, 4], FailedWrite Config.initial [0x80, 0x00, 0x40] ack (cutFrame j) := by
  intro j h
  have hc : crc16 0x1021 0 [0x80, 0x00, 0x40] = 0x739E := by decide +kernel
  refine ⟨hc.symm, .inl ⟨j, frame.getD j 0, ?_, ?_, rfl, rfl⟩⟩ <;> revert j <;> decide +kernel

theorem acked_failed (r : Option Byte) (h : r ≠ some 0xFF) :
    FailedWrite Config.initial [0x80, 0x00, 0x40] true (acked r) := by
  have hf : framed Config.initial [0x80, 0x00, 0x40] = frame := by decide +kernel
  have hc : crc16 0x1021 0 [0x80, 0x00, 0x40] = 0x739E := by decide +kernel
  exact ⟨hc.symm, .inr ⟨rfl, r, h, by rw [hf]; rfl, rfl, rfl⟩⟩

theorem badCrc_failed {cc h l : Byte} {data : List Byte} {crc : BitVec 16} (hc : crc16 0x1021 0 (0x80 :: cc :: data) = crc)
    (hn : word16 h l ≠ crc) : FailedRead Config.initial cc data.length (badCrc cc data crc h l) :=
  .inr (.inr ⟨data, h, l, rfl, fun e => hn (e.trans hc), rfl, rfl, hc.symm, rfl⟩)

theorem cutResponse_failed {cc : Byte} {took : List Byte} {crc : BitVec 16} {n : Nat} (h : took.length < n + 2)
    (hc : crc16 0x1021 0 (0x80 :: cc :: took.take n) = crc) : FailedRead Config.initial cc n (cutResponse cc took crc) :=
  .inr (.inl ⟨took, h, rfl, rfl, hc.symm, rfl⟩)

theorem cutRequest_failed {cc : Byte} {j n : Nat} {crc : BitVec 16} (h : j < 2)
    (hc : crc16 0x1021 0 ([0x80, cc].take (j + 1)) = crc) : FailedRead Config.initial cc n (cutRequest cc j crc) := by
  refine .inl ⟨j, ⟨[0x80, cc].getD j 0, ?_, rfl, rfl, rfl⟩, hc.symm⟩
  show [0x80, cc][j]? = _
  match j, h with
  | 0, _ => rfl
  | 1, _ => rfl

/-- The longest body at the first attempt; an attempt abandoned at the first byte and one at the last, then success, while
bytes arrive on both channels. -/
theorem witness_WriteFrameWithoutAckSucceeds :
    (∃ (s : State) (bytes : List Byte) (ms : List EnvMove), legalLen s.cfg bytes = true ∧ bytes.length = s.cfg.txMax ∧
      Meets s ms [no] (writes .pt (bytes ++ bytes16 (crc16 s.cfg.poly s.cfg.crcInit bytes))) [] []) ∧
    ∃ (s : State) (r : Byte) (bytes : List Byte) (failed : List Attempt) (ms : List EnvMove),
      legalLen s.cfg bytes = true ∧ failed.length = 2 ∧ failed.length ≤ r.toNat ∧
      (∀ a ∈ failed, FailedWrite s.cfg bytes false a) ∧
      Meets s ms [] (failed.flatMap Attempt.calls ++
        writes .pt (bytes ++ bytes16 (crc16 s.cfg.poly s.cfg.crcInit bytes))) [0x01] [0x02] :=
  ⟨⟨ready (proceeds 34 ++ [no]) [] [], List.replicate 32 1, proceeds 34, by decide +kernel⟩,
    ready (no :: .rx .pt [0x01] :: proceeds 4 ++ no :: .rx .cr [0x02] :: proceeds 5) [] [], 2, [0x80, 0x00, 0x40],
    [cutFrame 0, cutFrame 4], no :: .rx .pt [0x01] :: proceeds 4 ++ no :: .rx .cr [0x02] :: proceeds 5, rfl, rfl, by decide,
    both (cutFrame_failed _ 0 (by decide)) (cutFrame_failed _ 4 (by decide)), by decide +kernel⟩

/-- PT-1 with the acknowledge there at once, and arriving while the operation waits; and P1 with an attempt of each other kind:
PT-5, a wrong acknowledge, IOFail in its place. -/
theorem witness_WriteFrameWithAckSucceeds :
    (∀ m ∈ ([([0xFF], proceeds 6), ([], proceeds 7 ++ .rx .pt [0xFF] :: proceeds 1)] : List (List Byte × List EnvMove)),
      ∃ (s : State) (bytes : List Byte), s.ptRx = m.1 ∧ legalLen s.cfg bytes = true ∧
        Meets s m.2 [] (writes .pt (bytes ++ bytes16 (crc16 s.cfg.poly s.cfg.crcInit bytes)) ++ reads .pt [s.cfg.ack]) [] []) ∧
    ∃ (s : State) (r : Byte) (bytes : List Byte) (failed : List Attempt) (ms : List EnvMove),
      legalLen s.cfg bytes = true ∧ failed = [cutFrame 2, acked (some 0x00), acked none] ∧
      failed.length ≤ r.toNat ∧ (∀ a ∈ failed, FailedWrite s.cfg bytes true a) ∧
      Meets s ms [] (failed.flatMap Attempt.calls ++
        writes .pt (bytes ++ bytes16 (crc16 s.cfg.poly s.cfg.crcInit bytes)) ++ reads .pt [s.cfg.ack]) [] [] := by
  refine ⟨fun m h => ⟨ready m.2 m.1 [], [0x80, 0x00, 0x40], rfl, rfl, ?_⟩,
    ready (proceeds 2 ++ no :: proceeds 6 ++ proceeds 5 ++ no :: .rx .pt [0xFF] :: proceeds 6) [0x00] [], 3,
    [0x80, 0x00, 0x40], _, proceeds 2 ++ no :: proceeds 6 ++ proceeds 5 ++ no :: .rx .pt [0xFF] :: proceeds 6, rfl, rfl,
    by decide,
    all3 (cutFrame_failed _ 2 (by decide)) (acked_failed _ (by decide)) (acked_failed _ (by decide)), by decide +kernel⟩
  revert m
  decide +kernel

/-- PT-4b with an acknowledge and PT-5 without, at the budget 0 of PT-4. -/
theorem witness_WriteFrameExhaustsItsRetries :
    (∃ (s : State) (r : Byte) (bytes : List Byte) (failed : List Attempt) (ms : List EnvMove),
      legalLen s.cfg bytes = true ∧ failed = [acked (some 0x00), acked none, acked (some 0xFE)] ∧
      failed.length = r.toNat + 1 ∧ (∀ a ∈ failed, FailedWrite s.cfg bytes true a) ∧
      Meets s ms [] (failed.flatMap Attempt.calls) [] []) ∧
    ∃ (s : State) (r : Byte) (bytes : List Byte) (failed : List Attempt) (ms : List EnvMove),
      legalLen s.cfg bytes = true ∧ failed = [cutFrame 2] ∧
      failed.length = r.toNat + 1 ∧ (∀ a ∈ failed, FailedWrite s.cfg bytes false a) ∧
      Meets s ms [] (failed.flatMap Attempt.calls) [] [] := by
  refine ⟨⟨ready (proceeds 11 ++ no :: proceeds 5 ++ .rx .pt [0xFE] :: proceeds 1) [0x00] [], 2,
      [0x80, 0x00, 0x40], _, proceeds 11 ++ no :: proceeds 5 ++ .rx .pt [0xFE] :: proceeds 1, rfl, rfl, rfl,
      all3 (acked_failed _ (by decide)) (acked_failed _ (by decide)) (acked_failed _ (by decide)), by decide +kernel⟩,
    ready (proceeds 2 ++ [no]) [] [], 0, [0x80, 0x00, 0x40], _, proceeds 2 ++ [no], rfl, rfl, rfl, fun a h => ?_,
    by decide +kernel⟩
  cases List.mem_singleton.mp h
  exact cutFrame_failed _ 2 (by decide)

/-- The response of PT-6 there at issue, and arriving byte by byte after the request; `W = 0` of PT-7; and P2 with an attempt
abandoned in its request too, the responses arriving one by one. -/
theorem witness_ReadWordsDeliversIntactResponse :
    (∀ m ∈ ([([0x00, 0x00, 0x12, 0x34, 0xC3, 0xBC], proceeds 8),
        ([], proceeds 3 ++ .rx .pt [0x00] :: proceeds 2 ++ .rx .pt [0x00, 0x12, 0x34, 0xC3] :: proceeds 5 ++
          .rx .pt [0xBC] :: proceeds 1)] : List (List Byte × List EnvMove)),
      ∃ (s : State) (cc w h l : Byte) (data : List Byte), s.ptRx = m.1 ∧ legalWords s.cfg w = true ∧ w = 1 ∧
        data.length = 4 * w.toNat ∧ word16 h l = crc16 s.cfg.poly s.cfg.crcInit (s.cfg.address :: cc :: data) ∧
        Meets s m.2 [] (writes .pt [s.cfg.address, cc] ++ reads .pt (data ++ [h, l])) [] []) ∧
    (∃ (s : State) (cc w h l : Byte) (data : List Byte) (ms : List EnvMove), legalWords s.cfg w = true ∧ w = 0 ∧
      data.length = 4 * w.toNat ∧ word16 h l = crc16 s.cfg.poly s.cfg.crcInit (s.cfg.address :: cc :: data) ∧
      Meets s ms [] (writes .pt [s.cfg.address, cc] ++ reads .pt (data ++ [h, l])) [] []) ∧
    ∃ (s : State) (cc w h l : Byte) (data : List Byte) (failed : List Attempt) (ms : List EnvMove),
      legalWords s.cfg w = true ∧ failed.length = s.cfg.retries ∧
      (∀ a ∈ failed, FailedRead s.cfg cc (4 * w.toNat) a) ∧ data.length = 4 * w.toNat ∧
      word16 h l = crc16 s.cfg.poly s.cfg.crcInit (s.cfg.address :: cc :: data) ∧
      Meets s ms [] (failed.flatMap Attempt.calls ++ writes .pt [s.cfg.address, cc] ++ reads .pt (data ++ [h, l])) [] [] := by
  refine ⟨fun m h => ⟨ready m.2 m.1 [], 0x10, 1, 0xC3, 0xBC, [0x00, 0x00, 0x12, 0x34], rfl, rfl, rfl, rfl,
      (by decide +kernel : word16 0xC3 0xBC = crc16 0x1021 0 [0x80, 0x10, 0x00, 0x00, 0x12, 0x34]), ?_⟩,
    ⟨ready (proceeds 4) [0x09, 0xA9] [], 0x10, 0, 0x09, 0xA9, [], proceeds 4, by decide +kernel⟩,
    ready (proceeds 2 ++ .rx .pt [0x00, 0x00, 0x12, 0x35, 0xC3, 0xBC] :: proceeds 7 ++ no :: proceeds 2 ++
      .rx .pt [0x00, 0x00, 0x12, 0x34, 0xC3, 0xBC] :: proceeds 6) [] [], 0x10, 1, 0xC3, 0xBC,
    [0x00, 0x00, 0x12, 0x34], [badCrc 0x10 [0x00, 0x00, 0x12, 0x35] 0xD39D 0xC3 0xBC, cutRequest 0x10 1 0x09A9],
    proceeds 2 ++ .rx .pt [0x00, 0x00, 0x12, 0x35, 0xC3, 0xBC] :: proceeds 7 ++ no :: proceeds 2 ++
      .rx .pt [0x00, 0x00, 0x12, 0x34, 0xC3, 0xBC] :: proceeds 6,
    rfl, rfl, both (badCrc_failed (by decide +kernel) (by decide))
      (cutRequest_failed (by decide) (by decide +kernel)), rfl, by decide +kernel, by decide +kernel⟩
  revert m
  decide +kernel

/-- PT-9, and PT-9b after an attempt cut off in the CRC bytes (PT-11) and one abandoned at the first byte of its request. -/
theorem witness_ReadWordsExhaustsItsRetries :
    (∃ (s : State) (cc w : Byte) (failed : List Attempt) (last : Attempt) (ms : List EnvMove),
      legalWords s.cfg w = true ∧ last.err = .integrityFailure ∧ failed.length = s.cfg.retries ∧
      (∀ a ∈ failed ++ [last], FailedRead s.cfg cc (4 * w.toNat) a) ∧
      Meets s ms [] ((failed ++ [last]).flatMap Attempt.calls) [] []) ∧
    ∃ (s : State) (cc w : Byte) (failed : List Attempt) (last : Attempt) (ms : List EnvMove),
      legalWords s.cfg w = true ∧ last.err = .communicationFailure ∧ failed.length = s.cfg.retries ∧
      (∀ a ∈ failed ++ [last], FailedRead s.cfg cc (4 * w.toNat) a) ∧
      Meets s ms [] ((failed ++ [last]).flatMap Attempt.calls) [] [] := by
  have bad : FailedRead Config.initial 0x10 4 (badCrc 0x10 [0x00, 0x00, 0x12, 0x34] 0xC3BC 0xC3 0xBD) :=
    badCrc_failed (by decide +kernel) (by decide)
  exact ⟨⟨ready (proceeds 24) (List.replicate 3 [0x00, 0x00, 0x12, 0x34, 0xC3, 0xBD]).flatten [], 0x10, 1,
      List.replicate 2 (badCrc 0x10 [0x00, 0x00, 0x12, 0x34] 0xC3BC 0xC3 0xBD),
      badCrc 0x10 [0x00, 0x00, 0x12, 0x34] 0xC3BC 0xC3 0xBD, proceeds 24, rfl, rfl, rfl, all3 bad bad bad, by decide +kernel⟩,
    ready (proceeds 2 ++ .rx .pt [0x00, 0x00, 0x12, 0x34, 0xC3] :: proceeds 6 ++ no :: no :: proceeds 3 ++ [no]) [] [], 0x10, 1,
      [cutResponse 0x10 [0x00, 0x00, 0x12, 0x34, 0xC3] 0xC3BC, cutRequest 0x10 0 0x9188], cutResponse 0x10 [] 0x09A9,
      proceeds 2 ++ .rx .pt [0x00, 0x00, 0x12, 0x34, 0xC3] :: proceeds 6 ++ no :: no :: proceeds 3 ++ [no],
      rfl, rfl, rfl, all3 (cutResponse_failed (by decide) (by decide +kernel))
        (cutRequest_failed (by decide) (by decide +kernel)) (cutResponse_failed (by decide) (by decide +kernel)),
      by decide +kernel⟩

/-- PT-8 after an attempt abandoned in its request and one cut off at the last CRC byte, the responses arriving one by one; and a
CRC corrupted in every attempt. -/
theorem witness_ReadBytePairDeliversIntactResponse :
    (∃ (s : State) (cc p0 p1 h l : Byte) (failed : List Attempt) (ms : List EnvMove),
      failed.length = s.cfg.retries ∧ (∀ a ∈ failed, FailedRead s.cfg cc 2 a) ∧
      word16 h l = crc16 s.cfg.poly s.cfg.crcInit [s.cfg.address, cc, p0, p1] ∧
      Meets s ms [] (failed.flatMap Attempt.calls ++ writes .pt [s.cfg.address, cc] ++ reads .pt [p0, p1, h, l]) [] []) ∧
    ∃ (s : State) (cc : Byte) (failed : List Attempt) (last : Attempt) (ms : List EnvMove),
      failed.length = s.cfg.retries ∧ (∀ a ∈ failed, FailedRead s.cfg cc 2 a) ∧ FailedRead s.cfg cc 2 last ∧
      Meets s ms [] ((failed ++ [last]).flatMap Attempt.calls) [] [] := by
  have bad : FailedRead Config.initial 0x5A 2 (badCrc 0x5A [0x00, 0x01] 0x5416 0x54 0x17) :=
    badCrc_failed (by decide +kernel) (by decide)
  exact ⟨⟨ready (no :: proceeds 2 ++ .rx .pt [0x00, 0x01, 0x54] :: proceeds 3 ++ no :: proceeds 2 ++
        .rx .pt [0x00, 0x01, 0x54, 0x16] :: proceeds 4) [] [], 0x5A, 0x00, 0x01, 0x54, 0x16,
      [cutRequest 0x5A 0 0x9188, cutResponse 0x5A [0x00, 0x01, 0x54] 0x5416],
      no :: proceeds 2 ++ .rx .pt [0x00, 0x01, 0x54] :: proceeds 3 ++ no :: proceeds 2 ++
        .rx .pt [0x00, 0x01, 0x54, 0x16] :: proceeds 4, rfl,
      both (cutRequest_failed (by decide) (by decide +kernel)) (cutResponse_failed (by decide) (by decide +kernel)),
      by decide +kernel, by decide +kernel⟩,
    ready (proceeds 18) (List.replicate 3 [0x00, 0x01, 0x54, 0x17]).flatten [], 0x5A,
    List.replicate 2 (badCrc 0x5A [0x00, 0x01] 0x5416 0x54 0x17), badCrc 0x5A [0x00, 0x01] 0x5416 0x54 0x17, proceeds 18, rfl,
    both bad bad, bad, by decide +kernel⟩

/-- PT-12 with the byte there before the operation is issued, and arriving during ChWaitByte; PT-13; and an IOFail after the
wait. -/
theorem witness_VerifyIdentityIsALivenessCheck :
    (∀ m ∈ ([([0x37, 0x38], proceeds 6, [0x38]), ([], proceeds 6 ++ .rx .pt [0x37] :: proceeds 2, [])] :
        List (List Byte × List EnvMove × List Byte)),
      ∃ (s : State) (b : Byte), s.ptRx = m.1 ∧ Meets s m.2.1 []
        (writes .pt (s.cfg.verifyBytes ++ bytes16 (crc16 s.cfg.poly s.cfg.crcInit s.cfg.verifyBytes)) ++
          [.waitByte .pt s.cfg.verifyTimeoutMs true, .read .pt (some b)]) m.2.2 []) ∧
    (∃ (s : State) (ms : List EnvMove), Meets s ms []
      (writes .pt (s.cfg.verifyBytes ++ bytes16 (crc16 s.cfg.poly s.cfg.crcInit s.cfg.verifyBytes)) ++
        [.waitByte .pt s.cfg.verifyTimeoutMs false]) [] []) ∧
    ∃ (s : State) (ms : List EnvMove), Meets s ms []
      (writes .pt (s.cfg.verifyBytes ++ bytes16 (crc16 s.cfg.poly s.cfg.crcInit s.cfg.verifyBytes)) ++
        [.waitByte .pt s.cfg.verifyTimeoutMs true, .read .pt none]) [0x37] [] := by
  refine ⟨fun m h => ⟨ready m.2.1 m.1 [], 0x37, rfl, ?_⟩,
    ⟨ready (proceeds 5 ++ [no]) [] [], proceeds 5 ++ [no], by decide +kernel⟩,
    ready (proceeds 5 ++ [no]) [0x37] [], proceeds 5 ++ [no], by decide +kernel⟩
  revert m
  decide +kernel

/-- PT-14, and a failure at the last CRC byte. -/
theorem witness_VerifyIdentityIsNotRetried :
    ∀ k ∈ [0, 1, 3], ∃ (s : State) (frame : List Byte) (b : Byte) (ms : List EnvMove),
      frame = s.cfg.verifyBytes ++ bytes16 (crc16 s.cfg.poly s.cfg.crcInit s.cfg.verifyBytes) ∧ frame[k]? = some b ∧
      Meets s ms [] (writes .pt (frame.take k) ++ [.write .pt b false]) [] [] := by
  intro k h
  refine ⟨ready (proceeds k ++ [no]) [] [], [0x80, 0x15, 0x59, 0x0C], [0x80, 0x15, 0x59, 0x0C].getD k 0, proceeds k ++ [no], ?_⟩
  revert k
  decide +kernel

theorem witness_WriteCommand : ∀ ok : Bool, ∃ (s : State) (ms : List EnvMove), Meets s ms [no] [.write .cr 0x49 ok] [] [] := by
  intro ok
  refine ⟨ready [.answer (if ok then .proceed else .fail), no] [] [], [.answer (if ok then .proceed else .fail)], ?_⟩
  revert ok
  decide

theorem witness_WriteCommandWithParameter :
    (∃ (s : State) (type : Byte) (param : BitVec 16) (ms : List EnvMove),
      Meets s ms [] (writes .cr [type, param.extractLsb' 8 8, param.extractLsb' 0 8]) [] []) ∧
    ∀ k ∈ [0, 1, 2], ∃ (s : State) (type : Byte) (param : BitVec 16) (b : Byte) (ms : List EnvMove),
      [type, param.extractLsb' 8 8, param.extractLsb' 0 8][k]? = some b ∧
      Meets s ms [] (writes .cr ([type, param.extractLsb' 8 8, param.extractLsb' 0 8].take k) ++ [.write .cr b false]) [] [] := by
  refine ⟨⟨ready (proceeds 3) [] [], 0x53, 0x0168, proceeds 3, by decide⟩, fun k h =>
    ⟨ready (proceeds k ++ [no]) [] [], 0x53, 0x0168, [0x53, 0x01, 0x68].getD k 0, proceeds k ++ [no], ?_⟩⟩
  revert k
  decide

/-- The most negative word (CR-5), there at once and arriving byte by byte; a failing read with no byte there, with two, and
after one (CR-8). -/
theorem witness_ReadWord :
    (∀ m ∈ ([([0x80, 0x00], proceeds 2), ([], proceeds 1 ++ .rx .cr [0x80] :: proceeds 2 ++ .rx .cr [0x00] :: proceeds 1)] :
        List (List Byte × List EnvMove)),
      ∃ s : State, s.crRx = m.1 ∧ Meets s m.2 [] (reads .cr [0x80, 0x00]) [] []) ∧
    ∀ m ∈ ([([], [], [no], []), ([0x80, 0x00], [], [no], [0x80, 0x00]), ([0x02], [0x02], proceeds 1 ++ [no], [])] :
        List (List Byte × List Byte × List EnvMove × List Byte)),
      m.2.1.length < 2 ∧ ∃ s : State, s.crRx = m.1 ∧ Meets s m.2.2.1 [] (reads .cr m.2.1 ++ [.read .cr none]) [] m.2.2.2 := by
  refine ⟨fun m h => ⟨ready m.2 [] m.1, rfl, ?_⟩, fun m h => ⟨?_, ready m.2.2.1 [] m.1, rfl, ?_⟩⟩ <;> revert m <;> decide

/-- CR-9, there at once and arriving in two pieces, and CR-9b; a read that fails at once, in the first word, after it, and at
the last byte. -/
theorem witness_ReadWordsNDeliversWords :
    (∀ a ∈ ([(2, [0x00, 0x0A, 0xFF, 0xF6], [0x00, 0x0A, 0xFF, 0xF6], proceeds 4),
        (2, [0x00, 0x0A, 0xFF, 0xF6], [0x00], proceeds 2 ++ .rx .cr [0x0A, 0xFF, 0xF6] :: proceeds 3), (0, [], [], [])] :
        List (BitVec 16 × List Byte × List Byte × List EnvMove)),
      a.2.1.length = 2 * a.1.toNat ∧ ∃ s : State, s.crRx = a.2.2.1 ∧ Meets s a.2.2.2 [] (reads .cr a.2.1) [] []) ∧
    ∀ bytes ∈ ([[], [0x00], [0x00, 0x0A], [0x00, 0x0A, 0xFF]] : List (List Byte)),
      bytes.length < 2 * (2 : BitVec 16).toNat ∧ ∃ (s : State) (ms : List EnvMove),
        Meets s ms [] (reads .cr bytes ++ [.read .cr none]) [] [] := by
  refine ⟨fun a h => ⟨?_, ready a.2.2.2 [] a.2.2.1, rfl, ?_⟩, fun bytes h =>
    ⟨?_, ready (proceeds bytes.length ++ [no]) [] bytes, proceeds bytes.length ++ [no], ?_⟩⟩
  · revert a; decide
  · revert a; decide
  · revert bytes; decide
  · revert bytes; decide

/-- CR-10 with the answer there at issue, and arriving during the wait; a failing read of either byte; CR-10c with one byte and
CR-10d with none; and a failing write. -/
theorem witness_IdentityCheck :
    (∀ m ∈ ([([0x02, 0x58], proceeds 4), ([], proceeds 1 ++ .rx .cr [0x02, 0x58] :: proceeds 3)] :
        List (List Byte × List EnvMove)),
      ∃ s : State, s.crRx = m.1 ∧ Meets s m.2 []
        (writes .cr [s.cfg.idCmd] ++ .avail .cr 2 :: reads .cr [0x02, 0x58]) [] []) ∧
    (∀ took ∈ ([[], [0x02]] : List (List Byte)), took.length < 2 ∧ ∃ (s : State) (ms : List EnvMove) (cr : List Byte),
      Meets s ms [] (writes .cr [s.cfg.idCmd] ++ .avail .cr 2 :: reads .cr took ++ [.read .cr none]) [] cr) ∧
    (∀ rx ∈ ([[0x02], []] : List (List Byte)), rx.length < 2 ∧ ∃ (s : State) (ms : List EnvMove), s.crRx = rx ∧
      Meets s ms [] (writes .cr [s.cfg.idCmd] ++ [.avail .cr rx.length]) [] rx) ∧
    ∃ (s : State) (ms : List EnvMove), Meets s ms [] [.write .cr s.cfg.idCmd false] [] [] := by
  refine ⟨fun m h => ⟨ready m.2 [] m.1, rfl, ?_⟩, fun took h => ⟨?_, ready (proceeds (2 + took.length) ++ [no]) [] [0x02, 0x58],
    proceeds (2 + took.length) ++ [no], [0x02, 0x58].drop took.length, ?_⟩,
    fun rx h => ⟨?_, ready (proceeds 2) [] rx, proceeds 2, rfl, ?_⟩, ready [no] [] [], [no], by decide⟩
  · revert m; decide
  · revert took; decide
  · revert took; decide
  · revert rx; decide
  · revert rx; decide

/-- CR-11b with and without `wait`, and a failing read of either byte; CR-11c (a test on one byte, one on none, then the word) and the
same with a failing read; CR-11 with no byte and with one. -/
theorem witness_IsTaskDoneAnswers :
    (∃ (s : State) (ms : List EnvMove), Meets s ms [] (.avail .cr 4 :: reads .cr [0x00, 0x00]) [] [0x07, 0x08]) ∧
    (∀ took ∈ ([[], [0x00]] : List (List Byte)), took.length < 2 ∧ ∃ (s : State) (ms : List EnvMove) (cr : List Byte),
      Meets s ms [] (.avail .cr 2 :: reads .cr took ++ [.read .cr none]) [] cr) ∧
    (∃ (s : State) (polls : List Nat) (ms : List EnvMove), polls = [1, 0] ∧ (∀ k ∈ polls, k < 2) ∧
      Meets s ms [] (polls.map (.avail .cr) ++ .avail .cr 2 :: reads .cr [0x00, 0x01]) [] []) ∧
    (∃ (s : State) (polls : List Nat) (ms : List EnvMove), polls = [1, 0] ∧ (∀ k ∈ polls, k < 2) ∧
      Meets s ms [] (polls.map (.avail .cr) ++ .avail .cr 2 :: reads .cr [0x00] ++ [.read .cr none]) [] [0x01]) ∧
    ∀ rx ∈ ([[0x02], []] : List (List Byte)), rx.length < 2 ∧ ∃ (s : State) (ms : List EnvMove), s.crRx = rx ∧
      Meets s ms [] [.avail .cr rx.length] [] rx := by
  refine ⟨⟨ready (proceeds 3) [] [0x00, 0x00, 0x07, 0x08], proceeds 3, by decide⟩,
    fun took h => ⟨?_, ready (proceeds (1 + took.length) ++ [no]) [] [0x00, 0x00], proceeds (1 + took.length) ++ [no],
      [0x00, 0x00].drop took.length, ?_⟩,
    ⟨ready (proceeds 1 ++ .rx .cr [] :: proceeds 1 ++ .rx .cr [0x00, 0x01] :: proceeds 3) [] [0x44], _,
      proceeds 1 ++ .rx .cr [] :: proceeds 1 ++ .rx .cr [0x00, 0x01] :: proceeds 3, rfl, by decide, by decide⟩,
    ⟨ready (proceeds 1 ++ .rx .cr [] :: proceeds 1 ++ .rx .cr [0x00, 0x01] :: proceeds 2 ++ [no]) [] [0x44], _,
      proceeds 1 ++ .rx .cr [] :: proceeds 1 ++ .rx .cr [0x00, 0x01] :: proceeds 2 ++ [no], rfl, by decide, by decide⟩,
    fun rx h => ⟨?_, ready (proceeds 1) [] rx, proceeds 1, rfl, ?_⟩⟩
  · revert took; decide
  · revert took; decide
  · revert rx; decide
  · revert rx; decide

/-- No test yet; three on the one byte there; and one after which that byte is replaced by another. -/
theorem witness_WaitingPollNeverReturnsAlone :
    ∀ m ∈ ([([], [], [0x44]), ([1, 1, 1], proceeds 3, [0x44]), ([1, 1], proceeds 1 ++ .rx .cr [0x45] :: proceeds 1, [0x45])] :
        List (List Nat × List EnvMove × List Byte)),
      (∀ k ∈ m.1, k < 2) ∧ ∃ s : State, s.crRx = [0x44] ∧ Meets s m.2.1 [] (m.1.map (.avail .cr)) [] m.2.2 := by
  refine fun m h => ⟨?_, ready m.2.1 [] [0x44], rfl, ?_⟩ <;> revert m <;> decide

/-- CR-12 with the response there at issue, and after the command. -/
theorem witness_ScanRetrievalRefusesSentinel :
    ∀ m ∈ ([([0xFF, 0xFF, 0x01], proceeds 3), ([], proceeds 2 ++ .rx .cr [0xFF, 0xFF, 0x01] :: proceeds 2)] :
        List (List Byte × List EnvMove)),
      ∃ (s : State) (b0 b1 : Byte), s.crRx = m.1 ∧ b0 ++ b1 = s.cfg.scanFail ∧
        Meets s m.2 [] (writes .cr [s.cfg.retrieveCmd] ++ reads .cr [b0, b1]) [] [0x01] := by
  refine fun m h => ⟨ready m.2 [] m.1, 0xFF, 0xFF, rfl, (by decide : (0xFF : Byte) ++ (0xFF : Byte) = (0xFFFF : BitVec 16)), ?_⟩
  revert m
  decide

/-- CR-13b: the status -2, with the response there at issue and arriving in three pieces; a read that fails in the status word,
after it, in the payload and at its last byte; a failing write. -/
theorem witness_ScanRetrievalDeliversPayload :
    (∀ m ∈ ([([0xFF, 0xFE, 0x00, 0x01, 0x00, 0x02, 0x00, 0x03], proceeds 9),
        ([], proceeds 1 ++ .rx .cr [0xFF] :: proceeds 2 ++ .rx .cr [0xFE, 0x00] :: proceeds 2 ++
          .rx .cr [0x01, 0x00, 0x02, 0x00, 0x03] :: proceeds 5)] : List (List Byte × List EnvMove)),
      ∃ (s : State) (b0 b1 : Byte) (bytes : List Byte), s.crRx = m.1 ∧ b0 ++ b1 ≠ s.cfg.scanFail ∧
        bytes.length = 2 * s.cfg.scanWords ∧
        Meets s m.2 [] (writes .cr [s.cfg.retrieveCmd] ++ reads .cr (b0 :: b1 :: bytes)) [] []) ∧
    (∀ bytes ∈ ([[], [0xFF], [0xFF, 0xFE], [0xFF, 0xFE, 0x00], [0xFF, 0xFE, 0x00, 0x01, 0x00, 0x02, 0x00]] :
        List (List Byte)), ∃ (s : State) (ms : List EnvMove),
      bytes.length < 2 + 2 * s.cfg.scanWords ∧ (bytes.getD 0 0 ++ bytes.getD 1 0) ≠ s.cfg.scanFail ∧
      Meets s ms [] (writes .cr [s.cfg.retrieveCmd] ++ reads .cr bytes ++ [.read .cr none]) [] []) ∧
    ∃ (s : State) (ms : List EnvMove), Meets s ms [] [.write .cr s.cfg.retrieveCmd false] [] [] := by
  refine ⟨fun m h => ⟨{ ready m.2 [] m.1 with cfg := { Config.initial with scanWords := 3 } }, 0xFF, 0xFE,
      [0x00, 0x01, 0x00, 0x02, 0x00, 0x03], rfl, (by decide : (0xFF : Byte) ++ (0xFE : Byte) ≠ (0xFFFF : BitVec 16)), rfl, ?_⟩,
    fun bytes h => ⟨{ ready (proceeds (1 + bytes.length) ++ [no]) [] bytes with
      cfg := { Config.initial with scanWords := 3 } }, proceeds (1 + bytes.length) ++ [no], ?_⟩, ready [no] [] [], [no], by decide⟩
  · revert m; decide
  · revert bytes; decide

/-- The queue full, one below full, empty. -/
theorem witness_BoundedQueue :
    ∀ n ∈ [4, 3, 0], ∃ s : State, s.sp.q = List.replicate n (.angle F.zero) ∧
      (n = 4 → s.cfg.qCap ≤ s.sp.q.length) ∧ (n = 3 → s.sp.q.length < s.cfg.qCap) ∧ (n = 0 → s.sp.q = []) := by
  intro n h
  refine ⟨withSp { SpUnit.reset 1 with q := List.replicate n (.angle F.zero) }, ?_⟩
  revert n
  decide

/-- Every mode is accepted somewhere, and the three that need an offset are rejected after reset. -/
theorem witness_Activation :
    (∀ m : Mode, ∃ s : State, s.busy = none ∧ (m = .raw ∨ m = .cal ∨ s.sp.offsetValid = true)) ∧
    ∃ s : State, s.busy = none ∧ s.sp.offsetValid = false :=
  ⟨fun _ => ⟨withSp (calibrated .raw [F.zero]), rfl, .inr (.inr rfl)⟩, State.reset, rfl, rfl⟩

/-- Active with an element queued, and with none. -/
theorem witness_Deactivation :
    (∃ (s : State) (e : QElem) (q : List QElem), s.busy = none ∧ s.sp.active = true ∧ s.sp.q = e :: q) ∧
    ∃ s : State, s.busy = none ∧ s.sp.active = true ∧ s.sp.q = [] :=
  ⟨⟨withSp { calibrated .raw [F.zero] with q := [.angle F.zero] }, .angle F.zero, [], rfl, rfl, rfl⟩,
    withSp (calibrated .raw [F.zero]), rfl, rfl, rfl⟩

/-- SP-5b (inactive, and active in Raw), SP-5 (`sp_count = 5`), SP-3 (`sp_count = 6`). -/
theorem witness_CalibrationEnd :
    (∃ s : State, s.busy = none ∧ s.sp.active = false) ∧
    (∃ s : State, s.busy = none ∧ s.sp.active = true ∧ s.sp.mode ≠ .cal) ∧
    (∃ s : State, s.busy = none ∧ s.sp.active = true ∧ s.sp.mode = .cal ∧ s.sp.count.toNat = s.cfg.discard) ∧
    ∃ s : State, s.busy = none ∧ s.sp.active = true ∧ s.sp.mode = .cal ∧ s.sp.count.toNat = s.cfg.discard + 1 :=
  ⟨⟨State.reset, rfl, rfl⟩, ⟨withSp (calibrated .raw []), rfl, rfl, Mode.noConfusion⟩,
    ⟨withSp (calibrating 5 [0]), rfl, rfl, rfl, rfl⟩, withSp (calibrating 6 [0]), rfl, rfl, rfl, rfl⟩

/-- An element there; and the time passing at once, and after two answers that let it go on. -/
theorem witness_PopReturnsOldest :
    (∃ (s : State) (e : QElem) (q : List QElem), s.busy = none ∧ s.sp.q = e :: q) ∧
    ∀ ms ∈ [[no], proceeds 2 ++ [no]], ∃ s : State, s.sp.q = [] ∧ Meets s ms [no] [.popTimeout 500] [] [] := by
  refine ⟨⟨withSp { SpUnit.reset 1 with q := [.angle F.zero] }, .angle F.zero, [], rfl, rfl⟩, fun ms h =>
    ⟨ready (ms ++ [no]) [] [], rfl, ?_⟩⟩
  revert ms
  decide

theorem witness_PopWaitsForAPush :
    (∀ n ∈ [0, 2], ∃ s : State, s.busy = none ∧ s.sp.q = [] ∧ s.env = proceeds n) ∧
    ∀ p ∈ [Pending.pop, .popt 500], (∃ (u : State) (e : QElem) (q : List QElem) (es : List Event),
      legalConfig u.cfg = true ∧ u.busy = some p ∧ u.sched = [] ∧ HostTurns 1 u es ∧ u.sp.q = e :: q) ∧
      ∃ (u : State) (e : QElem) (q : List QElem) (es : List Event),
      legalConfig u.cfg = true ∧ u.busy = some p ∧ es = [.irq 7 [1]] ∧ HostTurns 1 u es ∧ u.sp.q = e :: q :=
  ⟨fun n _ => ⟨ready (proceeds n) [] [], rfl, rfl, rfl⟩, fun p _ =>
    ⟨⟨{ withSp { SpUnit.reset 1 with q := [.angle F.zero] } with busy := some p }, .angle F.zero, [], [], legal_initial, rfl, rfl,
      .inl ⟨rfl, rfl⟩, rfl⟩,
    { withSp { SpUnit.reset 1 with q := [.angle F.zero] } with busy := some p, sched := [.host, .irq 7 [1]] }, .angle F.zero, [],
      _, legal_initial, rfl, rfl, .inr rfl, rfl⟩⟩

theorem witness_InactiveHandlerIgnores :
    ∃ (s : State) (ts : BitVec 64) (raw : List (BitVec 32)) (es : List Event),
      legalConfig s.cfg = true ∧ s.sched = .irq ts raw :: es ∧ s.sp.active = false :=
  ⟨hosted [] [.irq 7 [77]], 7, [77], [], by decide +kernel⟩

/-- The three modes, each with the queue one below full and full; both widths of a reading, at the last axis; and a row of three
interrupts of which none, one and all fit. -/
theorem witness_SamplingModes :
    (∀ n ∈ [3, 4], ∀ m ∈ [Mode.raw, .offset, .deadZone], ∃ s : State, s.sp.active = true ∧ s.sp.mode = m ∧ s.sp.q.length = n ∧ s.cfg.qCap = 4) ∧
    (∀ w : RawW, ∃ (c : Config) (a : Nat), c.raww = w ∧ c.nAxes = 3 ∧ a < c.nAxes) ∧
    ∀ n ∈ [4, 3, 1], ∀ m ∈ [Mode.raw, .offset, .deadZone],
      ∃ (s : State) (irqs : List (BitVec 64 × List (BitVec 32))) (es : List Event),
      legalConfig s.cfg = true ∧ s.sp.active = true ∧ s.sp.mode = m ∧ irqs.length = 3 ∧ s.sp.q.length = n ∧ s.cfg.qCap = 4 ∧
      s.sched = irqs.map (fun i => .irq i.1 i.2) ++ es := by
  refine ⟨fun n h m _ => ?_, fun w => ⟨{ Config.initial with raww := w, nAxes := 3 }, 2, rfl, rfl, Nat.lt_succ_self 2⟩,
    fun n _ m _ => ⟨{ withSp { calibrated m [F.zero] with q := List.replicate n (.angle F.zero) } with
      sched := [.irq 5 [1], .irq 9 [2], .irq 7 [3], .host] }, [(5, [1]), (9, [2]), (7, [3])], [.host], legal_initial, rfl, rfl,
      rfl, List.length_replicate, rfl, rfl⟩⟩
  exact ⟨withSp { calibrated m [F.zero] with q := List.replicate n (.angle F.zero) }, rfl, rfl,
    List.length_replicate, rfl⟩

/-- R301: of three samples one fits; the two newest are lost, and the reference is that of the last. -/
theorem test_overflow_row :
    gotAfter 3 (.next { withSp { calibrated .raw [F.zero] with q := List.replicate 3 (.angle F.zero), lastTs := 100 } with
        sched := [.irq 160 [1], .irq 190 [2], .irq 200 [3]] })
      (fun t => (t.sp.q.drop 3, t.sp.lastTs, t.sp.ovr)) = some ([.sample (.raw [1]) 60], 200, true) := by decide +kernel

/-- R181, R12: NAXES readings, those of 16 bits sign-extended. -/
theorem test_bus_vector :
    (busVector { Config.initial with raww := .w16, nAxes := 3 } [0x00018000, 0x7FFF]).map (·.toInt) = [-32768, 32767, 0] := by
  decide

theorem witness_HeadingMode :
    ∀ n ∈ [3, 4], ∃ s : State, s.sp.active = true ∧ s.sp.mode = .heading ∧ s.sp.q.length = n ∧
      s.cfg.qCap = 4 := by
  intro n h
  exact ⟨withSp { calibrated .heading [F.zero] with q := List.replicate n (.angle F.zero) }, rfl, rfl,
    List.length_replicate, rfl⟩

/-- Below the discard count, at it, and both sides of the counter's end. -/
theorem witness_CalibrationMode :
    ∀ n ∈ ([4, 5, 0xFFFFFFFE, 0xFFFFFFFF] : List (BitVec 32)), ∃ s : State, s.sp.active = true ∧ s.sp.mode = .cal ∧
      s.sp.count = n ∧ s.cfg.discard = 5 :=
  fun n _ => ⟨withSp (calibrating n [0]), rfl, rfl, rfl, rfl⟩

/-- Both formats. At the bounds the comparisons of the last clause hold, one past them one of them fails. -/
theorem witness_DeadZoneClampsToExactZero :
    ∀ c ∈ [Config.initial, cfg64], c.deadZone = fOfInt c.flen 20 ∧
      (∀ z ∈ [-20, 0, 20], fLe (fNeg c.deadZone) (fOfInt c.flen z) = true ∧ fLe (fOfInt c.flen z) c.deadZone = true) ∧
      fLe (fNeg c.deadZone) (fOfInt c.flen (-21)) = false ∧ fLe (fOfInt c.flen 21) c.deadZone = false := by decide +kernel

theorem witness_ExactQuotientIsExact :
    ∀ fl ∈ [FLen.f32, .f64], ∃ (v : Int) (n : Nat), 0 < n ∧ n < 2 ^ fl.prec ∧ (v * n).natAbs < 2 ^ fl.prec ∧ v = -37 ∧ n = 7 := by
  intro fl h
  refine ⟨-37, 7, ?_⟩
  revert fl
  decide +kernel

/-- SP-3: the smallest legal number of interrupts. -/
theorem witness_CalibrationConverges :
    ∃ (s : State) (n : Nat) (ts : BitVec 64) (raw : List (BitVec 32)),
      legalConfig s.cfg = true ∧ s.busy = none ∧ s.host = [0x20, 0x01, 0x22] ∧
      s.sched = .host :: (List.replicate n (.irq ts raw) ++ [.host]) ∧
      s.cfg.discard < n ∧ n < 2 ^ 32 ∧ n - s.cfg.discard < 2 ^ s.cfg.flen.prec ∧
      ∀ v ∈ busVector s.cfg raw, (v.toInt * (n - s.cfg.discard : Nat)).natAbs < 2 ^ s.cfg.flen.prec :=
  ⟨hosted [0x20, 0x01, 0x22] (.host :: (List.replicate 6 (.irq 9 [BitVec.ofInt 32 (-37)]) ++ [.host])), 6, 9,
    [BitVec.ofInt 32 (-37)], legal_initial, rfl, rfl, rfl, by decide, by decide, by decide, by
      intro v h
      have h37 : busVector Config.initial [BitVec.ofInt 32 (-37)] = [BitVec.ofInt 32 (-37)] := by decide
      cases List.mem_singleton.mp (h37 ▸ h)
      decide⟩

/-- From no loop (PG-12), from a counted loop with a callback (PG-8) and whether or not a stop fires it, on an empty schedule and
with an interrupt after the host's turns, and closed (PG-11); and each further action, alone and with a toggle after it. -/
theorem witness_RunStartsUnboundedLoop :
    legalSpeed .f32 (.b32 0x42700000) = true ∧ legalSpeed .f32 (.b32 1) = true ∧ legalSpeed .f32 (.b32 0x7F7FFFFF) = true ∧
    (∀ p ∈ [PgPhase.noLoop, .low 41, .completing], ∀ b : Bool, ∀ es ∈ [[], [Event.irq 7 [1]]], ∃ s : State,
      s.busy = none ∧ s.cfg.flen = .f32 ∧ s.pg.closed = false ∧ s.pg.phase = p ∧ legalConfig s.cfg = true ∧
      (s.cfg.stopFiresComplete && s.pg.target.counted && s.pg.cbEn) = b ∧
      HostTurns (if s.pg.phase.hasLoop = true ∧ b = true then 6 else 5) s es) ∧
    (∃ s : State, s.busy = none ∧ s.cfg.flen = .f32 ∧ s.pg.closed = true) ∧
    ∀ a : LaunchAct, (∃ (u : State) (op : LaunchOp), legalConfig u.cfg = true ∧ HostTurns 1 u [] ∧
      u.busy = some (.launch op) ∧ op.act = a) ∧ ∃ (u : State) (op : LaunchOp), legalConfig u.cfg = true ∧
      HostTurns 1 u [.toggle] ∧ u.busy = some (.launch op) ∧ op.act = a :=
  ⟨by decide, by decide, by decide,
    fun p _ b es h => ⟨{ withPg (turning p (.finite 100) 41 false true) with
      cfg := { Config.initial with stopFiresComplete := b }
      sched := if es = [] then [] else List.replicate (if p.hasLoop = true ∧ b = true then 6 else 5) .host ++ es },
      rfl, rfl, rfl, rfl, legal_initial, by cases b <;> rfl, by
        rcases List.mem_cons.mp h with rfl | h
        · exact .inl ⟨rfl, rfl⟩
        · cases List.mem_singleton.mp h; exact .inr rfl⟩,
    ⟨withPg { PgUnit.reset with phase := .closed, closed := true }, rfl, rfl, rfl⟩,
    fun a => ⟨⟨{ withPg { PgUnit.reset with phase := .settling } with
      busy := some (.launch ⟨.cw, F.zero, .infinite, false, true, a⟩) }, _, legal_initial, .inl ⟨rfl, rfl⟩, rfl, rfl⟩,
      { withPg { PgUnit.reset with phase := .settling } with
        busy := some (.launch ⟨.cw, F.zero, .infinite, false, true, a⟩), sched := [.host, .toggle] }, _, legal_initial, .inr rfl,
      rfl, rfl⟩⟩

/-- Counts 1 and 2^31 - 1; rejected while running and while closed; accepted otherwise. -/
theorem witness_StepCountStartsCountedLoop :
    legalCount 1 = true ∧ legalCount 0x7FFFFFFF = true ∧ legalSpeed .f32 (.b32 0x42700000) = true ∧
    (∃ s : State, s.busy = none ∧ s.cfg.flen = .f32 ∧ s.pg.running = true) ∧
    (∃ s : State, s.busy = none ∧ s.cfg.flen = .f32 ∧ s.pg.closed = true) ∧
    ∀ sched ∈ [[], List.replicate 5 Event.host], ∃ s : State, s.busy = none ∧ s.cfg.flen = .f32 ∧ s.pg.closed = false ∧
      s.pg.running = false ∧ legalConfig s.cfg = true ∧ s.sched = sched ∧ HostTurns 5 s [] :=
  ⟨by decide, by decide, by decide, ⟨withPg (turning (.high 0) (.finite 3) 0 true true), rfl, rfl, rfl⟩,
    ⟨withPg { PgUnit.reset with phase := .closed, closed := true }, rfl, rfl, rfl⟩,
    fun sched h => ⟨hosted [] sched, rfl, rfl, rfl, rfl, legal_initial, rfl, by
      rcases List.mem_cons.mp h with rfl | h
      · exact .inl ⟨rfl, rfl⟩
      · cases List.mem_singleton.mp h; exact .inr rfl⟩⟩

/-- For StopHaltsTheLoop, GetStepCountReturnsCount and CloseStopsAndCloses: every phase, with a loop and without. -/
theorem witness_StopHaltsTheLoop :
    (∀ p ∈ [PgPhase.noLoop, .settling, .closed], ∃ s : State, s.busy = none ∧ s.pg.phase = p ∧ s.pg.phase.hasLoop = false) ∧
    ∀ p ∈ [PgPhase.high 0, .low 0, .completing], ∃ s : State, s.busy = none ∧ s.pg.phase = p ∧ s.pg.phase.hasLoop = true := by
  constructor <;> intro p h <;> refine ⟨withPg { PgUnit.reset with phase := p }, ?_⟩ <;> revert p <;> decide

theorem witness_GetStepCountReturnsCount : ∃ s : State, s.busy = none ∧ s.pg.count = 0xFFFFFFFF :=
  ⟨withPg { PgUnit.reset with count := 0xFFFFFFFF }, rfl, rfl⟩

theorem witness_CloseStopsAndCloses : ∃ s : State, s.busy = none ∧ s.pg.phase.hasLoop = true ∧ s.cfg.stopFiresComplete = true :=
  ⟨{ withPg (turning (.high 3) (.finite 5) 3 true true) with cfg := { Config.initial with stopFiresComplete := true } },
    rfl, rfl, rfl⟩

/-- Each phase; in Low, below the target, at it, and at the end of the counter. -/
theorem witness_ToggleSteps :
    (∃ s : State, s.pg.phase = .high 0) ∧
    (∃ s : State, s.pg.phase = .low 2 ∧ s.pg.count.toNat < 2 ^ 32 - 1 ∧ s.pg.target = .finite (s.pg.count + 1)) ∧
    (∃ s : State, s.pg.phase = .low 1 ∧ s.pg.count.toNat < 2 ^ 32 - 1 ∧ s.pg.target ≠ .finite (s.pg.count + 1)) ∧
    (∃ s : State, s.pg.phase = .low 0xFFFFFFFE ∧ s.pg.count.toNat + 1 = 2 ^ 32 - 1) ∧
    (∃ s : State, s.pg.phase = .low 0xFFFFFFFF ∧ s.pg.count.toNat = 2 ^ 32 - 1) ∧
    (∃ s : State, s.pg.phase = .completing) ∧ ∃ s : State, s.pg.phase.hasLoop = false :=
  ⟨⟨withPg (turning (.high 0) .infinite 0 true false), rfl⟩,
    ⟨withPg (turning (.low 2) (.finite 3) 2 false true), by decide⟩,
    ⟨withPg (turning (.low 1) (.finite 3) 1 false true), by decide⟩,
    ⟨withPg (turning (.low 0xFFFFFFFE) .infinite 0xFFFFFFFE false false), by decide⟩,
    ⟨withPg (turning (.low 0xFFFFFFFF) .infinite 0xFFFFFFFF false false), by decide⟩,
    ⟨withPg (turning .completing (.finite 3) 3 false true), rfl⟩, State.reset, rfl⟩

/-- The smallest count, with a callback and without. -/
theorem witness_CountedRunCompletes :
    ∀ cb : Bool, ∃ (s : State) (n : BitVec 32),
      legalConfig s.cfg = true ∧ legalCount n = true ∧ s.pg.phase = .high 0 ∧ s.pg.count = 0 ∧ s.pg.target = .finite n ∧
      s.sched = List.replicate (2 * n.toNat + 1) .toggle ∧ s.pg.cbEn = cb :=
  fun cb => ⟨{ withPg (turning (.high 0) (.finite 1) 0 true cb) with sched := List.replicate 3 .toggle }, 1,
    legal_initial, by decide, rfl, rfl, rfl, rfl, rfl⟩

theorem witness_ForegroundRunReturns :
    ∀ sched ∈ [[], [Event.host, .irq 7 [1]]], ∃ (s : State) (es : List Event), legalConfig s.cfg = true ∧
      s.busy = some .loopEnd ∧ s.sched = sched ∧ HostTurns 1 s es ∧ s.pg.phase = .noLoop :=
  fun sched h => ⟨{ hosted [] sched with busy := some .loopEnd }, sched.tail, legal_initial, rfl, rfl, by
    rcases List.mem_cons.mp h with rfl | h
    · exact .inl ⟨rfl, rfl⟩
    · cases List.mem_singleton.mp h; exact .inr rfl, rfl⟩

end Sys2Proof.Tests
end

section
/-! SUPPORT. The quotient of two integers that the format holds exactly (00_scope.md R17), and the obligation on whole-number
quotients (42_sampling_pipeline.md R195 (1)). -/

namespace Sys2Proof.Machine

/-- A common factor of numerator and denominator does not change the rounded datum. -/
theorem roundF_scale (fl : FLen) (neg : Bool) (a b c : Nat) (hc : 0 < c) :
    roundF fl neg (a * c) (b * c) = roundF fl neg a b := by
  unfold roundF
  rw [roundMag_scale fl a b c hc]

@[simp] theorem units_zero (fl : FLen) : units fl 0 = 0 := by
  simp [units]

/-- A divisor of at least one unit is not a zero, so the quotient is the rounded one. -/
theorem fDiv_fin (fl : FLen) (s t : Bool) (m n : Nat) (hn : 0 < units fl n) :
    fDiv fl (.fin s m) (.fin t n) = roundF fl (s ^^ t) (units fl m * 2 ^ fl.unitExp) (units fl n) := by
  have hn0 : n ≠ 0 := by
    rintro rfl
    simp at hn
  exact if_neg hn0

/-- Integers below `2 ^ prec` enter a division unrounded: their quotient is the exact one, rounded once. -/
theorem fDiv_fOfInt (fl : FLen) (a b : Int) (ha : a.natAbs < 2 ^ fl.prec) (hb : b.natAbs < 2 ^ fl.prec) (hb0 : b ≠ 0) :
    fDiv fl (fOfInt fl a) (fOfInt fl b) =
      roundF fl (decide (a < 0) ^^ decide (b < 0)) (a.natAbs * 2 ^ fl.unitExp) b.natAbs := by
  have hunit : 0 < 2 ^ fl.unitExp := Nat.two_pow_pos _
  have hpos : 0 < b.natAbs * 2 ^ fl.unitExp := Nat.mul_pos (Int.natAbs_pos.mpr hb0) hunit
  rw [fOfInt_exact fl a ha, fOfInt_exact fl b hb, fDiv_fin _ _ _ _ _ (by rwa [units_roundMag_exact fl _ hb]),
    units_roundMag_exact fl _ ha, units_roundMag_exact fl _ hb, roundF_scale _ _ _ _ _ hunit]

/-- Settles O51: the division is rounded once, and its divisor cancels from the exact quotient. -/
theorem exactQuotientIsExact : Obligations.ExactQuotientIsExact := by
  intro fl v n hn hnp hvn
  have hsign : v * (n : Int) < 0 ↔ v < 0 := by simpa using mul_lt_mul_iff_left₀ (b := v) (c := 0) (Int.natCast_pos.mpr hn)
  have hnum : (v * (n : Int)).natAbs * 2 ^ fl.unitExp = v.natAbs * 2 ^ fl.unitExp * n := by
    rw [Int.natAbs_mul, Int.natAbs_natCast, Nat.mul_right_comm]
  calc fDiv fl (fOfInt fl (v * n)) (fOfInt fl n)
      = roundF fl (decide (v * (n : Int) < 0) ^^ decide ((n : Int) < 0)) ((v * n).natAbs * 2 ^ fl.unitExp) (n : Int).natAbs :=
        fDiv_fOfInt fl _ _ hvn hnp (by omega)
    _ = roundF fl (v < 0) (v.natAbs * 2 ^ fl.unitExp * n) (1 * n) := by
        rw [hnum, Int.natAbs_natCast, Nat.one_mul, decide_eq_decide.mpr hsign, decide_eq_false (Int.natCast_nonneg n).not_gt,
          Bool.xor_false]
    _ = fOfInt fl v := roundF_scale fl _ _ 1 n hn

end Sys2Proof.Machine
end

section
/-! SUPPORT. The bounded queue of SP (00_scope.md R13), one equation for each case of its primitives. -/

namespace Sys2Proof.Machine

theorem qPush_of_full {e : QElem} {s : State} (h : s.cfg.qCap ≤ s.sp.q.length) :
    qPush e s = { s with sp := { s.sp with ovr := true }, hist := s.hist ++ [.emit .queueOverrun] } := if_pos h

theorem qPush_of_room {e : QElem} {s : State} (h : s.sp.q.length < s.cfg.qCap) :
    qPush e s = { s with sp := { s.sp with q := s.sp.q ++ [e] } } := if_neg h.not_ge

theorem spTake_of_nil {s : State} (h : s.sp.q = []) : spTake s = s := by
  simp [spTake, h]

theorem spTake_of_cons {e : QElem} {rest : List QElem} {s : State} (h : s.sp.q = e :: rest) :
    spTake s = opOk .sp (.elem e) { s with sp := { s.sp with q := rest } } := by
  simp [spTake, h]

@[simp] theorem spActivated_q (m : Mode) (u : SpUnit) : (spActivated m u).q = [] := rfl

/-- Settles O40: the cases of push, pop and clear, one by one. -/
theorem boundedQueue : Obligations.BoundedQueue := by
  intro s e
  refine ⟨qPush_of_full, qPush_of_room, spTake_of_nil, fun x rest h => ?_, fun m => spActivated_q m s.sp⟩
  rw [spTake_of_cons h]
  exact ⟨rfl, rfl⟩

end Sys2Proof.Machine
end

section
/-! SUPPORT. What an issued operation can do, unit by unit, and that it touches its unit alone; what an interrupt and a toggle
step write. Then the obligations on the frames of operations and events (10_state.md R20, R28, R34, R37). -/

namespace Sys2Proof.Machine

variable {i : Instr} {s t : State}

/-! ### Issued operations -/

/-- A PT operation that is accepted starts its attempt loop and runs on the environment's moves (40 R132). -/
theorem exec_pt (hu : i.unit = .pt) (h : exec i s = .next t) : ∃ k n, t = drive ptAdvance s.env (ptStart k n s) := by
  have run : ∀ {k n}, ptRun k n s = .next t → ∃ k n, t = drive ptAdvance s.env (ptStart k n s) := by
    intro k n h
    cases h
    exact ⟨k, n, rfl⟩
  cases i with
  | ptWriteframe => unfold exec execPtWriteframe at h; exact run (require_next (issue_next h).2).2
  | ptReadwords => unfold exec execPtReadwords at h; exact run (require_next (issue_next h).2).2
  | ptReadbytepair | ptVerifyid => exact run (issue_next h).2
  | _ => cases hu

/-- A CR operation starts with its command and runs on the environment's moves. -/
theorem exec_cr (hu : i.unit = .cr) (h : exec i s = .next t) : ∃ k, t = drive crAdvance s.env (crStart k s) := by
  have run : ∀ {k}, crRun k s = .next t → ∃ k, t = drive crAdvance s.env (crStart k s) := by
    intro k h
    cases h
    exact ⟨k, rfl⟩
  cases i with
  | crWritecmd | crWritecmdp | crReadword | crReadwordsn | crIdcheck | crIstaskdone | crScanretr => exact run (issue_next h).2
  | _ => cases hu

/-- Every way an SP operation comes to a next state (42 R182 to R186). -/
theorem exec_sp (hu : i.unit = .sp) (h : exec i s = .next t) :
    t = opError .sp .invalidStateError s ∨
    (∃ m, (usesOffset m = true → s.sp.offsetValid = true) ∧
      t = opOk .sp .none { s with sp := spActivated m (spModeInit s.cfg m s.sp) }) ∨
    t = opOk .sp .none { s with sp := { s.sp with active := false } } ∨
    (s.sp.active = true ∧ s.sp.mode = .cal ∧ t = spCalEnd s) ∨
    t = spTake { s with busy := some .pop } ∨
    ∃ ms, t = spPoptRun { s with busy := some (.popt ms) } := by
  cases i with
  | spActivate m =>
    unfold exec execSpActivate at h
    obtain ⟨-, h⟩ := issue_next h
    split at h <;> cases h
    · exact .inl rfl
    · rename_i hm
      exact .inr (.inl ⟨m, fun hu => by simpa [hu] using hm, rfl⟩)
  | spDeactivate => unfold exec execSpDeactivate at h; cases (issue_next h).2; exact .inr (.inr (.inl rfl))
  | spCalend =>
    unfold exec execSpCalend at h
    obtain ⟨-, h⟩ := issue_next h
    split at h <;> cases h
    · rename_i hm
      obtain ⟨ha, hm⟩ := Bool.and_eq_true_iff.mp hm
      exact .inr (.inr (.inr (.inl ⟨ha, beq_iff_eq.mp hm, rfl⟩)))
    · exact .inl rfl
  | spPop => unfold exec execSpPop at h; cases (issue_next h).2; exact .inr (.inr (.inr (.inr (.inl rfl))))
  | spPopt ms => unfold exec execSpPopt at h; cases (issue_next h).2; exact .inr (.inr (.inr (.inr (.inr ⟨ms, rfl⟩))))
  | _ => cases hu

/-- Every way a PG operation comes to a next state (43 R212 to R216). -/
theorem exec_pg (hu : i.unit = .pg) (h : exec i s = .next t) :
    t = opError .pg .invalidStateError s ∨
    (∃ op, t = launchStop op s) ∨
    (∃ op, t = launchSettle op s) ∨
    t = opOk .pg .none (stopLoop s) ∨
    t = opOk .pg (.count s.pg.count) (s.log [.toggleCycles s.pg.count]) ∨
    t = opOk .pg .none { stopLoop s with pg := { (stopLoop s).pg with closed := true, phase := .closed } } := by
  cases i with
  | pgRun =>
    unfold exec execPgRun at h
    obtain ⟨-, h⟩ := require_next (issue_next h).2
    split at h
    · cases h; exact .inl rfl
    · split at h <;> cases h
      · exact .inr (.inl ⟨_, rfl⟩)
      · exact .inr (.inr (.inl ⟨_, rfl⟩))
  | pgStepcount =>
    unfold exec execPgStepcount at h
    obtain ⟨-, h⟩ := require_next (require_next (issue_next h).2).2
    split at h
    · cases h; exact .inl rfl
    · split at h <;> cases h
      · exact .inl rfl
      · exact .inr (.inr (.inl ⟨_, rfl⟩))
  | pgStop => unfold exec execPgStop at h; cases (issue_next h).2; exact .inr (.inr (.inr (.inl rfl)))
  | pgGetstepcount => unfold exec execPgGetstepcount at h; cases (issue_next h).2; exact .inr (.inr (.inr (.inr (.inl rfl))))
  | pgClose => unfold exec execPgClose at h; cases (issue_next h).2; exact .inr (.inr (.inr (.inr (.inr rfl))))
  | _ => cases hu

theorem spCalEnd_frame (s : State) : Frame .sp s (spCalEnd s) := by
  unfold spCalEnd
  split
  · exact (sp_frame _ _).trans (opError_frame _ _ _)
  · exact (sp_frame _ _).trans (opOk_frame _ _ _)

/-- An issued operation touches its unit alone. -/
theorem exec_frame (h : exec i s = .next t) : Frame i.unit s t := by
  cases hu : i.unit with
  | pt =>
    obtain ⟨k, n, rfl⟩ := exec_pt hu h
    exact (ptStart_frame _ _ _).trans (drive_frame ptAdvance_frame _ _)
  | cr =>
    obtain ⟨k, rfl⟩ := exec_cr hu h
    exact (crStart_frame _ _).trans (drive_frame crAdvance_frame _ _)
  | sp =>
    obtain rfl | ⟨m, -, rfl⟩ | rfl | ⟨-, -, rfl⟩ | rfl | ⟨ms, rfl⟩ := exec_sp hu h
    · exact opError_frame _ _ _
    · exact (sp_frame _ _).trans (opOk_frame _ _ _)
    · exact (sp_frame _ _).trans (opOk_frame _ _ _)
    · exact spCalEnd_frame _
    · exact (busy_frame _ _ _).trans (spTake_frame _)
    · exact (busy_frame _ _ _).trans (spPoptRun_frame _)
  | pg =>
    obtain rfl | ⟨op, rfl⟩ | ⟨op, rfl⟩ | rfl | rfl | rfl := exec_pg hu h
    · exact opError_frame _ _ _
    · exact launchStop_frame _ _
    · exact launchSettle_frame _ _
    · exact (stopLoop_frame _).trans (opOk_frame _ _ _)
    · exact (log_frame _ _ _).trans (opOk_frame _ _ _)
    · exact ((stopLoop_frame _).trans (pg_frame _ _)).trans (opOk_frame _ _ _)

/-! ### Every step -/

/-- What each agent's step keeps (20_memory.md R80): the parts of the state that no unit holds may change freely, except that
the history only grows. -/
structure StepKeeps (P : State → Prop) : Prop where
  outside : ∀ s cs n ms es bs, P s → P { s with hist := s.hist ++ cs, fresh := n, env := ms, sched := es, host := bs }
  goOn : ∀ s p, s.busy = some p → P s → P (goOn s)
  launch : ∀ s op, s.busy = some (.launch op) → P s → P (launchStep op s)
  pop : ∀ s, s.busy = some .pop → P s → P (spTake s)
  loopEnd : ∀ s, s.busy = some .loopEnd → P s → P (pgLoopEnd s)
  exec : ∀ i s t, exec i s = .next t → P s → P t
  irq : ∀ ts raw s t, spIrq ts raw s = .next t → P s → P t
  toggle : ∀ s t, pgToggle s = .next t → P s → P t
  reset : ∀ s, P s → P (resetTurn s)

theorem goOn_free (hb : s.busy = none) : goOn s = s := by
  simp [goOn, hb]

theorem StepKeeps.resume {P : State → Prop} (k : StepKeeps P) (hp : P s) : P (resume s) := by
  unfold Machine.resume
  split <;> rename_i hb
  · exact k.goOn _ _ hb hp
  · exact k.goOn _ _ hb hp
  · exact k.goOn _ _ hb hp
  · exact k.launch _ _ hb hp
  · exact k.pop _ hb hp
  · exact k.loopEnd _ hb hp
  · exact hp

theorem StepKeeps.goesOn {P : State → Prop} (k : StepKeeps P) (hp : P s) : P (Machine.goOn s) := by
  cases hb : s.busy with
  | none => rwa [goOn_free hb]
  | some p => exact k.goOn _ _ hb hp

/-- What each agent's step keeps, every step keeps. -/
theorem StepKeeps.step {P : State → Prop} (k : StepKeeps P) (h : step s = .next t) (hp : P s) : P t := by
  have outside : ∀ ms es bs, P { s with env := ms, sched := es, host := bs } := fun ms es bs => by
    simpa using k.outside s [] s.fresh ms es bs hp
  obtain ⟨es, rfl | ⟨p, -, rfl⟩ | ⟨-, i, rest, h⟩ | ⟨ts, raw, h⟩ | h | ⟨c, n, rfl⟩ | ⟨m, rfl⟩ | rfl⟩ := step_forms h
  · exact outside _ _ _
  · exact k.resume (outside _ _ _)
  · exact k.exec _ _ _ h (outside _ _ _)
  · exact k.irq _ _ _ _ h (outside _ _ _)
  · exact k.toggle _ _ h (outside _ _ _)
  · exact k.outside s [c] n s.env es s.host hp
  · exact k.goesOn (outside _ _ _)
  · exact k.reset _ (outside _ _ _)

/-- What every frame and the reset keep, every step keeps. -/
theorem StepKeeps.of_frame {P : State → Prop}
    (outside : ∀ s cs n ms es bs, P s → P { s with hist := s.hist ++ cs, fresh := n, env := ms, sched := es, host := bs })
    (frame : ∀ u s t, Frame u s t → P s → P t) (reset : ∀ s, P s → P (resetTurn s)) : StepKeeps P where
  outside := outside
  goOn _ _ hb := frame _ _ _ (goOn_frame hb)
  launch _ _ _ := frame _ _ _ (launchStep_frame _ _)
  pop _ _ := frame _ _ _ (spTake_frame _)
  loopEnd _ _ := frame _ _ _ (pgLoopEnd_frame _)
  exec _ _ _ h := frame _ _ _ (exec_frame h)
  irq _ _ _ _ h := frame _ _ _ (spIrq_frame h)
  toggle _ _ h := frame _ _ _ (pgToggle_frame h)
  reset := reset

theorem step_keeps_cfg (s : State) : StepKeeps fun t => t.cfg = s.cfg :=
  .of_frame (fun _ _ _ _ _ _ h => h) (fun _ _ _ f h => f.cfg.trans h) (fun _ h => h)

theorem step_extends_hist (s : State) : StepKeeps fun t => ∃ cs, t.hist = s.hist ++ cs :=
  have append : ∀ {t u : State}, (∃ cs, u.hist = t.hist ++ cs) → (∃ cs, t.hist = s.hist ++ cs) →
      ∃ cs, u.hist = s.hist ++ cs := by
    rintro t u ⟨ds, hd⟩ ⟨cs, hc⟩
    exact ⟨cs ++ ds, by rw [hd, hc, List.append_assoc]⟩
  .of_frame (fun _ cs _ _ _ _ => append ⟨cs, rfl⟩) (fun _ _ _ f => append f.hist) (fun _ => append ⟨_, rfl⟩)

/-- Settles O10: no frame and no reset reaches the configuration. -/
theorem configurationNeverChanges : Obligations.ConfigurationNeverChanges :=
  ⟨fun s _ h => (step_keeps_cfg s).step h rfl, fun _ _ _ h => (exec_frame h).cfg⟩

/-- Settles O11: every frame, every record and the reset append to the history. -/
theorem historyOnlyGrows : Obligations.HistoryOnlyGrows :=
  fun s _ h => (step_extends_hist s).step h ⟨[], (List.append_nil _).symm⟩

/-- A step in which the operation in progress goes on touches its unit and the schedule alone. -/
theorem step_goesOn_frame {p : Pending} {es : List Event} (hb : s.busy = some p)
    (hs : HostTurns 1 s es ∨ ∃ m, s.sched = .answer m :: es) (h : step s = .next t) :
    Frame p.unit { s with sched := es } t := by
  have hc := legal_of_step h
  rcases hs with hs | ⟨m, hs⟩
  · rw [step_hostTurn hc hs, hostTurn_busy (s := { s with sched := es }) hb] at h
    cases h
    exact resume_frame hb
  · rw [step_event hc hs] at h
    cases h
    exact (env_frame _ { s with sched := es } (s.env ++ [m])).trans (goOn_frame hb)

/-- Settles O12: an operation's frame, at issue and whenever it goes on. -/
theorem unitsAreIsolated : Obligations.UnitsAreIsolated := by
  refine ⟨fun i s t h => ?_, fun s t p es hb hs h => ?_⟩
  · obtain ⟨-, sched, host, -, pt, cr, sp, pg⟩ := exec_frame h
    exact ⟨pt, cr, sp, pg, sched, host⟩
  · obtain ⟨cfg, sched, host, -, pt, cr, sp, pg⟩ := step_goesOn_frame hb hs h
    exact ⟨pt, cr, sp, pg, sched, host, cfg⟩

end Sys2Proof.Machine
end

section
/-! SUPPORT. What an interrupt writes in SP and a toggle step in PG, and the obligation that they touch nothing else (10_state.md
R20; 60_exceptions.md R256). -/

namespace Sys2Proof.Machine

variable {s t : State}

/-! ### The interrupt -/

/-- From `s` to `t` an interrupt may have been taken: it writes SP and the history, leaves the activation, the offset and the
flags, adds at most one element, to a queue that has room, and leaves the sums or computes one for each axis (42 R187 to R192). -/
structure Handled (s t : State) : Prop where
  only : t = { s with sp := t.sp, hist := t.hist }
  active : t.sp.active = s.sp.active
  mode : t.sp.mode = s.sp.mode
  offset : t.sp.offset = s.sp.offset
  offsetValid : t.sp.offsetValid = s.sp.offsetValid
  ok : t.sp.ok = s.sp.ok
  err : t.sp.err = s.sp.err
  q : t.sp.q = s.sp.q ∨ ∃ e, s.sp.q.length < s.cfg.qCap ∧ elemOk s.cfg e ∧ t.sp.q = s.sp.q ++ [e]
  sum : t.sp.sum = s.sp.sum ∨ t.sp.sum.length = s.cfg.nAxes

theorem qPush_handled {e : QElem} (he : elemOk s.cfg e) : Handled s (qPush e s) := by
  by_cases hr : s.sp.q.length < s.cfg.qCap
  · rw [qPush_of_room hr]
    exact ⟨rfl, rfl, rfl, rfl, rfl, rfl, rfl, .inr ⟨e, hr, he, rfl⟩, .inl rfl⟩
  · rw [qPush_of_full (Nat.not_lt.mp hr)]
    exact ⟨rfl, rfl, rfl, rfl, rfl, rfl, rfl, .inl rfl, .inl rfl⟩

@[simp] theorem length_busVector (c : Config) (raw : List (BitVec 32)) : (busVector c raw).length = c.nAxes := by
  simp [busVector]

@[simp] theorem length_correctAll (c : Config) (offset : List F) (v : List (BitVec 32)) :
    (correctAll c offset v).length = c.nAxes := by
  simp [correctAll]

@[simp] theorem length_accumulate (c : Config) (sum : List (BitVec 64)) (v : List (BitVec 32)) :
    (accumulate c sum v).length = c.nAxes := by
  simp [accumulate]

theorem spPushSample_handled {ts : BitVec 64} {v : SampleValue} (hv : ∀ d, elemOk s.cfg (.sample v d)) :
    Handled s (spPushSample ts v s) := by
  obtain ⟨o, a, m, f, fv, ok, er, q, sum⟩ := qPush_handled (s := { s with sp := { s.sp with lastTs := ts } })
    (hv (ts - s.sp.lastTs))
  exact ⟨o, a, m, f, fv, ok, er, q, sum⟩

theorem spIntegrate_handled (v : List (BitVec 32)) : Handled s (spIntegrate v s) := by
  unfold spIntegrate
  dsimp only
  generalize fAdd s.cfg.flen s.sp.angle _ = angle
  obtain ⟨o, a, m, f, fv, ok, er, q, sum⟩ := qPush_handled (s := { s with sp := { s.sp with angle := angle } })
    (e := .angle angle) trivial
  exact ⟨o, a, m, f, fv, ok, er, q, sum⟩

theorem spCalibrate_handled {v : List (BitVec 32)} (h : spCalibrate v s = .next t) : Handled s t := by
  unfold spCalibrate at h
  split at h <;> cases h
  refine ⟨rfl, rfl, rfl, rfl, rfl, rfl, rfl, .inl rfl, ?_⟩
  dsimp only
  split
  · exact .inr (length_accumulate _ _ _)
  · exact .inl rfl

theorem spHandle_handled {ts : BitVec 64} {v : List (BitVec 32)} (hv : v.length = s.cfg.nAxes)
    (h : spHandle ts v s = .next t) : Handled s t := by
  unfold spHandle at h
  split at h
  · cases h; exact spPushSample_handled fun _ => hv
  · exact spCalibrate_handled h
  · cases h; exact spPushSample_handled fun _ => length_correctAll _ _ _
  · cases h; exact spPushSample_handled fun _ => by simp [elemOk]
  · cases h; exact spIntegrate_handled _

/-- Every way an interrupt comes to a next state. -/
theorem spIrq_handled {ts : BitVec 64} {raw : List (BitVec 32)} (h : spIrq ts raw s = .next t) : Handled s t := by
  unfold spIrq at h
  split at h
  · obtain ⟨o, a, m, f, fv, ok, er, q, sum⟩ :=
      spHandle_handled (s := s.log [.busRead (busVector s.cfg raw)]) (length_busVector _ _) h
    exact ⟨o, a, m, f, fv, ok, er, q, sum⟩
  · cases h
    exact ⟨rfl, rfl, rfl, rfl, rfl, rfl, rfl, .inl rfl, .inl rfl⟩

/-! ### The toggle step -/

/-- Every way a toggle step comes to a next state: it writes PG and the history, and leaves the flags of PG. -/
theorem pgToggle_writes (h : pgToggle s = .next t) :
    t = { s with pg := t.pg, hist := t.hist } ∧ t.pg.ok = s.pg.ok ∧ t.pg.err = s.pg.err := by
  unfold pgToggle at h
  split at h
  · cases h; exact ⟨rfl, rfl, rfl⟩
  · unfold toggleLow at h
    dsimp only at h
    split at h
    · split at h <;> cases h <;> exact ⟨rfl, rfl, rfl⟩
    · cases h
  · cases h
    unfold toggleComplete emitComplete
    split <;> exact ⟨rfl, rfl, rfl⟩
  all_goals
    cases h
    exact ⟨rfl, rfl, rfl⟩

/-- Settles O13: what the two events write, and that the history only grows. -/
theorem eventsTouchTheirUnit : Obligations.EventsTouchTheirUnit := by
  refine fun s t => ⟨fun ts raw h => ?_, fun h => ?_⟩
  · obtain ⟨cs, hc⟩ := (spIrq_frame h).hist
    exact ⟨t.sp, cs, hc ▸ (spIrq_handled h).only⟩
  · obtain ⟨cs, hc⟩ := (pgToggle_frame h).hist
    exact ⟨t.pg, cs, hc ▸ (pgToggle_writes h).1⟩

end Sys2Proof.Machine
end

section
/-! SUPPORT. What a read of a register comes to (10_state.md R25, 70 R308), and the obligations on the register read, the reset
state and the reset event (10_state.md R47; 70 R280, R281). -/

namespace Sys2Proof.Machine

variable {s : State}

/-! ### Register reads -/

theorem heldVal_eq {α : Type} (r : Held α) (f : α → RegVal) :
    heldVal r f = if r.held = .failed then .noValue else .value (f r.val) := by
  unfold heldVal
  cases r.held <;> rfl

theorem resultVal_eq {α : Type} (ok : Bool) (r : Held α) (f : α → RegVal) :
    resultVal ok r f =
      if r.held = .atReset ∨ r.held = .written ∧ ok = true then .value (f r.val) else .noValue := by
  unfold resultVal
  cases r.held <;> cases ok <;> rfl

theorem readTurn_noValue {r : RegName} (hb : s.busy = none) (h : readReg s r = .noValue) :
    readTurn r s = .fault (.noValue r) := by
  simp [readTurn, hb, h]

theorem readTurn_value {r : RegName} {v : RegVal} (hb : s.busy = none) (h : readReg s r = .value v) :
    readTurn r s = .next (s.log [.hostRead r v]) := by
  simp [readTurn, hb, h]

theorem readTurn_free {r : RegName} {v : RegVal} (hb : s.busy = none) (h : readReg s r = .free v) :
    readTurn r s = .next { s.log [.hostRead r v] with fresh := s.fresh + 1 } := by
  simp [readTurn, hb, h]

/-- Settles O14: the read of each register, then the three ways a read comes out. -/
theorem hostReadFaultsOnNoValue : Obligations.HostReadFaultsOnNoValue := by
  intro s r es value hc hb hs hv
  have hr : readReg { s with sched := es } r = value := by
    rw [hv]
    cases r with
    | ptRxcrc | crWord | pgDir | pgHalf | spOffset => exact heldVal_eq _ _
    | ptData | crData => exact resultVal_eq _ _ _
    | ptPair => exact resultVal_eq s.pt.ok s.pt.pair fun p => .pair p.1 p.2
    | config p => cases p <;> rfl
    | _ => rfl
  rw [step_event hc hs]
  exact ⟨fun h => readTurn_noValue hb (hr.trans h), fun _ h => readTurn_value hb (hr.trans h),
    fun _ h => readTurn_free hb (hr.trans h)⟩

/-! ### The reset state -/

theorem atReset_resetAt (c : Config) : AtReset (State.resetAt c) where
  pt := ⟨rfl, rfl, rfl, rfl, rfl, rfl, rfl, rfl⟩
  cr := ⟨rfl, rfl, rfl, rfl, rfl, rfl, rfl⟩
  sp := ⟨rfl, rfl, rfl, rfl, rfl, rfl, rfl, rfl, rfl, rfl, rfl, rfl⟩
  pg := ⟨rfl, rfl, rfl, rfl, rfl, rfl, rfl, rfl, rfl, rfl, rfl, rfl⟩

theorem readReg_resetAt (c : Config) (r : RegName) : ∃ v,
    readReg (State.resetAt c) r = .value v ∨
    readReg (State.resetAt c) r = .free v ∧
      (r = .spLastTs ∨ r = .spCount ∨ r = .spSum ∨ r = .spAngle ∨ ∃ w, r = .fixedWait w) := by
  cases r with
  | spLastTs | spCount | spSum | spAngle | fixedWait => exact ⟨_, .inr ⟨rfl, by simp⟩⟩
  | _ => exact ⟨_, .inl rfl⟩

/-- Settles O6: the table's values hold by the reset state's definition, and a read there gives a value or a free value. -/
theorem resetHasTableValues : Obligations.ResetHasTableValues := by
  refine ⟨fun c => ⟨atReset_resetAt c, rfl, fun r h => ?_, fun r h1 h2 h3 h4 h5 => ?_, rfl, rfl, rfl, rfl, rfl, rfl, rfl, rfl⟩,
    atReset_resetAt _, rfl⟩
  · obtain ⟨v, hv | ⟨hv, -⟩⟩ := readReg_resetAt c r <;> cases hv.symm.trans h
  · obtain ⟨v, hv | ⟨-, rfl | rfl | rfl | rfl | ⟨w, rfl⟩⟩⟩ := readReg_resetAt c r
    · exact ⟨v, hv⟩
    · exact absurd rfl h1
    · exact absurd rfl h2
    · exact absurd rfl h3
    · exact absurd rfl h4
    · exact absurd rfl (h5 w)

theorem atReset_resetTurn (s : State) : AtReset (resetTurn s) := by
  obtain ⟨pt, cr, sp, pg⟩ := atReset_resetAt s.cfg
  exact ⟨pt, cr, sp, pg⟩

/-- Settles O7: the reset has the values of the reset state, and records no completion. -/
theorem resetEventTakesEffect : Obligations.ResetEventTakesEffect := by
  intro s es hc hs
  refine ⟨_, step_event hc hs, atReset_resetTurn _, rfl, rfl, rfl, rfl, rfl, rfl, rfl, rfl, _, rfl, ?_, ?_⟩
  · simp
  · cases loopExists { s with sched := es } <;> simp

end Sys2Proof.Machine
end

section
/-! SUPPORT. The invariant of the result flags (60_exceptions.md R240, R254; 30_encoding.md R115): what writes neither a flag nor
the result record keeps it, and so does every return with a code of its unit. -/

namespace Sys2Proof

open Machine

variable {s t : State}

/-! ### Updates and returns -/

theorem FlagInv.of_same (h : FlagInv s) (hf : flagsOf t = flagsOf s) (hr : t.ret = s.ret) : FlagInv t :=
  ⟨fun u => hf ▸ h.codes u, fun r hr' => hf ▸ h.record r (hr ▸ hr')⟩

theorem flagsOf_opReturn (u v : UnitName) (ok : Bool) (e : BitVec 3) (d : Data) (s : State) :
    flagsOf (opReturn u ok e d s) v = if v = u then (ok, e) else flagsOf s v := by
  cases u <;> cases v <;> rfl

/-- A return keeps the rules where its code is one of the unit's and goes with its flag. -/
theorem FlagInv.opReturn {u : UnitName} {ok : Bool} {e : BitVec 3} (d : Data) (h : FlagInv s) (he : e ∈ codesOf u)
    (hok : ok = true → e = 0) : FlagInv (opReturn u ok e d s) where
  codes v := by
    rw [flagsOf_opReturn]
    split
    case isTrue hv => exact hv ▸ ⟨he, hok⟩
    case isFalse => exact h.codes v
  record r hr := by
    rw [opReturn_ret] at hr
    cases hr
    rw [flagsOf_opReturn, if_pos rfl]

theorem FlagInv.opOk (u : UnitName) (d : Data) (h : FlagInv s) : FlagInv (opOk u d s) :=
  h.opReturn d (by cases u <;> decide) fun _ => rfl

theorem FlagInv.opError {u : UnitName} {e : ErrClass} (h : FlagInv s) (he : e.code ∈ codesOf u) : FlagInv (opError u e s) :=
  h.opReturn .none he nofun

/-! ### PT and CR -/

theorem flagsOf_pt {p : PtUnit} (hok : p.ok = s.pt.ok) (herr : p.err = s.pt.err) :
    flagsOf { s with pt := p } = flagsOf s := by
  funext u
  cases u <;> simp [flagsOf, hok, herr]

theorem flagsOf_cr {p : CrUnit} (hok : p.ok = s.cr.ok) (herr : p.err = s.cr.err) :
    flagsOf { s with cr := p } = flagsOf s := by
  funext u
  cases u <;> simp [flagsOf, hok, herr]

theorem FlagInv.setRx (ch : Chan) (b : List Byte) (h : FlagInv s) : FlagInv (s.setRx ch b) := by
  cases ch <;> exact h.of_same rfl rfl

theorem flagInv_ptKeeps : PtKeeps FlagInv where
  go _ _ _ h := h.of_same rfl rfl
  upd _ _ h _ hok herr := h.of_same (flagsOf_pt hok herr) rfl
  updB _ _ h _ hok herr := h.of_same (flagsOf_pt hok herr) rfl
  log _ _ h := h.of_same rfl rfl
  rx _ ch b h := h.setRx ch b
  env _ _ h := h.of_same rfl rfl
  ok _ _ h := h.opOk _ _
  er _ e he h := h.opError (by revert e; decide)

theorem flagInv_crKeeps : CrKeeps FlagInv where
  go _ _ _ h := h.of_same rfl rfl
  upd _ _ h _ hok herr := h.of_same (flagsOf_cr hok herr) rfl
  log _ _ h := h.of_same rfl rfl
  rx _ ch b h := h.setRx ch b
  env _ _ h := h.of_same rfl rfl
  ok _ _ h := h.opOk _ _
  er _ e he h := h.opError (by revert e; decide)

/-! ### SP -/

theorem FlagInv.spTake (h : FlagInv s) : FlagInv (spTake s) := by
  unfold Machine.spTake
  split
  · exact h
  · exact FlagInv.opOk _ _ (h.of_same rfl rfl)

theorem FlagInv.spAdvance (v : Verdict) (h : FlagInv s) : FlagInv (spAdvance v s) := by
  unfold Machine.spAdvance
  split
  · exact FlagInv.opError (h.of_same rfl rfl) (by decide)
  · exact h

theorem FlagInv.spPoptRun (h : FlagInv s) : FlagInv (spPoptRun s) :=
  drive_keeps (fun _ ch b h => h.setRx ch b) (fun _ _ h => h.of_same rfl rfl) (fun v _ h => h.spAdvance v) _ _ h.spTake

theorem FlagInv.spCalEnd (h : FlagInv s) : FlagInv (spCalEnd s) := by
  unfold Machine.spCalEnd
  split
  · exact FlagInv.opError (h.of_same rfl rfl) (by decide)
  · exact FlagInv.opOk _ _ (h.of_same rfl rfl)

theorem FlagInv.handled (h : FlagInv s) (k : Handled s t) : FlagInv t := by
  refine h.of_same (funext fun u => ?_) (by rw [k.only])
  cases u with
  | sp => exact Prod.ext k.ok k.err
  | pt | cr | pg => rw [k.only]; rfl

/-! ### PG -/

theorem FlagInv.stopLoop (h : FlagInv s) : FlagInv (stopLoop s) := by
  unfold Machine.stopLoop emitComplete
  split
  · split <;> exact h.of_same rfl rfl
  · exact h.of_same rfl rfl

theorem FlagInv.launchStop (op : LaunchOp) (h : FlagInv s) : FlagInv (launchStop op s) := by
  unfold Machine.launchStop
  split <;> exact h.of_same rfl rfl

theorem FlagInv.launched (op : LaunchOp) (h : FlagInv s) : FlagInv (launched op s) := by
  unfold Machine.launched
  split
  · exact h.opOk _ _
  · exact h.of_same rfl rfl

theorem FlagInv.launchStep (op : LaunchOp) (h : FlagInv s) : FlagInv (launchStep op s) := by
  unfold Machine.launchStep
  split
  · exact h.of_same rfl rfl
  · exact h.of_same rfl rfl
  · exact h.of_same rfl rfl
  · exact h.of_same rfl rfl
  · exact h.of_same rfl rfl
  · exact FlagInv.launched op (h.of_same rfl rfl)

theorem FlagInv.pgLoopEnd (h : FlagInv s) : FlagInv (pgLoopEnd s) := by
  unfold Machine.pgLoopEnd
  split
  · exact h.opOk _ _
  · exact h

theorem FlagInv.pgToggle (h : FlagInv s) (k : pgToggle s = .next t) : FlagInv t := by
  obtain ⟨only, ok, err⟩ := pgToggle_writes k
  refine h.of_same (funext fun u => ?_) (by rw [only])
  cases u with
  | pg => exact Prod.ext ok err
  | pt | cr | sp => rw [only]; rfl

/-! ### Every step -/

theorem FlagInv.goOn (h : FlagInv s) : FlagInv (goOn s) := by
  unfold Machine.goOn
  split
  · exact drive_ptKeeps flagInv_ptKeeps _ _ h
  · exact drive_crKeeps flagInv_crKeeps _ _ h
  · exact h.spPoptRun
  all_goals exact h

theorem FlagInv.exec {i : Instr} (h : FlagInv s) (he : exec i s = .next t) : FlagInv t := by
  cases hu : i.unit with
  | pt =>
    obtain ⟨k, n, rfl⟩ := exec_pt hu he
    exact drive_ptKeeps flagInv_ptKeeps _ _ (ptStart_keeps flagInv_ptKeeps _ _ _ h)
  | cr =>
    obtain ⟨k, rfl⟩ := exec_cr hu he
    exact drive_crKeeps flagInv_crKeeps _ _ (crStart_keeps flagInv_crKeeps _ _ h)
  | sp =>
    obtain rfl | ⟨m, -, rfl⟩ | rfl | ⟨-, -, rfl⟩ | rfl | ⟨ms, rfl⟩ := exec_sp hu he
    · exact h.opError (by decide)
    · refine FlagInv.opOk _ _ (h.of_same ?_ rfl)
      cases m <;> rfl
    · exact FlagInv.opOk _ _ (h.of_same rfl rfl)
    · exact h.spCalEnd
    · exact FlagInv.spTake (h.of_same rfl rfl)
    · exact FlagInv.spPoptRun (h.of_same rfl rfl)
  | pg =>
    obtain rfl | ⟨op, rfl⟩ | ⟨op, rfl⟩ | rfl | rfl | rfl := exec_pg hu he
    · exact h.opError (by decide)
    · exact h.launchStop op
    · exact h.of_same rfl rfl
    · exact h.stopLoop.opOk _ _
    · exact FlagInv.opOk _ _ (h.of_same rfl rfl)
    · exact FlagInv.opOk _ _ (h.stopLoop.of_same rfl rfl)

theorem flagInv_resetAt (c : Config) : FlagInv (State.resetAt c) :=
  ⟨fun u => by cases u <;> exact ⟨List.mem_cons_self, nofun⟩, nofun⟩

theorem flagInv_stepKeeps : StepKeeps FlagInv where
  outside _ _ _ _ _ _ h := h.of_same rfl rfl
  goOn _ _ _ h := h.goOn
  launch _ op _ h := h.launchStep op
  pop _ _ h := h.spTake
  loopEnd _ _ h := h.pgLoopEnd
  exec _ _ _ he h := h.exec he
  irq _ _ _ _ he h := h.handled (spIrq_handled he)
  toggle _ _ he h := h.pgToggle he
  reset s _ := (flagInv_resetAt s.cfg).of_same rfl rfl

/-- Settles O17: every agent's step keeps the rules. -/
theorem flagRulesKept : Obligations.FlagRulesKept := fun _ _ h hs => flagInv_stepKeeps.step hs h

end Sys2Proof
end

section
/-! SUPPORT. The invariant of the SP unit (10_state.md R39, R41; 42_sampling_pipeline.md R182 to R192): it speaks of the
configuration and of SP alone, so the other units' operations keep it by their frames. -/

namespace Sys2Proof

open Machine

variable {s t : State}

/-- What changes neither the configuration nor SP keeps the invariant. -/
theorem SpInv.of_same (h : SpInv s) (hc : t.cfg = s.cfg) (hs : t.sp = s.sp) : SpInv t := by
  obtain ⟨bounded, elems, sums, offsets, finalized, calibrated, calibrating⟩ := h
  rw [← hc, ← hs] at *
  exact ⟨bounded, elems, sums, offsets, finalized, calibrated, calibrating⟩

theorem SpInv.of_frame {u : UnitName} (h : SpInv s) (f : Frame u s t) (hu : u ≠ .sp) : SpInv t :=
  h.of_same f.cfg (f.sp hu)

theorem SpInv.opReturn (u : UnitName) (ok : Bool) (e : BitVec 3) (d : Data) (h : SpInv s) :
    SpInv (opReturn u ok e d s) := by
  cases u with
  | pt | cr | pg => exact h.of_same rfl rfl
  | sp => exact ⟨h.bounded, h.elems, h.sums, h.offsets, h.finalized, h.calibrated, h.calibrating⟩

theorem SpInv.opOk (u : UnitName) (d : Data) (h : SpInv s) : SpInv (opOk u d s) := h.opReturn _ _ _ _

theorem SpInv.opError (u : UnitName) (e : ErrClass) (h : SpInv s) : SpInv (opError u e s) := h.opReturn _ _ _ _

/-- A unit that is deactivated needs no valid offset. -/
theorem SpInv.deactivate (h : SpInv s) : SpInv { s with sp := { s.sp with active := false } } :=
  ⟨h.bounded, h.elems, h.sums, h.offsets, h.finalized, nofun, nofun⟩

/-- An accepted activation clears the queue; a calibration makes the offset invalid, and a mode that subtracts it was given a
valid one. -/
theorem SpInv.activate {m : Mode} (h : SpInv s) (hm : usesOffset m = true → s.sp.offsetValid = true) :
    SpInv { s with sp := spActivated m (spModeInit s.cfg m s.sp) } := by
  cases m with
  | cal => exact ⟨Nat.zero_le _, nofun, List.length_replicate, h.offsets, nofun, nofun, fun _ _ => rfl⟩
  | raw => exact ⟨Nat.zero_le _, nofun, h.sums, h.offsets, h.finalized, nofun, nofun⟩
  | offset | deadZone | heading =>
    exact ⟨Nat.zero_le _, nofun, h.sums, h.offsets, h.finalized, fun _ _ => hm rfl, nofun⟩

/-- The end of a calibration: without enough samples the offset loses its value, which was not valid while calibrating. -/
theorem SpInv.spCalEnd (h : SpInv s) (ha : s.sp.active = true) (hm : s.sp.mode = .cal) : SpInv (spCalEnd s) := by
  have invalid : s.sp.offsetValid = false := h.calibrating ha hm
  unfold Machine.spCalEnd
  split
  · exact SpInv.opError _ _ ⟨h.bounded, h.elems, h.sums, h.offsets, fun hv => absurd (invalid.symm.trans hv) nofun, nofun, nofun⟩
  · exact SpInv.opOk _ _ ⟨h.bounded, h.elems, h.sums, by simp [Machine.offsets], fun _ => rfl, nofun, nofun⟩

theorem SpInv.spTake (h : SpInv s) : SpInv (spTake s) := by
  cases hq : s.sp.q with
  | nil => rwa [spTake_of_nil hq]
  | cons e rest =>
    rw [spTake_of_cons hq]
    have bounded : rest.length ≤ s.cfg.qCap := Nat.le_of_succ_le (by simpa [hq] using h.bounded)
    have elems : ∀ x ∈ rest, elemOk s.cfg x := fun x hx => h.elems x (hq ▸ List.mem_cons_of_mem _ hx)
    exact SpInv.opOk _ _ ⟨bounded, elems, h.sums, h.offsets, h.finalized, h.calibrated, h.calibrating⟩

theorem SpInv.spAdvance (v : Verdict) (h : SpInv s) : SpInv (spAdvance v s) := by
  unfold Machine.spAdvance
  split
  · exact SpInv.opError _ _ (h.of_same rfl rfl)
  · exact h

theorem SpInv.spPoptRun (h : SpInv s) : SpInv (spPoptRun s) :=
  drive_keeps (fun _ _ _ h => h.of_same (setRx_cfg _ _ _) (setRx_sp _ _ _)) (fun _ _ h => h.of_same rfl rfl)
    (fun v _ h => h.spAdvance v) _ _ h.spTake

/-- An interrupt pushes only where there is room, and writes neither the activation nor the offset. -/
theorem SpInv.handled (h : SpInv s) (k : Handled s t) : SpInv t := by
  obtain ⟨only, active, mode, offset, offsetValid, -, -, q, sum⟩ := k
  have cfg : t.cfg = s.cfg := by rw [only]
  refine ⟨?_, ?_, ?_, by rw [offset, cfg]; exact h.offsets, by rw [offset, offsetValid]; exact h.finalized,
    by rw [active, mode, offsetValid]; exact h.calibrated, by rw [active, mode, offsetValid]; exact h.calibrating⟩
  · rw [cfg]
    obtain q | ⟨e, room, -, q⟩ := q <;> rw [q]
    · exact h.bounded
    · simpa using room
  · rw [cfg]
    obtain q | ⟨e, -, ok, q⟩ := q <;> rw [q]
    · exact h.elems
    · exact List.forall_mem_append.mpr ⟨h.elems, by simpa using ok⟩
  · rw [cfg]
    obtain sum | sum := sum
    · rw [sum]; exact h.sums
    · exact sum

/-! ### Every step -/

theorem SpInv.exec {i : Instr} (h : SpInv s) (he : exec i s = .next t) : SpInv t := by
  by_cases hu : i.unit = .sp
  · obtain rfl | ⟨m, hm, rfl⟩ | rfl | ⟨ha, hm, rfl⟩ | rfl | ⟨ms, rfl⟩ := exec_sp hu he
    · exact h.opError _ _
    · exact (h.activate hm).opOk _ _
    · exact h.deactivate.opOk _ _
    · exact h.spCalEnd ha hm
    · exact SpInv.spTake (h.of_same rfl rfl)
    · exact SpInv.spPoptRun (h.of_same rfl rfl)
  · exact h.of_frame (exec_frame he) hu

theorem SpInv.goOn {p : Pending} (h : SpInv s) (hb : s.busy = some p) : SpInv (goOn s) := by
  have frame := goOn_frame hb
  cases p with
  | pt | cr | launch | loopEnd => exact h.of_frame frame nofun
  | pop => simpa [Machine.goOn, hb] using h
  | popt ms => simpa [Machine.goOn, hb] using h.spPoptRun

theorem spInv_resetAt (c : Config) : SpInv (State.resetAt c) :=
  ⟨Nat.zero_le _, nofun, List.length_replicate, List.length_replicate, nofun, nofun, nofun⟩

theorem spInv_stepKeeps : StepKeeps SpInv where
  outside _ _ _ _ _ _ h := h.of_same rfl rfl
  goOn _ _ hb h := h.goOn hb
  launch _ _ _ h := h.of_frame (launchStep_frame _ _) nofun
  pop _ _ h := h.spTake
  loopEnd _ _ h := h.of_frame (pgLoopEnd_frame _) nofun
  exec _ _ _ he h := h.exec he
  irq _ _ _ _ he h := h.handled (spIrq_handled he)
  toggle _ _ he h := h.of_frame (pgToggle_frame he) nofun
  reset s _ := (spInv_resetAt s.cfg).of_same rfl rfl

/-- Settles O19: every agent's step keeps the invariant. -/
theorem spInvariantKept : Obligations.SpInvariantKept := fun _ _ h hs => spInv_stepKeeps.step hs h

/-! ### At reset -/

theorem restInv_resetAt (c : Config) : RestInv (State.resetAt c) := ⟨fun h => absurd rfl h, fun h => absurd rfl h⟩

/-- With no loop and nothing in progress every clause of the PG invariant but the two on the flags is empty. -/
theorem pgInv_resetAt (c : Config) : PgInv (State.resetAt c) where
  launch := nofun
  settling := nofun
  directed := nofun
  marked := nofun
  runs := rfl
  closed := by simp [State.resetAt, PgUnit.reset]
  counted := nofun
  high := nofun
  low := nofun
  completing := nofun
  programmed := nofun

/-- Settles O20: the four invariants, one by one. -/
theorem invariantsHoldAtReset : Obligations.InvariantsHoldAtReset := fun c =>
  ⟨restInv_resetAt c, flagInv_resetAt c, pgInv_resetAt c, spInv_resetAt c⟩

end Sys2Proof
end

section
/-! SUPPORT. What a blocked operation does with nothing new from the environment, and what the environment's answers given one by
one do to an operation that was issued before them; then the obligation on blocked operations (20_memory.md R86, 10_state.md R28,
R29). -/

namespace Sys2Proof.Machine

variable {i : Instr} {s t : State} {adv : Verdict → State → State}

/-! ### A call that finds nothing waits -/

theorem chRead_of_nil {ch : Chan} (h : s.rx ch = []) : s.chRead ch .proceed = (.waiting, s) := by
  simp [State.chRead, h]

theorem ptRead_of_nil (op : PtOp) (k : Byte → State → State) (h : s.ptRx = []) : ptRead op k .proceed s = s := by
  unfold ptRead
  rw [chRead_of_nil (ch := .pt) h]

theorem ptWait_of_nil (op : PtOp) (h : s.ptRx = []) : ptWait op .proceed s = s := by
  simp [ptWait, h]

theorem crRead_of_nil (op : CrOp) (k : Byte → State → State) (h : s.crRx = []) : crRead op k .proceed s = s := by
  unfold crRead
  rw [chRead_of_nil (ch := .cr) h]

/-- In each phase whose call is a `ChRead` or a `ChWaitByte`, PT waits for a byte (40 R133 to R136). -/
theorem ptAdvance_of_nil {op : PtOp} (hb : s.busy = some (.pt op)) (hr : s.ptRx = [])
    (hp : s.pt.phase = .rxAck ∨ (∃ k, s.pt.phase = .rxData k) ∨ s.pt.phase = .rxCrcHi ∨ s.pt.phase = .rxCrcLo ∨
      s.pt.phase = .idWait) : ptAdvance .proceed s = s := by
  rw [ptAdvance_busy _ hb]
  unfold ptCall
  obtain hp | ⟨k, hp⟩ | hp | hp | hp := hp <;> rw [hp]
  · exact ptRead_of_nil _ _ hr
  · exact ptRead_of_nil _ _ hr
  · exact ptRead_of_nil _ _ hr
  · exact ptRead_of_nil _ _ hr
  · exact ptWait_of_nil _ hr

/-- In each phase whose call is a `ChRead`, CR waits for a byte (41 R162). -/
theorem crAdvance_of_nil {op : CrOp} {k : Nat} (hb : s.busy = some (.cr op)) (hr : s.crRx = []) (hp : s.cr.phase = .rx k) :
    crAdvance .proceed s = s := by
  rw [crAdvance_busy _ hb]
  unfold crCall
  rw [hp]
  cases k with
  | zero => exact crRead_of_nil _ _ hr
  | succ k => exact crRead_of_nil _ _ hr

theorem spAdvance_proceed (s : State) : spAdvance .proceed s = s := by
  simp [spAdvance]

/-- With no move of the environment an operation stays where it is. -/
theorem drive_of_nil (he : s.env = []) : drive adv s.env s = s := by
  rw [he, drive_nil, ← he]

/-- An operation whose call goes on waiting stays where it is, however often the environment lets it go on. -/
theorem drive_proceeds (ho : s.callOutstanding = true) (h : adv .proceed s = s) (n : Nat) :
    drive adv (proceeds n) s = { s with env := [] } := by
  induction n with
  | zero => rfl
  | succ n ih => rw [show proceeds (n + 1) = .answer .proceed :: proceeds n from rfl, drive_answer _ _ _ _ ho, h, ih]

/-! ### Going on -/

/-- The operation in progress has a call outstanding, and its answers go to `adv`. -/
def GoesOnBy (adv : Verdict → State → State) (s : State) : Prop :=
  s.callOutstanding = true ∧ ∀ e es, goOn (s.outside e es) = drive adv e (s.outside e es)

theorem goesOnBy_pt {op : PtOp} (h : s.busy = some (.pt op)) : GoesOnBy ptAdvance s :=
  ⟨callOutstanding_pt h, fun e es => by simp [goOn, State.outside, h]⟩

theorem goesOnBy_cr {op : CrOp} (h : s.busy = some (.cr op)) : GoesOnBy crAdvance s :=
  ⟨callOutstanding_cr h, fun e es => by simp [goOn, State.outside, h]⟩

/-- SP.POPT waits for the environment while the queue is empty (42 R186). -/
theorem goesOnBy_popt {ms : BitVec 32} (h : s.busy = some (.popt ms)) (hq : s.sp.q = []) : GoesOnBy spAdvance s :=
  ⟨callOutstanding_popt h, fun e es => by
    have hb : (s.outside e es).busy = some (.popt ms) := h
    have ht : spTake (s.outside e es) = s.outside e es := spTake_of_nil hq
    simp only [goOn, hb, spPoptRun, ht]
    rfl⟩

/-- What waits for no answer does not go on with one. -/
theorem goOn_of_not_outstanding (h : s.callOutstanding = false) : goOn s = s := by
  unfold goOn
  split <;> simp_all [State.callOutstanding]

theorem resume_of_outstanding (h : s.callOutstanding = true) : resume s = goOn s := by
  unfold resume
  split <;> simp_all [State.callOutstanding]

theorem resume_pop_of_nil (h : s.busy = some .pop) (hq : s.sp.q = []) : resume s = s := by
  simp [resume, h, spTake_of_nil hq]

theorem resume_loopEnd_of_turning (h : s.busy = some .loopEnd) (hp : s.pg.phase ≠ .noLoop) : resume s = s := by
  simp [resume, h, pgLoopEnd, hp]

/-- At its turn the blocked host goes on with its operation. -/
theorem step_resume {p : Pending} {es : List Event} (hc : legalConfig s.cfg = true) (ht : HostTurns 1 s es)
    (hb : s.busy = some p) (h : resume { s with sched := es } = t) : step s = .next t := by
  rw [step_hostTurn hc ht, hostTurn_busy (s := { s with sched := es }) hb, h]

/-- At its turn the host goes on with the environment's moves. -/
theorem step_drive {es : List Event} (hc : legalConfig s.cfg = true) (ht : HostTurns 1 s es) (ha : ∀ v, Inside (adv v))
    (hg : GoesOnBy adv s) : step s = .next { drive adv s.env s with sched := es } := by
  obtain ⟨ho, hg⟩ := hg
  cases hb : s.busy with
  | none => rw [callOutstanding_none hb] at ho; cases ho
  | some p =>
    have go := (resume_of_outstanding (s := s.outside s.env es) ho).trans (hg s.env es)
    exact step_resume hc ht hb (go.trans (drive_outside ha s.env s.env es s))

/-- With nothing waiting for it, an answer is kept. -/
theorem step_answer_kept {m : EnvMove} {es : List Event} (hc : legalConfig s.cfg = true) (hs : s.sched = .answer m :: es)
    (ho : s.callOutstanding = false) : step s = .next { s with sched := es, env := s.env ++ [m] } := by
  rw [step_event hc hs]
  exact congrArg Host.Outcome.next (goOn_of_not_outstanding ho)

/-! ### Operations that ask the environment for nothing -/

theorem Inside.sched {f : State → State} (hf : Inside f) (s : State) : (f s).sched = s.sched := by
  rw [show f s = (f s).outside s.env s.sched from hf s.env s.sched s]
  rfl

theorem Inside.comp {f g : State → State} (hf : Inside f) (hg : Inside g) : Inside fun s => f (g s) := fun e es s =>
  (congrArg f (hg e es s)).trans (hf e es (g s))

/-- An operation that neither reads nor writes the moves not yet used and the schedule, and leaves no call outstanding. -/
def AsksNothing (k : State → Outcome) : Prop :=
  ∀ e es s t, k s = .next t → t.callOutstanding = false ∧ k (s.outside e es) = .next (t.outside e es)

theorem asksNothing_next {f : State → State} (hf : Inside f) (ho : ∀ s, (f s).callOutstanding = false) :
    AsksNothing fun s => .next (f s) := by
  intro e es s t h
  cases h
  exact ⟨ho s, congrArg Host.Outcome.next (hf e es s)⟩

theorem asksNothing_refused (r : Refusal) : AsksNothing fun _ => .refused r := fun _ _ _ _ h => by cases h

/-- A choice by what lies inside the state. -/
theorem AsksNothing.ite {b : State → Bool} {k l : State → Outcome} (hk : AsksNothing k) (hl : AsksNothing l)
    (hb : ∀ e es s, b (s.outside e es) = b s) : AsksNothing fun s => if b s then k s else l s := by
  intro e es s t h
  dsimp only at h ⊢
  rw [hb]
  cases hs : b s with
  | true => rw [hs] at h; exact hk e es s t h
  | false => rw [hs] at h; exact hl e es s t h

theorem AsksNothing.require {k : State → Outcome} (hk : AsksNothing k) (legal : Config → Bool) (field : String) :
    AsksNothing fun s => require (legal s.cfg) field (k s) :=
  hk.ite (b := fun s => legal s.cfg) (asksNothing_refused _) fun _ _ _ => rfl

theorem AsksNothing.issue {k : State → Outcome} (hk : AsksNothing k) : AsksNothing fun s => issue s k :=
  (asksNothing_refused _).ite (b := fun s => s.busy.isSome) hk fun _ _ _ => rfl

/-! The steps of which such operations are made. -/

theorem opReturn_inside (u : UnitName) (ok : Bool) (e : BitVec 3) (d : Data) : Inside (opReturn u ok e d) := by
  cases u <;> exact fun _ _ _ => rfl

theorem asksNothing_opReturn (u : UnitName) (ok : Bool) (e : BitVec 3) (d : Data) {f : State → State} (hf : Inside f) :
    AsksNothing fun s => .next (opReturn u ok e d (f s)) :=
  asksNothing_next ((opReturn_inside u ok e d).comp hf) fun _ => callOutstanding_none (opReturn_busy _ u ok e d)

theorem asksNothing_opError (u : UnitName) (e : ErrClass) : AsksNothing fun s => .next (opError u e s) :=
  asksNothing_opReturn u false e.code .none (f := id) fun _ _ _ => rfl

theorem spCalEnd_inside : Inside spCalEnd := by
  intro e es s
  have hp : (s.outside e es).sp = s.sp := rfl
  have hc : (s.outside e es).cfg = s.cfg := rfl
  unfold spCalEnd
  rw [hp, hc]
  dsimp only
  split <;> rfl

theorem asksNothing_spCalEnd : AsksNothing fun s => .next (spCalEnd s) :=
  asksNothing_next spCalEnd_inside fun s => by
    unfold spCalEnd
    dsimp only
    split <;> rfl

theorem asksNothing_pop : AsksNothing fun s => .next (spTake { s with busy := some .pop }) :=
  asksNothing_next (spTake_inside.comp (g := fun s => { s with busy := some .pop }) fun _ _ _ => rfl) fun s => by
    unfold spTake
    split <;> rfl

theorem stopLoop_inside : Inside stopLoop := by
  intro e es s
  have hp : (s.outside e es).pg = s.pg := rfl
  unfold stopLoop
  rw [hp]
  split
  · rw [show stopEmits (s.outside e es) = stopEmits s from rfl]
    cases stopEmits s <;> rfl
  · rfl

theorem asksNothing_launchSettle (op : State → LaunchOp) (ho : ∀ e es s, op (s.outside e es) = op s) :
    AsksNothing fun s => .next (launchSettle (op s) s) :=
  asksNothing_next (fun e es s => by rw [ho]; rfl) fun _ => rfl

theorem asksNothing_launchStop (op : State → LaunchOp) (ho : ∀ e es s, op (s.outside e es) = op s) :
    AsksNothing fun s => .next (launchStop (op s) s) := by
  refine asksNothing_next (fun e es s => ?_) fun s => ?_
  · rw [ho]
    unfold launchStop
    rw [show stopEmits (s.outside e es) = stopEmits s from rfl]
    split <;> rfl
  · unfold launchStop
    split <;> rfl

/-- No PG operation asks the environment for anything. -/
theorem exec_pg_asksNothing (hu : i.unit = .pg) : AsksNothing (exec i) := by
  have rejected := asksNothing_opError .pg .invalidStateError
  cases i with
  | pgRun dir speed =>
    have replaces := asksNothing_launchStop
      (fun s => ⟨dir, halfPeriod s.cfg (fOfBits speed), .infinite, false, true, .delay⟩) fun _ _ _ => rfl
    have starts := asksNothing_launchSettle
      (fun s => ⟨dir, halfPeriod s.cfg (fOfBits speed), .infinite, false, true, .delay⟩) fun _ _ _ => rfl
    exact ((rejected.ite (b := fun s => s.pg.closed)
      (replaces.ite (b := fun s => s.pg.phase.hasLoop) starts fun _ _ _ => rfl) fun _ _ _ => rfl).require
      (fun c => legalSpeed c.flen speed) "speedRPM").issue
  | pgStepcount count dir speed background cb =>
    have starts := asksNothing_launchSettle
      (fun s => ⟨dir, halfPeriod s.cfg (fOfBits speed), .finite count, cb, background, .delay⟩) fun _ _ _ => rfl
    exact (((rejected.ite (b := fun s => s.pg.closed)
      (rejected.ite (b := fun s => s.pg.running) starts fun _ _ _ => rfl) fun _ _ _ => rfl).require
      (fun c => legalSpeed c.flen speed) "speedRPM").require (fun _ => legalCount count) "count").issue
  | pgStop => exact (asksNothing_opReturn .pg true 0 .none stopLoop_inside).issue
  | pgGetstepcount =>
    exact (asksNothing_next (f := fun s => opOk .pg (.count (toggleCycles s).1) (toggleCycles s).2) (fun _ _ _ => rfl)
      fun _ => rfl).issue
  | pgClose =>
    exact (asksNothing_opReturn .pg true 0 .none (Inside.comp
      (f := fun s => { s with pg := { s.pg with closed := true, phase := .closed } }) (fun _ _ _ => rfl) stopLoop_inside)).issue
  | _ => cases hu

/-! ### Operations that run on the environment's moves -/

/-- The operation, once accepted, runs from `start` on the environment's moves. -/
def RunsOn (adv : Verdict → State → State) (start : State → State) (i : Instr) : Prop :=
  ∃ (legal : Config → Bool) (field : String),
    ∀ s, exec i s = issue s fun s => require (legal s.cfg) field (.next (drive adv s.env (start s)))

theorem exec_pt_runsOn (hu : i.unit = .pt) :
    ∃ (k : PtKind) (n : Config → Nat), RunsOn ptAdvance (fun s => ptStart k (n s.cfg) s) i := by
  cases i with
  | ptWriteframe r ack bytes => exact ⟨.writeFrame ack bytes, fun _ => r.toNat, fun c => legalLen c bytes, "len", fun _ => rfl⟩
  | ptReadwords cc w => exact ⟨.readWords cc w.toNat, fun c => c.retries, fun c => legalWords c w, "wordCount", fun _ => rfl⟩
  | ptReadbytepair cc => exact ⟨.readPair cc, fun c => c.retries, fun _ => true, "", fun _ => rfl⟩
  | ptVerifyid => exact ⟨.verify, fun _ => 0, fun _ => true, "", fun _ => rfl⟩
  | _ => cases hu

theorem exec_cr_runsOn (hu : i.unit = .cr) : ∃ k, RunsOn crAdvance (crStart k) i := by
  cases i with
  | crWritecmd | crWritecmdp | crReadword | crReadwordsn | crIdcheck | crIstaskdone | crScanretr =>
    exact ⟨_, fun _ => true, "", fun _ => rfl⟩
  | _ => cases hu

/-- SP.POPT alone of the SP operations waits for the environment (42 R186). -/
theorem exec_sp_runsOn (hu : i.unit = .sp) :
    (∃ ms, RunsOn spAdvance (fun s => spTake { s with busy := some (.popt ms) }) i) ∨ AsksNothing (exec i) := by
  have rejected := asksNothing_opError .sp .invalidStateError
  cases i with
  | spPopt ms => exact .inl ⟨ms, fun _ => true, "", fun _ => rfl⟩
  | spActivate m =>
    exact .inr (rejected.ite (b := fun s => usesOffset m && !s.sp.offsetValid)
      (asksNothing_opReturn .sp true 0 .none (f := fun s => { s with sp := spActivated m (spModeInit s.cfg m s.sp) })
        fun _ _ _ => rfl) fun _ _ _ => rfl).issue
  | spDeactivate =>
    exact .inr (asksNothing_opReturn .sp true 0 .none (f := fun s => { s with sp := { s.sp with active := false } })
      fun _ _ _ => rfl).issue
  | spCalend =>
    exact .inr (asksNothing_spCalEnd.ite (b := fun s => s.sp.active && s.sp.mode == .cal) rejected fun _ _ _ => rfl).issue
  | spPop => exact .inr asksNothing_pop.issue
  | _ => cases hu

theorem ptStart_inside (k : PtKind) (n : Config → Nat) : Inside fun s => ptStart k (n s.cfg) s := fun e es s =>
  ptBegin_inside ⟨k, n s.cfg, [], 0⟩ e es { s with pt := { s.pt with attempts := 0 } }

theorem crStart_inside (k : CrKind) : Inside (crStart k) := crToTx_inside _ _

/-- The operation has returned, or its further answers go to `adv`. -/
def ReturnedOrGoesOnBy (adv : Verdict → State → State) (s : State) : Prop := s.busy = none ∨ GoesOnBy adv s

theorem ptStart_goesOn (k : PtKind) (n : Nat) (hb : s.busy = none) (ms : List EnvMove) :
    ReturnedOrGoesOnBy ptAdvance (drive ptAdvance ms (ptStart k n s)) := by
  have keeps : PtKeeps fun u => u.busy = none ∨ ∃ op, u.busy = some (.pt op) := {
    go := fun op _ _ _ => .inr ⟨op, rfl⟩
    upd := fun _ _ h _ _ _ => h
    updB := fun _ _ h _ _ _ => h
    log := fun _ _ h => h
    rx := fun _ _ _ h => by simpa using h
    env := fun _ _ h => h
    ok := fun _ _ _ => .inl rfl
    er := fun _ _ _ _ => .inl rfl }
  exact (drive_ptKeeps keeps ms _ (ptStart_keeps keeps k n s (.inl hb))).imp_right fun ⟨_, h⟩ => goesOnBy_pt h

theorem crStart_goesOn (k : CrKind) (hb : s.busy = none) (ms : List EnvMove) :
    ReturnedOrGoesOnBy crAdvance (drive crAdvance ms (crStart k s)) := by
  have keeps : CrKeeps fun u => u.busy = none ∨ ∃ op, u.busy = some (.cr op) := {
    go := fun op _ _ _ => .inr ⟨op, rfl⟩
    upd := fun _ _ h _ _ _ => h
    log := fun _ _ h => h
    rx := fun _ _ _ h => by simpa using h
    env := fun _ _ h => h
    ok := fun _ _ _ => .inl rfl
    er := fun _ _ _ _ => .inl rfl }
  exact (drive_crKeeps keeps ms _ (crStart_keeps keeps k s (.inl hb))).imp_right fun ⟨_, h⟩ => goesOnBy_cr h

/-- SP.POPT has returned, or waits on an empty queue. -/
def PoptWaits (n : BitVec 32) (s : State) : Prop := s.busy = none ∨ s.busy = some (.popt n) ∧ s.sp.q = []

theorem poptWaits_advance {n : BitVec 32} (v : Verdict) (s : State) (h : PoptWaits n s) : PoptWaits n (spAdvance v s) := by
  unfold spAdvance
  split
  · exact .inl rfl
  · exact h

theorem poptWaits_start (n : BitVec 32) (s : State) : PoptWaits n (spTake { s with busy := some (.popt n) }) := by
  cases hq : s.sp.q with
  | nil => rw [spTake_of_nil (by exact hq)]; exact .inr ⟨rfl, hq⟩
  | cons e rest => rw [spTake_of_cons (by exact hq)]; exact .inl rfl

theorem poptStart_goesOn (n : BitVec 32) (s : State) (ms : List EnvMove) :
    ReturnedOrGoesOnBy spAdvance (drive spAdvance ms (spTake { s with busy := some (.popt n) })) := by
  have keeps : PoptWaits n (drive spAdvance ms (spTake { s with busy := some (.popt n) })) :=
    drive_keeps (fun _ _ _ h => by simpa [PoptWaits] using h) (fun _ _ h => h) poptWaits_advance ms _ (poptWaits_start n s)
  exact keeps.imp_right fun ⟨h, hq⟩ => goesOnBy_popt h hq

/-! ### Answers given one by one -/

/-- Given the answers `ms` one by one after its issue, the operation comes where it comes with the same answers at its issue. -/
def OneByOne (i : Instr) (s : State) (ms : List EnvMove) (es : List Event) (t : State) : Prop :=
  ∃ u, exec i s = .next u ∧
    Host.Core.run core ms.length { u with sched := ms.map Event.answer ++ es } = .next { t with sched := es }

/-- Answers for which nothing waits are kept, one by one. -/
theorem run_answers_kept (hc : legalConfig s.cfg = true) (ho : s.callOutstanding = false) (ms : List EnvMove)
    (es : List Event) : Host.Core.run core ms.length { s with sched := ms.map Event.answer ++ es } =
      .next { s with env := s.env ++ ms, sched := es } := by
  induction ms generalizing s with
  | nil => simp [Host.Core.run]
  | cons m rest ih =>
    have hs : step { s with sched := (m :: rest).map Event.answer ++ es } =
        .next { s with sched := rest.map Event.answer ++ es, env := s.env ++ [m] } := step_answer_kept hc rfl ho
    rw [List.length_cons, run_next hs, ih (s := { s with env := s.env ++ [m] }) hc ho]
    simp

theorem AsksNothing.oneByOne (hk : AsksNothing (exec i)) (hc : legalConfig s.cfg = true) {ms : List EnvMove}
    (es : List Event) (h : exec i { s with env := s.env ++ ms } = .next t) : OneByOne i s ms es t := by
  obtain ⟨ho, hx⟩ := hk s.env s.sched _ t h
  obtain ⟨-, ht⟩ := hk (s.env ++ ms) s.sched _ _ hx
  have same : t = (t.outside s.env s.sched).outside (s.env ++ ms) s.sched :=
    Host.Outcome.next.inj (h.symm.trans ht)
  have hu : legalConfig (t.outside s.env s.sched).cfg = true := by rw [(exec_frame hx).cfg]; exact hc
  refine ⟨t.outside s.env s.sched, hx, (run_answers_kept hu ho ms es).trans ?_⟩
  rw [same]
  rfl

/-- A run from the operation's start looks at no move but those it is given. -/
theorem drive_start {start : State → State} (ha : ∀ v, Inside (adv v)) (hf : Inside start) (ms e : List EnvMove) (s : State) :
    drive adv ms (start { s with env := e }) = drive adv ms (start s) := by
  have hs : start { s with env := e } = (start s).outside e s.sched := hf e s.sched s
  rw [hs, drive_outside ha, ← hf.sched s, ← drive_sched ha ms (start s)]

/-- An operation accepted with some moves of the environment is accepted with any. -/
theorem RunsOn.exec_next {start : State → State} (hr : RunsOn adv start i) (ha : ∀ v, Inside (adv v)) (hf : Inside start)
    (h : exec i s = .next t) (e : List EnvMove) : exec i { s with env := e } = .next (drive adv e (start s)) := by
  obtain ⟨legal, field, hx⟩ := hr
  rw [hx] at h
  obtain ⟨hb, h⟩ := issue_next h
  obtain ⟨hl, -⟩ := require_next h
  rw [hx, issue_free (s := { s with env := e }) _ hb, require_legal (b := legal s.cfg) _ _ hl, drive_start ha hf]

theorem RunsOn.oneByOne {start : State → State} (hr : RunsOn adv start i) (ha : ∀ v, Inside (adv v)) (hf : Inside start)
    (hg : ∀ s, s.busy = none → ∀ ms, ReturnedOrGoesOnBy adv (drive adv ms (start s))) (hc : legalConfig s.cfg = true)
    {ms : List EnvMove} (es : List Event) (h : exec i { s with env := s.env ++ ms } = .next t) : OneByOne i s ms es t := by
  have any : ∀ e, exec i { s with env := e } = .next (drive adv e (start s)) := fun e => by
    rw [← drive_start ha hf e (s.env ++ ms)]
    exact hr.exec_next ha hf h e
  have legal : ∀ e, legalConfig (drive adv e (start s)).cfg = true := fun e => by rw [(exec_frame (any e)).cfg]; exact hc
  have own := hg s (exec_free (any s.env))
  refine ⟨_, any s.env, (run_answers ha (start s) own legal ms es s.env).trans ?_⟩
  rw [Host.Outcome.next.inj (h.symm.trans (any (s.env ++ ms)))]

theorem exec_oneByOne (hc : legalConfig s.cfg = true) {ms : List EnvMove} (es : List Event)
    (h : exec i { s with env := s.env ++ ms } = .next t) : OneByOne i s ms es t := by
  cases hu : i.unit with
  | pt =>
    obtain ⟨k, n, hr⟩ := exec_pt_runsOn hu
    exact hr.oneByOne ptAdvance_inside (ptStart_inside k n) (fun _ hb => ptStart_goesOn k _ hb) hc es h
  | cr =>
    obtain ⟨k, hr⟩ := exec_cr_runsOn hu
    exact hr.oneByOne crAdvance_inside (crStart_inside k) (fun _ hb => crStart_goesOn k hb) hc es h
  | sp =>
    obtain ⟨n, hr⟩ | hk := exec_sp_runsOn hu
    · exact hr.oneByOne spAdvance_inside (spTake_inside.comp (g := fun s => { s with busy := some (.popt n) }) fun _ _ _ => rfl)
        (fun s _ => poptStart_goesOn n s) hc es h
    · exact hk.oneByOne hc es h
  | pg => exact (exec_pg_asksNothing hu).oneByOne hc es h

/-- Settles O15: at the host's turn nothing new leaves the wait as it is, and answers given one by one do what they do at once. -/
theorem blockedOperationIsStuck : Obligations.BlockedOperationIsStuck := by
  intro s hc
  refine ⟨fun es ht => ⟨fun hr => ?_, fun he h => ?_, fun n he h => ?_⟩, fun m es hs hb => ?_,
    fun i ms es t => exec_oneByOne hc es⟩
  · obtain ⟨hh, hb, -⟩ := hr
    rw [step_hostTurn hc ht, hostTurn_idle (s := { s with sched := es }) hb hh]
  · obtain ⟨op, hb⟩ | ⟨op, hb⟩ | ⟨ms, hb, hq⟩ | ⟨hb, hq⟩ | ⟨hb, hp⟩ := h
    · rw [step_drive hc ht ptAdvance_inside (goesOnBy_pt hb), drive_of_nil he]
    · rw [step_drive hc ht crAdvance_inside (goesOnBy_cr hb), drive_of_nil he]
    · rw [step_drive hc ht spAdvance_inside (goesOnBy_popt hb hq), drive_of_nil he]
    · exact step_resume hc ht hb (resume_pop_of_nil hb hq)
    · exact step_resume hc ht hb (resume_loopEnd_of_turning hb hp)
  · obtain ⟨⟨op, hb⟩, hr, hp⟩ | ⟨⟨op, hb⟩, hr, k, hp⟩ | ⟨ms, hb, hq⟩ := h
    · rw [step_drive hc ht ptAdvance_inside (goesOnBy_pt hb), he,
        drive_proceeds (callOutstanding_pt hb) (ptAdvance_of_nil hb hr hp)]
    · rw [step_drive hc ht crAdvance_inside (goesOnBy_cr hb), he,
        drive_proceeds (callOutstanding_cr hb) (crAdvance_of_nil hb hr hp)]
    · rw [step_drive hc ht spAdvance_inside (goesOnBy_popt hb hq), he,
        drive_proceeds (callOutstanding_popt hb) (spAdvance_proceed s)]
  · refine step_answer_kept hc hs ?_
    obtain hb | hb | hb | ⟨op, hb⟩ := hb
    · exact callOutstanding_none hb
    · exact callOutstanding_pop hb
    · exact callOutstanding_loopEnd hb
    · exact callOutstanding_launch hb

end Sys2Proof.Machine
end

section
/-! SUPPORT. Which configurations are legal, as the domains of 93_implementation_defined.md U14 say it, and the obligations on a
step that issues an operation (20_memory.md R80, R89). -/

namespace Sys2Proof.Machine

theorem finiteIn_iff (fl : FLen) (v : F) : finiteIn fl v = true ↔ ∃ neg m, v = .fin neg m ∧ m < fl.infMag := by
  cases v <;> simp [finiteIn]

theorem positiveIn_iff (fl : FLen) (v : F) : positiveIn fl v = true ↔ ∃ m, v = .fin false m ∧ 0 < m ∧ m < fl.infMag := by
  cases v <;> simp [positiveIn, and_assoc]

theorem infMag_pos (fl : FLen) : 0 < fl.infMag := by cases fl <;> decide

/-- `DEAD_ZONE` is finite and not negative, either zero included. -/
theorem legalDeadZone_iff (fl : FLen) (v : F) :
    (positiveIn fl v = true ∨ v = .fin false 0) ∨ v = .fin true 0 ↔
      ∃ neg m, v = .fin neg m ∧ m < fl.infMag ∧ (neg = true → m = 0) := by
  have h0 := infMag_pos fl
  rw [positiveIn_iff]
  constructor
  · rintro ((⟨m, rfl, -, hm⟩ | rfl) | rfl)
    · exact ⟨false, m, rfl, hm, nofun⟩
    · exact ⟨false, 0, rfl, h0, nofun⟩
    · exact ⟨true, 0, rfl, h0, fun _ => rfl⟩
  · rintro ⟨neg, m, rfl, hm, hz⟩
    cases neg with
    | true => exact .inr (by rw [hz rfl])
    | false =>
      obtain rfl | hp := m.eq_zero_or_pos
      · exact .inl (.inr rfl)
      · exact .inl (.inl ⟨m, rfl, hp, hm⟩)

theorem legalConfig_iff (c : Config) : legalConfig c = true ↔
    1 ≤ c.nAxes ∧ c.hAxis < c.nAxes ∧ 1 ≤ c.qCap ∧ 2 ≤ c.verifyBytes.length ∧ c.scanWords < 2 ^ 16 ∧ c.wMax < 2 ^ 8 ∧
    (∃ neg m, c.sens = .fin neg m ∧ m < c.flen.infMag) ∧
    (∃ m, c.odr = .fin false m ∧ 0 < m ∧ m < c.flen.infMag) ∧
    (∃ m, c.microsteps = .fin false m ∧ 0 < m ∧ m < c.flen.infMag) ∧
    ∃ neg m, c.deadZone = .fin neg m ∧ m < c.flen.infMag ∧ (neg = true → m = 0) := by
  simp only [legalConfig, Bool.and_eq_true, Bool.or_eq_true, decide_eq_true_eq, beq_iff_eq]
  rw [finiteIn_iff, positiveIn_iff, positiveIn_iff, legalDeadZone_iff]
  constructor
  · rintro ⟨⟨⟨⟨⟨⟨⟨⟨⟨hv, hw⟩, hscan⟩, hn⟩, hh⟩, hq⟩, hsens⟩, hodr⟩, hmicro⟩, hdead⟩
    exact ⟨hn, hh, hq, hv, hscan, hw, hsens, hodr, hmicro, hdead⟩
  · rintro ⟨hn, hh, hq, hv, hscan, hw, hsens, hodr, hmicro, hdead⟩
    exact ⟨⟨⟨⟨⟨⟨⟨⟨⟨hv, hw⟩, hscan⟩, hn⟩, hh⟩, hq⟩, hsens⟩, hodr⟩, hmicro⟩, hdead⟩

/-- Settles O5: the host's turn at an empty schedule and at its entry, an illegal configuration, and the domains. -/
theorem stepRunsDecodedOperation : Obligations.StepRunsDecodedOperation := by
  refine ⟨fun s i rest hc hb hd => ⟨fun hs => ?_, fun es hs => ?_⟩, fun s => step_illegal, legalConfig_iff⟩
  · rw [step_host hc hs, hostTurn_exec hb hd]
  · exact (step_event hc hs).trans (hostTurn_exec (s := { s with sched := es }) hb hd)

theorem readTurn_busy {s : State} (r : RegName) (hb : s.busy.isSome = true) : readTurn r s = .refused .hostBusy := by
  simp [readTurn, hb]

/-- Settles O8: an issue and a register read of a second caller. -/
theorem secondCallerRefused : Obligations.SecondCallerRefused := by
  refine ⟨fun i s hb => ?_, fun s r es hc hb hs => ?_⟩
  · obtain ⟨k, hk⟩ := exec_issue i s
    rw [hk, issue_busy k hb]
  · exact (step_event hc hs).trans (readTurn_busy (s := { s with sched := es }) r hb)

end Sys2Proof.Machine
end

section
/-! SUPPORT. The decoder on what the encoder writes: each operand field, then each descriptor (30_encoding.md R114, R122). -/

namespace Sys2Proof.Machine

/-! ### Operand fields -/

theorem flagsByte_toNat (b2 b1 b0 : Bool) : (flagsByte b2 b1 b0).toNat = 4 * b2.toNat + 2 * b1.toNat + b0.toNat := by
  revert b2 b1 b0; decide

/-- No bit above the three flags is set. -/
theorem flagsByte_le (b2 b1 b0 : Bool) : (flagsByte b2 b1 b0).toNat ≤ 7 := by
  have h2 := b2.toNat_le
  have h1 := b1.toNat_le
  have h0 := b0.toNat_le
  rw [flagsByte_toNat]; omega

/-- No bit above the one flag is set. -/
theorem flagsByte_le_one (b : Bool) : (flagsByte false false b).toNat ≤ 1 := by
  simpa [flagsByte_toNat] using b.toNat_le

@[simp] theorem flagsByte_bit0 (b2 b1 b0 : Bool) : (flagsByte b2 b1 b0)[0] = b0 := by revert b2 b1 b0; decide

@[simp] theorem flagsByte_bit1 (b2 b1 b0 : Bool) : (flagsByte b2 b1 b0)[1] = b1 := by revert b2 b1 b0; decide

@[simp] theorem flagsByte_bit2 (b2 b1 b0 : Bool) : (flagsByte b2 b1 b0)[2] = b2 := by revert b2 b1 b0; decide

@[simp] theorem decodeDir_bit (d : Dir) : decodeDir d.bit = d := by cases d <;> rfl

/-- A legal speed is a pattern of the format, so its bytes are read as the format's. -/
theorem decodeF_bytes {fl : FLen} {v : FBits} (rest : List Byte) (h : legalSpeed fl v = true) :
    decodeF fl (v.bytes ++ rest) = .ok (v, rest) := by
  match fl, v, h with
  | .f32, .b32 x, _ => exact congrArg (fun y => (.ok (.b32 y, rest) : Except Reject (FBits × List Byte))) (word32_bytes x)
  | .f64, .b64 x, _ => exact congrArg (fun y => (.ok (.b64 y, rest) : Except Reject (FBits × List Byte))) (word64_bytes x)

/-- A legal byte list fits the `len` field of its descriptor. -/
theorem length_field {c : Config} {bytes : List Byte} (h : legalLen c bytes = true) :
    (word16 (hiByte (.ofNat 16 bytes.length)) (loByte (.ofNat 16 bytes.length))).toNat = bytes.length := by
  simp only [legalLen, Bool.and_eq_true, decide_eq_true_eq] at h
  calc (word16 _ _).toNat = (BitVec.ofNat 16 bytes.length).toNat := congrArg BitVec.toNat (word16_bytes _)
    _ = bytes.length := BitVec.toNat_ofNat .. ▸ Nat.mod_eq_of_lt h.2

/-! ### The descriptors that carry flags, a mode, a length or a speed -/

theorem decode_ptWriteframe (fl : FLen) (r : Byte) (ack : Bool) {l1 l0 : Byte} {bytes : List Byte} (rest : List Byte)
    (hl : (word16 l1 l0).toNat = bytes.length) :
    decode fl (0x01 :: r :: flagsByte false false ack :: l1 :: l0 :: (bytes ++ rest)) =
      .ok (.ptWriteframe r ack bytes, rest) := by
  show decodeWriteframe (r :: flagsByte false false ack :: l1 :: l0 :: (bytes ++ rest)) = _
  simp [decodeWriteframe, (flagsByte_le_one ack).not_gt, hl]

theorem decode_crIstaskdone (fl : FLen) (wait : Bool) (bs : List Byte) :
    decode fl (0x15 :: flagsByte false false wait :: bs) = .ok (.crIstaskdone wait, bs) := by
  cases wait <;> rfl

theorem decode_spActivate (fl : FLen) (m : Mode) (bs : List Byte) :
    decode fl (0x20 :: m.code.zeroExtend 8 :: bs) = .ok (.spActivate m, bs) := by
  cases m <;> rfl

theorem decode_pgRun {fl : FLen} (d : Dir) {v : FBits} (rest : List Byte) (hv : legalSpeed fl v = true) :
    decode fl (0x30 :: flagsByte false false d.bit :: (v.bytes ++ rest)) = .ok (.pgRun d v, rest) := by
  show decodeRun fl (flagsByte false false d.bit :: (v.bytes ++ rest)) = _
  simp [decodeRun, (flagsByte_le_one d.bit).not_gt, decodeF_bytes rest hv]

theorem decode_pgStepcount {fl : FLen} (n3 n2 n1 n0 : Byte) (d : Dir) {v : FBits} (bg cb : Bool) (rest : List Byte)
    (hv : legalSpeed fl v = true) :
    decode fl (0x31 :: flagsByte cb bg d.bit :: n3 :: n2 :: n1 :: n0 :: (v.bytes ++ rest)) =
      .ok (.pgStepcount (word32 n3 n2 n1 n0) d v bg cb, rest) := by
  show decodeStepcount fl (flagsByte cb bg d.bit :: n3 :: n2 :: n1 :: n0 :: (v.bytes ++ rest)) = _
  simp [decodeStepcount, (flagsByte_le cb bg d.bit).not_gt, decodeF_bytes rest hv]

/-! ### Decoding what was encoded -/

theorem decode_encode {c : Config} {i : Instr} (rest : List Byte) (h : i.wellFormed c = true) :
    decode c.flen (encode i ++ rest) = .ok (i, rest) := by
  have answers {k : Instr} (e : k = i) : (.ok (k, rest) : Except Reject (Instr × List Byte)) = .ok (i, rest) := by rw [e]
  cases i with
  | ptWriteframe r ack bytes => exact decode_ptWriteframe c.flen r ack rest (length_field h)
  | crWritecmdp t p => exact answers (congrArg (Instr.crWritecmdp t) (word16_bytes p))
  | crReadwordsn n => exact answers (congrArg Instr.crReadwordsn (word16_bytes n))
  | crIstaskdone wait => exact decode_crIstaskdone c.flen wait rest
  | spActivate m => exact decode_spActivate c.flen m rest
  | spPopt ms => exact answers (congrArg Instr.spPopt (word32_bytes ms))
  | pgRun d v => exact decode_pgRun d rest h
  | pgStepcount n d v bg cb =>
    obtain ⟨-, hv⟩ := (Bool.and_eq_true _ _).mp h
    exact (decode_pgStepcount _ _ _ _ d bg cb rest hv).trans
      (answers (congrArg (fun n => Instr.pgStepcount n d v bg cb) (word32_bytes n)))
  | ptReadwords | ptReadbytepair | ptVerifyid | crWritecmd | crReadword | crIdcheck | crScanretr | spDeactivate | spCalend
  | spPop | pgStop | pgGetstepcount | pgClose => rfl

/-- Settles O2: each operand field is read back from its own bytes. -/
theorem decodeOfEncode : Obligations.DecodeOfEncode := fun _ _ rest h => decode_encode rest h

/-- Settles O1: the decoder evaluated on the six descriptors. -/
theorem sampleDescriptorsDecode : Obligations.SampleDescriptorsDecode := ⟨rfl, rfl, rfl, rfl, rfl, rfl⟩

end Sys2Proof.Machine
end

section
/-! SUPPORT. Refusals: a descriptor the decoder rejects, and an operand value an operation's meaning does not accept
(30_encoding.md R118, R119). -/

namespace Sys2Proof.Machine

/-! ### By the decoder -/

/-- On an opcode byte outside the map of R114 the decoder comes to its last arm. -/
theorem decode_unlisted (fl : FLen) {op : Byte} (bs : List Byte)
    (h : op = 0x00 ∨ (0x05 ≤ op.toNat ∧ op.toNat ≤ 0x0F) ∨ (0x17 ≤ op.toNat ∧ op.toNat ≤ 0x1F) ∨
      (0x25 ≤ op.toNat ∧ op.toNat ≤ 0x2F) ∨ 0x35 ≤ op.toNat) :
    decode fl (op :: bs) = .error (.opcode op) := by
  obtain rfl | h := h
  · rfl
  show decodeOperands fl op bs = _
  unfold decodeOperands
  split
  case h_22 => rfl
  all_goals omega

theorem decodeMode_reserved {m : Byte} (h : 5 ≤ m.toNat) : decodeMode m = .error (.reservedMode m) := by
  unfold decodeMode
  split
  case h_6 => rfl
  all_goals omega

theorem decode_spActivate_reserved (fl : FLen) {m : Byte} (bs : List Byte) (h : 5 ≤ m.toNat) :
    decode fl (0x20 :: m :: bs) = .error (.reservedMode m) := by
  simp [decode, decodeOperands, decodeMode_reserved h]

theorem decode_ptWriteframe_reserved (fl : FLen) {f : Byte} (r l1 l0 : Byte) (bs : List Byte) (hf : 2 ≤ f.toNat) :
    decode fl (0x01 :: r :: f :: l1 :: l0 :: bs) = .error (.reservedFlags f) := if_pos hf

theorem decode_crIstaskdone_reserved (fl : FLen) {f : Byte} (bs : List Byte) (hf : 2 ≤ f.toNat) :
    decode fl (0x15 :: f :: bs) = .error (.reservedFlags f) := if_pos hf

theorem decode_pgRun_reserved (fl : FLen) {f : Byte} (bs : List Byte) (hf : 2 ≤ f.toNat) :
    decode fl (0x30 :: f :: bs) = .error (.reservedFlags f) := if_pos hf

theorem decode_pgStepcount_reserved (fl : FLen) {f : Byte} (n3 n2 n1 n0 : Byte) (bs : List Byte) (hf : 8 ≤ f.toNat) :
    decode fl (0x31 :: f :: n3 :: n2 :: n1 :: n0 :: bs) = .error (.reservedFlags f) := if_pos hf

/-- A free host whose turn it is has a descriptor refused that the decoder rejects. -/
theorem step_reject {s : State} {es : List Event} {op : Byte} {bs : List Byte} {e : Reject} (hc : legalConfig s.cfg = true)
    (hb : s.busy = none) (ht : HostTurns 1 s es) (hd : decode s.cfg.flen (op :: bs) = .error e) (hh : s.host = op :: bs) :
    step s = .refused (.descriptor e) := by
  rw [step_hostTurn hc ht]
  exact hostTurn_reject (s := { s with sched := es }) hb (hh ▸ List.cons_ne_nil op bs) (hh ▸ hd)

/-- Settles O3: the decoder rejects the opcode byte by name. -/
theorem unlistedOpcodeRefused : Obligations.UnlistedOpcodeRefused := fun s _ _ bs hc hb ht hh ho =>
  step_reject hc hb ht (decode_unlisted s.cfg.flen bs ho) hh

/-! ### By the meaning -/

theorem require_illegal {b : Bool} (field : String) (o : Outcome) (h : b = false) :
    require b field o = .refused (.reservedOperand field) := by
  simp [require, h]

theorem legalLen_eq_false {c : Config} {bytes : List Byte} (h : c.txMax < bytes.length) : legalLen c bytes = false := by
  simp [legalLen, h.not_ge]

theorem legalWords_eq_false {c : Config} {w : Byte} (h : c.wMax < w.toNat) : legalWords c w = false := by
  simp [legalWords, h]

theorem legalCount_eq_false {n : BitVec 32} (h : n.toNat = 0 ∨ 2 ^ 31 - 1 < n.toNat) : legalCount n = false := by
  simp only [legalCount, Bool.and_eq_false_iff, decide_eq_false_iff_not]; omega

/-- A pattern above zero and below infinity has its sign bit clear and is its own magnitude, so its datum is positive. -/
theorem positiveIn_of_pattern (fl : FLen) {w x : Nat} (hw : fl.infMag ≤ 2 ^ w) (h0 : 0 < x) (hx : x < fl.infMag) :
    positiveIn fl (fOfFields fl.infMag (x.testBit w) (x % 2 ^ w)) = true := by
  have hlt : x < 2 ^ w := hx.trans_le hw
  rw [Nat.testBit_lt_two_pow hlt, Nat.mod_eq_of_lt hlt, fOfFields, if_pos hx, positiveIn_iff]
  exact ⟨x, rfl, h0, hx⟩

/-- A legal speed is the pattern of a finite number greater than zero (43_pulse_generator.md R211). -/
theorem positiveIn_of_legalSpeed {fl : FLen} {v : FBits} (h : legalSpeed fl v = true) : positiveIn fl (fOfBits v) = true := by
  match fl, v, h with
  | .f32, .b32 x, h =>
    obtain ⟨h0, hx⟩ := Bool.and_eq_true_iff.mp h
    exact positiveIn_of_pattern .f32 (w := 31) (by decide) (of_decide_eq_true h0) (of_decide_eq_true hx)
  | .f64, .b64 x, h =>
    obtain ⟨h0, hx⟩ := Bool.and_eq_true_iff.mp h
    exact positiveIn_of_pattern .f64 (w := 63) (by decide) (of_decide_eq_true h0) (of_decide_eq_true hx)

section
variable {s : State} (hb : s.busy = none)
include hb

theorem exec_ptWriteframe_reserved (r : Byte) (ack : Bool) {bytes : List Byte} (h : legalLen s.cfg bytes = false) :
    exec (.ptWriteframe r ack bytes) s = .refused (.reservedOperand "len") := by
  rw [exec, execPtWriteframe, issue_free _ hb, require_illegal _ _ h]

theorem exec_ptReadwords_reserved (cc : Byte) {w : Byte} (h : legalWords s.cfg w = false) :
    exec (.ptReadwords cc w) s = .refused (.reservedOperand "wordCount") := by
  rw [exec, execPtReadwords, issue_free _ hb, require_illegal _ _ h]

theorem exec_pgRun_reserved (d : Dir) {v : FBits} (h : legalSpeed s.cfg.flen v = false) :
    exec (.pgRun d v) s = .refused (.reservedOperand "speedRPM") := by
  rw [exec, execPgRun, issue_free _ hb, require_illegal _ _ h]

/-- A reserved count is refused whatever the speed is (log 14). -/
theorem exec_pgStepcount_reservedCount {n : BitVec 32} (d : Dir) (v : FBits) (bg cb : Bool) (h : legalCount n = false) :
    exec (.pgStepcount n d v bg cb) s = .refused (.reservedOperand "count") := by
  rw [exec, execPgStepcount, issue_free _ hb, require_illegal _ _ h]

theorem exec_pgStepcount_reservedSpeed {n : BitVec 32} (d : Dir) {v : FBits} (bg cb : Bool) (hn : legalCount n = true)
    (h : legalSpeed s.cfg.flen v = false) :
    exec (.pgStepcount n d v bg cb) s = .refused (.reservedOperand "speedRPM") := by
  rw [exec, execPgStepcount, issue_free _ hb, require_legal _ _ hn, require_illegal _ _ h]

end

/-- Settles O4: the decoder's two refusals, then the four of the meanings. -/
theorem reservedOperandsRefused : Obligations.ReservedOperandsRefused := by
  intro s hc hb
  refine ⟨fun es ht bs => ?_, fun r ack bytes h => exec_ptWriteframe_reserved hb r ack (legalLen_eq_false h),
    fun cc w h => exec_ptReadwords_reserved hb cc (legalWords_eq_false h),
    fun n d v bg cb h => exec_pgStepcount_reservedCount hb d v bg cb (legalCount_eq_false h), fun v _ hv => ?_⟩
  · have refused {op : Byte} {bytes : List Byte} {e : Reject} := step_reject (op := op) (bs := bytes) (e := e) hc hb ht
    exact ⟨fun m hm => refused (decode_spActivate_reserved _ bs hm),
      fun r f l1 l0 hf => refused (decode_ptWriteframe_reserved _ r l1 l0 bs hf),
      fun f hf => refused (decode_crIstaskdone_reserved _ bs hf), fun f hf => refused (decode_pgRun_reserved _ bs hf),
      fun f n3 n2 n1 n0 hf => refused (decode_pgStepcount_reserved _ n3 n2 n1 n0 bs hf)⟩
  · have hspeed : legalSpeed s.cfg.flen v = false :=
      Bool.eq_false_of_not_eq_true fun h => by simp [positiveIn_of_legalSpeed h] at hv
    exact ⟨fun d => exec_pgRun_reserved hb d hspeed, fun n d bg cb hn => exec_pgStepcount_reservedSpeed hb d bg cb hn hspeed⟩

end Sys2Proof.Machine
end

section
/-! SUPPORT. The obligations on the machine that rest on the rules of PT and CR: no operation faults, and the two units rest
between their operations (40_packet_transport.md R137, 41_command_response.md R167, 60_exceptions.md R254). -/

namespace Sys2Proof

open Machine

variable {s t : State}

/-! ### No fault -/

/-- No state makes the meaning fault. -/
def Faultless (k : State → Outcome) : Prop := ∀ (s : State) (f : Fault), k s ≠ .fault f

theorem faultless_next (k : State → State) : Faultless fun s => .next (k s) := fun _ _ h => by cases h

theorem faultless_refused (r : Refusal) : Faultless fun _ => .refused r := fun _ _ h => by cases h

theorem Faultless.ite {k k' : State → Outcome} (b : State → Bool) (h : Faultless k) (h' : Faultless k') :
    Faultless fun s => if b s then k s else k' s := by
  intro s
  dsimp only
  split
  · exact h s
  · exact h' s

theorem Faultless.require {k : State → Outcome} (legal : State → Bool) (field : String) (h : Faultless k) :
    Faultless fun s => require (legal s) field (k s) := h.ite legal (faultless_refused _)

theorem Faultless.issue {k : State → Outcome} (h : Faultless k) : Faultless fun s => issue s k :=
  Faultless.ite (fun s => s.busy.isSome) (faultless_refused _) h

theorem exec_faultless (i : Instr) : Faultless (exec i) := by
  have next := faultless_next
  cases i with
  | ptWriteframe | ptReadwords => exact ((next _).require _ _).issue
  | ptReadbytepair | ptVerifyid | crWritecmd | crWritecmdp | crReadword | crReadwordsn | crIdcheck | crIstaskdone | crScanretr
  | spDeactivate | spPop | spPopt | pgStop | pgGetstepcount | pgClose => exact (next _).issue
  | spActivate | spCalend => exact ((next _).ite _ (next _)).issue
  | pgRun => exact (((next _).ite _ ((next _).ite _ (next _))).require _ _).issue
  | pgStepcount => exact ((((next _).ite _ ((next _).ite _ (next _))).require _ _).require _ _).issue

/-- Settles O9: every meaning is made of next states, choices and refusals. -/
theorem operationsNeverFault : Obligations.OperationsNeverFault := exec_faultless

/-! ### PT and CR at rest -/

theorem RestInv.of_same (h : RestInv s) (hp : t.pt = s.pt) (hc : t.cr = s.cr) (hb : t.busy = s.busy) : RestInv t :=
  ⟨by rw [hp, hb]; exact h.pt, by rw [hc, hb]; exact h.cr⟩

/-- With no operation of theirs in progress both units are in their rest phase. -/
structure AtRest (s : State) : Prop where
  pt : s.pt.phase = .idle
  cr : s.cr.phase = .idle

theorem AtRest.restInv (h : AtRest s) : RestInv s := ⟨fun hp => absurd h.pt hp, fun hc => absurd h.cr hc⟩

theorem RestInv.atRest (h : RestInv s) (hp : ∀ op, s.busy ≠ some (.pt op)) (hc : ∀ op, s.busy ≠ some (.cr op)) : AtRest s :=
  ⟨by_contra fun hi => (h.pt hi).elim hp, by_contra fun hi => (h.cr hi).elim hc⟩

/-- What touches another unit alone leaves them at rest. -/
theorem AtRest.of_frame {u : UnitName} (h : AtRest s) (f : Frame u s t) (hp : u ≠ .pt) (hc : u ≠ .cr) : RestInv t :=
  AtRest.restInv ⟨by rw [f.pt hp]; exact h.pt, by rw [f.cr hc]; exact h.cr⟩

/-- An operation of another unit that goes on touches its unit alone. -/
theorem RestInv.of_frame {p : Pending} (h : RestInv s) (hb : s.busy = some p) (f : Frame p.unit s t) (hp : p.unit ≠ .pt)
    (hc : p.unit ≠ .cr) : RestInv t := by
  refine (h.atRest (fun op he => hp ?_) (fun op he => hc ?_)).of_frame f hp hc <;> cases hb.symm.trans he <;> rfl

/-- While PT is at work CR rests; PT has returned to its rest phase or is still at work. -/
structure PtWorks (s : State) : Prop where
  pt : s.pt.phase ≠ .idle → ∃ op, s.busy = some (.pt op)
  cr : s.cr.phase = .idle

/-- While CR is at work PT rests; CR has returned to its rest phase or is still at work. -/
structure CrWorks (s : State) : Prop where
  pt : s.pt.phase = .idle
  cr : s.cr.phase ≠ .idle → ∃ op, s.busy = some (.cr op)

theorem PtWorks.restInv (h : PtWorks s) : RestInv s := ⟨h.pt, fun hc => absurd h.cr hc⟩
theorem CrWorks.restInv (h : CrWorks s) : RestInv s := ⟨fun hp => absurd h.pt hp, h.cr⟩
theorem AtRest.ptWorks (h : AtRest s) : PtWorks s := ⟨h.restInv.pt, h.cr⟩
theorem AtRest.crWorks (h : AtRest s) : CrWorks s := ⟨h.pt, h.restInv.cr⟩

theorem RestInv.ptWorks {op : PtOp} (h : RestInv s) (hb : s.busy = some (.pt op)) : PtWorks s :=
  ⟨h.pt, by_contra fun hi => (h.cr hi).elim fun _ he => by simp [hb] at he⟩

theorem RestInv.crWorks {op : CrOp} (h : RestInv s) (hb : s.busy = some (.cr op)) : CrWorks s :=
  ⟨by_contra fun hi => (h.pt hi).elim fun _ he => by simp [hb] at he, h.cr⟩

theorem ptWorks_keeps : PtKeeps PtWorks where
  go op _ _ h := ⟨fun _ => ⟨op, rfl⟩, h.cr⟩
  upd _ _ h hp _ _ := ⟨fun hi => h.pt (hp ▸ hi), h.cr⟩
  updB _ _ h hb _ _ := ⟨fun _ => hb, h.cr⟩
  log _ _ h := ⟨h.pt, h.cr⟩
  rx _ _ _ h := ⟨by simpa using h.pt, by simpa using h.cr⟩
  env _ _ h := ⟨h.pt, h.cr⟩
  ok _ _ h := ⟨nofun, h.cr⟩
  er _ _ _ h := ⟨nofun, h.cr⟩

theorem crWorks_keeps : CrKeeps CrWorks where
  go op _ _ h := ⟨h.pt, fun _ => ⟨op, rfl⟩⟩
  upd _ _ h hc _ _ := ⟨h.pt, fun hi => h.cr (hc ▸ hi)⟩
  log _ _ h := ⟨h.pt, h.cr⟩
  rx _ _ _ h := ⟨by simpa using h.pt, by simpa using h.cr⟩
  env _ _ h := ⟨h.pt, h.cr⟩
  ok _ _ h := ⟨h.pt, nofun⟩
  er _ _ _ h := ⟨h.pt, nofun⟩

theorem RestInv.goOn {p : Pending} (hb : s.busy = some p) (h : RestInv s) : RestInv (goOn s) := by
  cases p with
  | pt op => simp only [Machine.goOn, hb]; exact (drive_ptKeeps ptWorks_keeps _ _ (h.ptWorks hb)).restInv
  | cr op => simp only [Machine.goOn, hb]; exact (drive_crKeeps crWorks_keeps _ _ (h.crWorks hb)).restInv
  | pop | popt ms | launch op | loopEnd => exact h.of_frame hb (goOn_frame hb) nofun nofun

/-- An operation is issued with both units at rest, and at most its own leaves its rest phase. -/
theorem RestInv.exec {i : Instr} (he : exec i s = .next t) (h : RestInv s) : RestInv t := by
  have hr : AtRest s := h.atRest (by simp [exec_free he]) (by simp [exec_free he])
  cases hu : i.unit with
  | pt =>
    obtain ⟨k, n, rfl⟩ := exec_pt hu he
    exact (drive_ptKeeps ptWorks_keeps _ _ (ptStart_keeps ptWorks_keeps _ _ _ hr.ptWorks)).restInv
  | cr =>
    obtain ⟨k, rfl⟩ := exec_cr hu he
    exact (drive_crKeeps crWorks_keeps _ _ (crStart_keeps crWorks_keeps _ _ hr.crWorks)).restInv
  | sp | pg =>
    have f := exec_frame he
    rw [hu] at f
    exact hr.of_frame f nofun nofun

theorem restInv_stepKeeps : StepKeeps RestInv where
  outside _ _ _ _ _ _ h := h.of_same rfl rfl rfl
  goOn _ _ hb h := h.goOn hb
  launch _ _ hb h := h.of_frame hb (launchStep_frame _ _) nofun nofun
  pop _ hb h := h.of_frame hb (spTake_frame _) nofun nofun
  loopEnd _ hb h := h.of_frame hb (pgLoopEnd_frame _) nofun nofun
  exec _ _ _ he h := h.exec he
  irq _ _ _ _ he h := by
    rw [(spIrq_handled he).only]
    exact h.of_same rfl rfl rfl
  toggle _ _ he h := by
    rw [(pgToggle_writes he).1]
    exact h.of_same rfl rfl rfl
  reset s _ := (restInv_resetAt s.cfg).of_same rfl rfl rfl

/-- Settles O16: every agent's step keeps it. -/
theorem restPhasesKept : Obligations.RestPhasesKept := fun _ _ h hs => restInv_stepKeeps.step hs h

end Sys2Proof
end

section
/-! SUPPORT. The CRC of the PT unit: an accumulator that is never masked, runs of zero bits, and the consequences of R131
(40_packet_transport.md R130, R131; 00_scope.md R14). -/

namespace Sys2Proof.Machine

/-! ### An accumulator that is never masked -/

/-- One of the eight shifts of R130 on an accumulator of any size. -/
def wideShift (w : Nat) : Nat := if w.testBit 15 then (w <<< 1) ^^^ 0x1021 else w <<< 1

/-- `Crc16Update` of R130 on an accumulator of any size. -/
def wideUpdate (w : Nat) (b : Byte) : Nat := Nat.repeat wideShift 8 (w ^^^ (b.toNat <<< 8))

/-- Masking after a shift is shifting after the mask. -/
theorem ofNat_wideShift (w : Nat) : BitVec.ofNat 16 (wideShift w) = crcShift 0x1021 (BitVec.ofNat 16 w) := by
  have top : (BitVec.ofNat 16 w).getLsbD 15 = w.testBit 15 := BitVec.getLsbD_ofNat 16 w 15
  have shl : BitVec.ofNat 16 (w <<< 1) = BitVec.ofNat 16 w <<< 1 := by
    apply BitVec.eq_of_toNat_eq
    simp [Nat.shiftLeft_eq]
  unfold wideShift crcShift
  rw [top]
  split
  · rw [BitVec.ofNat_xor, shl]; rfl
  · exact shl

theorem ofNat_repeat_wideShift (n w : Nat) :
    BitVec.ofNat 16 (Nat.repeat wideShift n w) = Nat.repeat (crcShift 0x1021) n (BitVec.ofNat 16 w) := by
  induction n with
  | zero => rfl
  | succ n ih => rw [Nat.repeat, ofNat_wideShift, ih, Nat.repeat]

theorem ofNat_wideUpdate (w : Nat) (b : Byte) :
    BitVec.ofNat 16 (wideUpdate w b) = crc16Update 0x1021 (BitVec.ofNat 16 w) b := by
  have entered : BitVec.ofNat 16 (b.toNat <<< 8) = b.zeroExtend 16 <<< 8 := by
    apply BitVec.eq_of_toNat_eq
    simp [Nat.shiftLeft_eq]
  rw [wideUpdate, ofNat_repeat_wideShift, BitVec.ofNat_xor, entered, crc16Update]

theorem ofNat_foldl_wideUpdate (bytes : List Byte) (w : Nat) :
    BitVec.ofNat 16 (bytes.foldl wideUpdate w) = crc16 0x1021 (BitVec.ofNat 16 w) bytes := by
  induction bytes generalizing w with
  | nil => rfl
  | cons b bytes ih => rw [List.foldl_cons, ih, ofNat_wideUpdate]; rfl

/-- Settles O21: the mask passes every byte. -/
theorem maskingEveryShiftLosesNothing : Obligations.MaskingEveryShiftLosesNothing := fun bytes =>
  congrArg BitVec.toNat (ofNat_foldl_wideUpdate bytes 0)

/-! ### Consequences of R131 -/

theorem crc16_append (poly c : BitVec 16) (as bs : List Byte) :
    crc16 poly c (as ++ bs) = crc16 poly (crc16 poly c as) bs := List.foldl_append

/-- While no set bit comes to the top, the shifts of R130 are plain ones. -/
theorem repeat_crcShift_of_lt (poly c : BitVec 16) (n : Nat) (h : c.toNat * 2 ^ n < 2 ^ 16) :
    Nat.repeat (crcShift poly) n c = c <<< n := by
  induction n with
  | zero => simp [Nat.repeat]
  | succ n ih =>
    have hn : c.toNat * 2 ^ n < 2 ^ 15 := by rw [pow_succ, ← Nat.mul_assoc] at h; omega
    have top : (c <<< n).getLsbD 15 = false := by
      rw [BitVec.getLsbD, BitVec.toNat_shiftLeft, Nat.shiftLeft_eq]
      exact Nat.testBit_lt_two_pow (lt_of_le_of_lt (Nat.mod_le _ _) hn)
    rw [Nat.repeat, ih (by omega), crcShift, top, if_neg (by decide), BitVec.shiftLeft_add]

/-- A CRC followed by its high byte leaves its low byte, in the high place. -/
theorem crc16Update_hiByte (poly c : BitVec 16) : crc16Update poly c (hiByte c) = (loByte c).zeroExtend 16 <<< 8 := by
  have cancel : c ^^^ ((hiByte c).zeroExtend 16 <<< 8) = (loByte c).zeroExtend 16 := by
    ext i hi
    by_cases h : i < 8
    · simpa [hiByte, loByte, h] using (BitVec.getLsbD_eq_getElem hi).symm
    · simp [hiByte, loByte, h, show i - 8 < 8 by omega, show 8 + (i - 8) = i by omega, hi]
  have low : ((loByte c).zeroExtend 16).toNat * 2 ^ 8 < 2 ^ 16 := by
    have := (loByte c).isLt
    rw [BitVec.toNat_setWidth_of_le (by decide)]
    omega
  rw [crc16Update, cancel, repeat_crcShift_of_lt _ _ _ low]

/-- A zero byte leaves a cleared CRC cleared. -/
theorem crc16Update_zero (poly : BitVec 16) : crc16Update poly 0 0 = 0 := repeat_crcShift_of_lt poly 0 8 (by decide)

theorem crc16_zeros (poly : BitVec 16) (n : Nat) : crc16 poly 0 (List.replicate n 0) = 0 := by
  induction n with
  | zero => rfl
  | succ n ih => rw [List.replicate_succ, crc16, List.foldl_cons, crc16Update_zero]; exact ih

/-- A CRC followed by its two bytes is cleared. -/
theorem crc16_bytes16 (poly c : BitVec 16) : crc16 poly c (bytes16 c) = 0 := by
  show crc16Update poly (crc16Update poly c (hiByte c)) (loByte c) = 0
  rw [crc16Update_hiByte, crc16Update, BitVec.xor_self]
  exact repeat_crcShift_of_lt poly 0 8 (by decide)

/-- Settles O22: a cleared CRC stays so over zero bytes, a CRC is cleared by its own bytes, and the check value by evaluation. -/
theorem crcConsequences : Obligations.CrcConsequences := by
  refine ⟨rfl, crc16Update_zero _, fun n m => ?_, fun m => ?_, by decide +kernel⟩
  · rw [crc16_append, crc16_zeros]
  · rw [crc16_append]
    exact crc16_bytes16 _ _

end Sys2Proof.Machine
end

section
/-! SUPPORT. A PT operation as a whole: the failed attempts its budget allows and the attempt that ends it, or its budget used up
(40_packet_transport.md R132, R138). -/

namespace Sys2Proof

open Machine

/-! ### Retries -/

@[simp] theorem opOk_pt (d : Data) (s : State) : opOk .pt d s =
    { s with pt := { s.pt with phase := .idle, ok := true, err := 0 }, busy := none, ret := some ⟨.pt, true, 0, d⟩ } := rfl

@[simp] theorem opError_pt (e : ErrClass) (s : State) : opError .pt e s =
    { s with
      pt := { s.pt with phase := .idle, ok := false, err := e.code }
      busy := none
      ret := some ⟨.pt, false, e.code, .none⟩ } := rfl

/-- What a row of failed attempts from an operation's start leaves, the running CRC aside. -/
def afterFailed (as : List Attempt) (s : State) : State :=
  { s with
    pt := { s.pt with attempts := as.length, rxcrc := rxcrcAfter s.pt.rxcrc as }
    hist := s.hist ++ as.flatMap Attempt.calls }

/-- Attempts that never come to the comparison leave `pt_rxcrc`. -/
theorem rxcrcAfter_eq_self (r : Held (BitVec 16)) {as : List Attempt} (h : ∀ a ∈ as, a.rxcrc = none) : rxcrcAfter r as = r := by
  induction as with
  | nil => rfl
  | cons a as ih =>
    obtain ⟨ha, has⟩ := List.forall_mem_cons.mp h
    rw [rxcrcAfter, List.foldl_cons, ha]
    exact ih has

/-- An attempt that fails so, from any state at the configuration, goes on to the next attempt. -/
def FailsBy (k : PtKind) (n : Nat) (c : Config) (P : Attempt → Prop) : Prop :=
  ∀ (s : State) (a : Attempt), s.cfg = c → P a →
    Brings ptAdvance (ptBegin ⟨k, n, [], 0⟩ s) a.calls (ptNextAttempt a.err ⟨k, n, [], 0⟩ (attempted a s))

section
variable {k : PtKind} {n : Nat} {s t : State} {P : Attempt → Prop} {as : List Attempt} {ms rest : List EnvMove} {y : Sides}
  (one : FailsBy k n s.cfg P) (he : s.env = ms ++ rest)
include one he

/-- Failed attempts within the budget, and then the attempt that ends the operation. -/
theorem ptRun_retried {cs : List Call} (has : ∀ a ∈ as, P a) (hn : as.length ≤ n)
    (h : Brings ptAdvance (ptBegin ⟨k, n, [], 0⟩ (afterFailed as s)) cs t) (ht : t.callOutstanding = false)
    (ha : answered ms ⟨s.ptRx, s.crRx⟩ (as.flatMap Attempt.calls ++ cs) = some y) :
    ptRun k n s = .next { t.withRx y with env := rest } := by
  have row : Brings ptAdvance (ptStart k n s) (as.flatMap Attempt.calls) (ptBegin ⟨k, n, [], 0⟩ (afterFailed as s)) := by
    refine (brings_failedAttempts s.cfg one as { s with pt := { s.pt with attempts := 0 } } rfl has (by simpa using hn)).to ?_
    simp [afterFailed]
  exact ptRun_brings (row.trans h) ht he ha

/-- One failed attempt more than the budget: the operation ends with the class of the last. -/
theorem ptRun_exhausted {last : Attempt} (has : ∀ a ∈ as ++ [last], P a) (hn : as.length = n)
    (ha : answered ms ⟨s.ptRx, s.crRx⟩ ((as ++ [last]).flatMap Attempt.calls) = some y) :
    ptRun k n s = .next { (ptError last.err ⟨k, n, [], 0⟩
      (ptSetCrc last.crc (afterFailed (as ++ [last]) s))).withRx y with env := rest } := by
  have row : Brings ptAdvance (ptStart k n s) ((as ++ [last]).flatMap Attempt.calls)
      (ptError last.err ⟨k, n, [], 0⟩ (ptSetCrc last.crc (afterFailed (as ++ [last]) s))) := by
    refine (brings_exhausted s.cfg one as last { s with pt := { s.pt with attempts := 0 } } rfl has (by simpa using hn)).to ?_
    simp [afterFailed, ptSetCrc, hn]
  exact ptRun_brings row rfl he ha

end

/-! ### PT.WRITEFRAME -/

theorem failsBy_write (ack : Bool) (bytes : List Byte) (n : Nat) (c : Config) :
    FailsBy (.writeFrame ack bytes) n c (FailedWrite c bytes ack) := fun s _ hc ha => brings_failedWrite s (hc ▸ ha)

theorem FailedWrite.rxcrc {c : Config} {bytes : List Byte} {ack : Bool} {a : Attempt} (h : FailedWrite c bytes ack a) :
    a.rxcrc = none := by
  obtain ⟨-, ⟨j, b, -, -, -, hx⟩ | ⟨-, r, -, -, -, hx⟩⟩ := h <;> exact hx

theorem FailedWrite.err {c : Config} {bytes : List Byte} {ack : Bool} {a : Attempt} (h : FailedWrite c bytes ack a) :
    a.err = .communicationFailure := by
  obtain ⟨-, ⟨j, b, -, -, he, -⟩ | ⟨-, r, -, -, he, -⟩⟩ := h <;> exact he

/-- ACK is read where an acknowledge is expected: success (R133). -/
theorem brings_ptAck (op : PtOp) (s : State) :
    Brings ptAdvance (ptGo op .rxAck s) (reads .pt [s.cfg.ack]) (opOk .pt .none (s.log (reads .pt [s.cfg.ack]))) := by
  refine (brings_ptRead (k := fun b s' => if b = s'.cfg.ack then opOk .pt .none s' else
    ptNextAttempt .communicationFailure op s') (fun u x => ?_) fun v u => rfl).to (if_pos rfl)
  by_cases hu : s.cfg.ack = u.cfg.ack
  · simp only [withRx_cfg, hu]; rfl
  · simp only [withRx_cfg, hu, if_false, ptNextAttempt_blind _ _ u x]

theorem exec_ptWriteframe {s : State} (hb : s.busy = none) (r : Byte) (ack : Bool) {bytes : List Byte}
    (hl : legalLen s.cfg bytes = true) :
    exec (.ptWriteframe r ack bytes) s = ptRun (.writeFrame ack bytes) r.toNat s := by
  rw [exec, execPtWriteframe, issue_free _ hb, require_legal _ _ hl]

/-- Settles O23: the failed attempts, then a whole frame. -/
theorem writeFrameWithoutAckSucceeds : Obligations.WriteFrameWithoutAckSucceeds := by
  intro s r bytes pt cr failed ms rest hb hl hn hf he ha
  have frame := brings_ptAttempt (op := ⟨.writeFrame false bytes, r.toNat, [], 0⟩) rfl rfl rfl (afterFailed failed s)
  rw [exec_ptWriteframe hb r false hl, ptRun_retried (failsBy_write _ _ _ _) he hf hn frame rfl ha]
  simp [ptAfterFrame, State.withRx, afterFailed, ptGo, framed, ptRequest, hb,
    rxcrcAfter_eq_self _ fun a h => (hf a h).rxcrc]

/-- Settles O24: the failed attempts, a whole frame, and its acknowledge. -/
theorem writeFrameWithAckSucceeds : Obligations.WriteFrameWithAckSucceeds := by
  intro s r bytes pt cr failed ms rest hb hl hn hf he ha
  have frame := brings_ptAttempt (op := ⟨.writeFrame true bytes, r.toNat, [], 0⟩) rfl rfl rfl (afterFailed failed s)
  rw [List.append_assoc] at ha
  rw [exec_ptWriteframe hb r true hl,
    ptRun_retried (failsBy_write _ _ _ _) he hf hn (frame.trans (brings_ptAck _ _)) rfl ha]
  simp [State.withRx, afterFailed, ptGo, framed, ptRequest, hb, State.log,
    rxcrcAfter_eq_self _ fun a h => (hf a h).rxcrc]

/-- Settles O25: the last of the attempts finds the budget used up. -/
theorem writeFrameExhaustsItsRetries : Obligations.WriteFrameExhaustsItsRetries := by
  intro s r ack bytes pt cr failed ms rest hb hl hn hf he ha
  obtain rfl | ⟨as, last, rfl⟩ := failed.eq_nil_or_concat'
  · cases hn
  · obtain ⟨hcrc, -⟩ := hf last (by simp)
    have hlen : as.length = r.toNat := by simpa using hn
    rw [exec_ptWriteframe hb r ack hl, ptRun_exhausted (failsBy_write _ _ _ _) he hf hlen ha]
    simp [ptError, ptDropData, State.withRx, afterFailed, ptSetCrc, hb,
      rxcrcAfter_eq_self _ fun a h => (hf a h).rxcrc, hlen, hcrc, (hf last (by simp)).err, ErrClass.code]

end Sys2Proof
end

section
/-! SUPPORT. The two reads of the PT unit: a response whose CRC matches, and the obligations on PT.READWORDS and
PT.READBYTEPAIR (40_packet_transport.md R132, R134, R135). -/

namespace Sys2Proof

open Machine

/-! ### An intact response -/

/-- A request, `n` response bytes and two CRC bytes, up to the comparison. -/
theorem brings_ptChecked {op : PtOp} {cc : Byte} {n : Nat} (s : State) (ho : ReadsData op s.cfg cc n) {data : List Byte}
    (hl : data.length = n) (h l : Byte) :
    Brings ptAdvance (ptBegin op s) (writes .pt [s.cfg.address, cc] ++ reads .pt (data ++ [h, l]))
      (ptCheck { op with got := data, crcHi := h } { s with
        busy := some (.pt { op with got := data, crcHi := h })
        pt := { s.pt with
          phase := .check, attempts := s.pt.attempts + 1
          crc := crc16 s.cfg.poly s.cfg.crcInit (s.cfg.address :: cc :: data)
          rxcrc := ⟨word16 h l, .written⟩ }
        hist := s.hist ++ (writes .pt [s.cfg.address, cc] ++ reads .pt (data ++ [h, l])) }) := by
  have resp := brings_ptResponse s ho data hl.le
  rw [ptToRx, if_neg (by simp [ho.2.2, hl])] at resp
  rw [reads_append, ← List.append_assoc]
  refine (resp.trans (brings_ptCrc _ h l _)).to ?_
  simp [ptRxCrc, ptGo, State.log, reads]

theorem ptCheck_readWords {cc : Byte} {w n : Nat} {g : List Byte} {c : Byte} {s : State} (h : s.pt.rxcrc.val = s.pt.crc) :
    ptCheck ⟨.readWords cc w, n, g, c⟩ s =
      opOk .pt (.words (words32 g)) { s with pt := { s.pt with data := ⟨words32 g, .written⟩ } } := if_pos h

theorem ptCheck_readPair {cc : Byte} {n : Nat} {p0 p1 c : Byte} {s : State} (h : s.pt.rxcrc.val = s.pt.crc) :
    ptCheck ⟨.readPair cc, n, [p0, p1], c⟩ s =
      opOk .pt (.pair p0 p1) { s with pt := { s.pt with pair := ⟨(p0, p1), .written⟩ } } := if_pos h

/-! ### PT.READWORDS and PT.READBYTEPAIR -/

theorem readsData_words (cc : Byte) (w n : Nat) (c : Config) : ReadsData ⟨.readWords cc w, n, [], 0⟩ c cc (4 * w) :=
  ⟨rfl, rfl, rfl⟩

theorem readsData_pair (cc : Byte) (n : Nat) (c : Config) : ReadsData ⟨.readPair cc, n, [], 0⟩ c cc 2 := ⟨rfl, rfl, rfl⟩

theorem failsBy_words (cc : Byte) (w n : Nat) (c : Config) :
    FailsBy (.readWords cc w) n c (FailedRead c cc (4 * w)) :=
  fun s _ hc ha => brings_failedRead s (readsData_words cc w n s.cfg) (hc ▸ ha)

theorem failsBy_pair (cc : Byte) (n : Nat) (c : Config) : FailsBy (.readPair cc) n c (FailedRead c cc 2) :=
  fun s _ hc ha => brings_failedRead s (readsData_pair cc n s.cfg) (hc ▸ ha)

theorem exec_ptReadwords {s : State} (hb : s.busy = none) (cc : Byte) {w : Byte} (hl : legalWords s.cfg w = true) :
    exec (.ptReadwords cc w) s = ptRun (.readWords cc w.toNat) s.cfg.retries s := by
  rw [exec, execPtReadwords, issue_free _ hb, require_legal _ _ hl]

theorem exec_ptReadbytepair {s : State} (hb : s.busy = none) (cc : Byte) :
    exec (.ptReadbytepair cc) s = ptRun (.readPair cc) s.cfg.retries s := by
  rw [exec, execPtReadbytepair, issue_free _ hb]

/-- Settles O26: the failed attempts, then a response that passes the comparison. -/
theorem readWordsDeliversIntactResponse : Obligations.ReadWordsDeliversIntactResponse := by
  intro s cc w h l data pt cr failed ms rest hb hl hn hf hd hcrc he ha
  have fin := (brings_ptChecked (afterFailed failed s) (readsData_words cc w.toNat s.cfg.retries s.cfg) hd h l).to
    (ptCheck_readWords hcrc)
  rw [List.append_assoc] at ha
  rw [exec_ptReadwords hb cc hl, ptRun_retried (failsBy_words _ _ _ _) he hf hn fin rfl ha]
  simp [State.withRx, afterFailed, hb, hcrc, words32_eq w.toNat data hd]

/-- Settles O27: the last of the attempts finds the budget used up. -/
theorem readWordsExhaustsItsRetries : Obligations.ReadWordsExhaustsItsRetries := by
  intro s cc w failed last pt cr ms rest hb hl hn hf he ha
  rw [exec_ptReadwords hb cc hl, ptRun_exhausted (failsBy_words _ _ _ _) he hf hn ha]
  simp [ptError, ptDropData, State.withRx, afterFailed, ptSetCrc, hb, hn]

/-- Settles O28: as for PT.READWORDS, with two bytes. -/
theorem readBytePairDeliversIntactResponse : Obligations.ReadBytePairDeliversIntactResponse := by
  intro s cc failed pt cr ms rest hb hf he
  refine ⟨fun p0 p1 h l hn hcrc ha => ?_, fun last hn hlast ha => ?_⟩
  · have fin := (brings_ptChecked (afterFailed failed s) (readsData_pair cc s.cfg.retries s.cfg) (data := [p0, p1]) rfl h l).to
      (ptCheck_readPair hcrc)
    rw [List.append_assoc] at ha
    rw [exec_ptReadbytepair hb cc, ptRun_retried (failsBy_pair _ _ _) he hf hn fin rfl ha]
    simp [State.withRx, afterFailed, hb, hcrc]
  · have hall : ∀ a ∈ failed ++ [last], FailedRead s.cfg cc 2 a := by
      simpa [or_imp, forall_and] using ⟨hf, hlast⟩
    rw [exec_ptReadbytepair hb cc, ptRun_exhausted (failsBy_pair _ _ _) he hall hn ha]
    simp [ptError, ptDropData, State.withRx, afterFailed, ptSetCrc, hb, hn]

end Sys2Proof
end

section
/-! SUPPORT. PT.VERIFYID: its bounded wait, and the obligations on how it ends (40_packet_transport.md R136; 60_exceptions.md
R243). -/

namespace Sys2Proof

open Machine

/-! ### The bounded wait -/

/-- A byte is there during the wait: it is read next (93 U19). -/
theorem brings_ptWaitGot (op : PtOp) (s : State) :
    Brings ptAdvance (ptGo op .idWait s) [.waitByte .pt s.cfg.verifyTimeoutMs true]
      (ptGo op (.rxData 0) (s.log [.waitByte .pt s.cfg.verifyTimeoutMs true])) := by
  refine brings_waitGot rfl (fun v x hx => ?_) (fun x hx => ?_)
  · obtain ⟨_ | ⟨b, bs⟩, cr⟩ := x
    · exact absurd rfl hx
    · rfl
  · exact ptWait_of_nil op hx

/-- The time of the wait passes: the operation ends. -/
theorem brings_ptWaitOut (op : PtOp) (s : State) :
    Brings ptAdvance (ptGo op .idWait s) [.waitByte .pt s.cfg.verifyTimeoutMs false]
      (ptError .deviceUnavailable op ((ptGo op .idWait s).log [.waitByte .pt s.cfg.verifyTimeoutMs false])) := by
  refine brings_waitOut rfl (fun x hx => ?_) (fun x hx => ptWait_of_nil op hx)
  obtain ⟨_ | ⟨b, bs⟩, cr⟩ := x
  · exact ptError_blind _ _ ((ptGo op .idWait s).log [.waitByte .pt s.cfg.verifyTimeoutMs false]) ⟨[], cr⟩
  · cases hx

/-! ### PT.VERIFYID -/

/-- PT.VERIFYID as it is issued: one attempt. -/
def verifyOp : PtOp := ⟨.verify, 0, [], 0⟩

/-- A failed attempt to write the frame of PT.VERIFYID. -/
def FailedVerify (c : Config) (a : Attempt) : Prop :=
  a.crc = crc16 c.poly c.crcInit c.verifyBytes ∧ ∃ j, AbandonedWrite (framed c c.verifyBytes) a j

theorem failsBy_verify (c : Config) : FailsBy .verify 0 c (FailedVerify c) := by
  rintro s a rfl ⟨hc, j, ha⟩
  exact brings_abandonedFrame rfl s ha hc

/-- PT.VERIFYID with its frame written, in its bounded wait. -/
def verifyWaiting (s : State) : State :=
  ptGo verifyOp .idWait { s with
    pt := { s.pt with attempts := 1, crc := crc16 s.cfg.poly s.cfg.crcInit s.cfg.verifyBytes }
    hist := s.hist ++ writes .pt (framed s.cfg s.cfg.verifyBytes) }

/-- The frame of PT.VERIFYID with every write accepted. -/
theorem brings_verifyFrame (s : State) :
    Brings ptAdvance (ptBegin verifyOp (afterFailed [] s)) (writes .pt (framed s.cfg s.cfg.verifyBytes)) (verifyWaiting s) := by
  refine (brings_ptAttempt (op := verifyOp) rfl rfl rfl (afterFailed [] s)).to ?_
  simp [verifyOp, ptAfterFrame, afterFailed, verifyWaiting, rxcrcAfter, ptRequest]

/-- PT.VERIFYID with the frame written ends as its further calls bring it to end. -/
theorem exec_ptVerifyid_brings {s t : State} {ms rest : List EnvMove} {cs : List Call} {y : Sides} (hb : s.busy = none)
    (he : s.env = ms ++ rest) (h : Brings ptAdvance (verifyWaiting s) cs t) (ht : t.callOutstanding = false)
    (ha : answered ms ⟨s.ptRx, s.crRx⟩ (writes .pt (framed s.cfg s.cfg.verifyBytes) ++ cs) = some y) :
    exec .ptVerifyid s = .next { t.withRx y with env := rest } := by
  rw [exec, execPtVerifyid, issue_free _ hb]
  exact ptRun_retried (as := []) (failsBy_verify s.cfg) he nofun (Nat.le_refl _) ((brings_verifyFrame s).trans h) ht ha

/-- Settles O29: what the wait and the read after it come to. -/
theorem verifyIdentityIsALivenessCheck : Obligations.VerifyIdentityIsALivenessCheck := by
  rintro s frame pt cr ms rest hb rfl he
  have got := brings_ptWaitGot verifyOp (verifyWaiting s)
  refine ⟨fun b ha => ?_, fun ha => ?_, fun ha => ?_⟩
  · have read := brings_ptRead (op := verifyOp) (p := .rxData 0)
      (s := (verifyWaiting s).log [.waitByte .pt s.cfg.verifyTimeoutMs true]) (b := b) (k := ptData verifyOp)
      (fun _ _ => rfl) (fun _ _ => rfl)
    rw [exec_ptVerifyid_brings hb he (got.trans read) rfl ha]
    simp [verifyOp, verifyWaiting, ptData, State.withRx, ptGo, State.log, framed, hb]
  · rw [exec_ptVerifyid_brings hb he (brings_ptWaitOut verifyOp (verifyWaiting s)) rfl ha]
    simp [verifyOp, verifyWaiting, ptError, ptDropData, State.withRx, ptGo, State.log, framed, hb, ErrClass.code]
  · have read := (brings_ptReadFail (op := verifyOp) (p := .rxData 0)
      (s := (verifyWaiting s).log [.waitByte .pt s.cfg.verifyTimeoutMs true]) (k := ptData verifyOp) (fun _ _ => rfl)).to
      (ptNextAttempt_last _ _ _ Nat.one_pos)
    rw [exec_ptVerifyid_brings hb he (got.trans read) rfl ha]
    simp [verifyOp, verifyWaiting, ptError, ptDropData, State.withRx, ptGo, State.log, framed, hb, ErrClass.code]

/-- Settles O30: the one attempt is the last of the budget. -/
theorem verifyIdentityIsNotRetried : Obligations.VerifyIdentityIsNotRetried := by
  rintro s frame pt cr k b ms rest hb rfl hk he ha
  have cut : FailedVerify s.cfg ⟨writes .pt ((framed s.cfg s.cfg.verifyBytes).take k) ++ [.write .pt b false],
      .communicationFailure, crc16 s.cfg.poly s.cfg.crcInit s.cfg.verifyBytes, none⟩ := ⟨rfl, k, b, hk, rfl, rfl, rfl⟩
  rw [exec, execPtVerifyid, issue_free _ hb,
    ptRun_exhausted (as := []) (failsBy_verify s.cfg) he (by simpa using cut) rfl (by simpa [framed] using ha)]
  simp [ptError, ptDropData, State.withRx, afterFailed, rxcrcAfter, ptSetCrc, framed, hb, ErrClass.code]

end Sys2Proof
end

section
/-! SUPPORT. CR operations as a whole: how one is issued and ends, a command as it is written, and the word it reads
(41_command_response.md R160 to R162). -/

namespace Sys2Proof

open Machine

@[simp] theorem opOk_cr (d : Data) (s : State) : opOk .cr d s =
    { s with cr := { s.cr with phase := .idle, ok := true, err := 0 }, busy := none, ret := some ⟨.cr, true, 0, d⟩ } := rfl

@[simp] theorem opError_cr (e : ErrClass) (s : State) : opError .cr e s =
    { s with
      cr := { s.cr with phase := .idle, ok := false, err := e.code }
      busy := none
      ret := some ⟨.cr, false, e.code, .none⟩ } := rfl

/-- A CR operation as it is issued: no byte and no word taken. -/
abbrev crIssued (k : CrKind) : CrOp := ⟨k, 0, [], false⟩

/-- The command bytes of an operation, each write accepted: what follows them comes next. -/
theorem brings_crStart (k : CrKind) (s : State) :
    Brings crAdvance (crStart k s) (writes .cr (crCommand s.cfg k))
      (crAfterTx (crIssued k) (s.log (writes .cr (crCommand s.cfg k)))) := brings_crCommand (crIssued k) s

/-- A word whose read fails after the bytes `took`: the operation ends. -/
theorem brings_crWordCut (op : CrOp) (s : State) {took : List Byte} (h : took.length < 2) :
    Brings crAdvance (crGo op (.rx 0) s) (reads .cr took ++ [.read .cr none])
      (crError .communicationFailure op (s.log (reads .cr took ++ [.read .cr none]))) := by
  match took, h with
  | [], _ => exact brings_crWordFail op 0 0 s
  | [b0], _ => exact brings_crWordFail op b0 1 s

section
variable {s : State} {k : CrKind} {ms rest : List EnvMove} {y : Sides} (hb : s.busy = none) (he : s.env = ms ++ rest)
include hb he

/-- An operation issued from a free host ends as its calls bring it to end. -/
theorem issue_crRun {t : State} {cs : List Call} (h : Brings crAdvance (crStart k s) cs t) (ht : t.callOutstanding = false)
    (ha : answered ms ⟨s.ptRx, s.crRx⟩ cs = some y) : issue s (crRun k) = .next { t.withRx y with env := rest } := by
  rw [issue_free _ hb, crRun_brings h ht he ha]

/-- An operation whose command byte `j` is not accepted. -/
theorem issue_crRun_writeFail {j : Nat} {b : Byte} (hj : (crCommand s.cfg k)[j]? = some b)
    (ha : answered ms ⟨s.ptRx, s.crRx⟩ (writes .cr ((crCommand s.cfg k).take j) ++ [.write .cr b false]) = some y) :
    issue s (crRun k) = .next { (crError .communicationFailure (crIssued k)
      (s.log (writes .cr ((crCommand s.cfg k).take j) ++ [.write .cr b false]))).withRx y with env := rest } :=
  issue_crRun hb he (brings_crCommandFail (crIssued k) s hj) (by cases k <;> rfl) ha

end

/-- Settles O31: the one write, accepted or not. -/
theorem writeCommand : Obligations.WriteCommand := by
  intro s type ok pt cr ms rest hb he ha
  cases ok with
  | true =>
    rw [exec, execCrWritecmd, issue_crRun hb he (brings_crStart (.cmd type) s) rfl ha]
    simp [crAfterTx, crCommand, writes, State.withRx, State.log, hb]
  | false =>
    rw [exec, execCrWritecmd, issue_crRun_writeFail (k := .cmd type) (j := 0) hb he rfl ha]
    simp [crError, crDropData, crCommand, writes, State.withRx, State.log, hb, ErrClass.code]

/-- Settles O32: the whole command, and the command cut at byte `k`. -/
theorem writeCommandWithParameter : Obligations.WriteCommandWithParameter := by
  intro s type param pt cr ms rest hb he
  refine ⟨fun ha => ?_, fun k b hk ha => ?_⟩
  · rw [exec, execCrWritecmdp, issue_crRun hb he (brings_crStart (.cmdParam type param) s) rfl ha]
    simp [crAfterTx, crCommand, hiByte, loByte, State.withRx, State.log, hb]
  · rw [exec, execCrWritecmdp, issue_crRun_writeFail (k := .cmdParam type param) hb he hk ha]
    simp [crError, crDropData, crCommand, hiByte, loByte, State.withRx, State.log, hb, ErrClass.code]

/-- A word as R162 has it: `256 * b0 + b1` in two's complement. -/
theorem word16_toInt (b0 b1 : Byte) :
    (word16 b0 b1).toInt = (256 * b0.toNat + b1.toNat : Int) - (if 128 ≤ b0.toNat then 65536 else 0) := by
  have hn : (word16 b0 b1).toNat = 256 * b0.toNat + b1.toNat := by
    rw [word16, BitVec.toNat_append, Nat.shiftLeft_eq_mul_pow, ← Nat.mul_comm (2 ^ 8),
      ← Nat.two_pow_add_eq_or_of_lt b1.isLt]
  have h1 := b1.isLt
  rw [BitVec.toInt_eq_toNat_cond, hn]
  split <;> split <;> omega

/-- Settles O33: both bytes of the word, and a read that fails before the second. -/
theorem readWord : Obligations.ReadWord := by
  intro s pt cr ms rest hb he
  refine ⟨fun b0 b1 ha => ⟨word16 b0 b1, word16_toInt b0 b1, ?_⟩, fun took hl ha => ?_⟩
  · rw [exec, execCrReadword, issue_crRun (k := .word) hb he (brings_crWord (crIssued .word) b0 b1 s) rfl ha]
    simp [crUse, State.withRx, hb]
  · rw [exec, execCrReadword, issue_crRun (k := .word) hb he (brings_crWordCut (crIssued .word) s hl) rfl ha]
    simp [crError, crDropData, State.withRx, State.log, hb, ErrClass.code]

end Sys2Proof
end

section
/-! SUPPORT. The two CR operations that deliver a list of words: CR.READWORDSN and CR.SCANRETR (41_command_response.md R163,
R166). -/

namespace Sys2Proof

open Machine

/-! ### CR.READWORDSN -/

/-- CR.READWORDSN uses a word as the next of its list. -/
theorem crUse_words {op : CrOp} {n : Nat} (hk : op.kind = .words n) (w : BitVec 16) (s : State) :
    crUse op w s = crNextWord { op with words := op.words ++ [w] } n s := by simp [crUse, hk]

/-- Settles O34: the words of the bytes, and the read that fails before the last of them. -/
theorem readWordsNDeliversWords : Obligations.ReadWordsNDeliversWords := by
  intro s n bytes pt cr ms rest hb he
  refine ⟨fun hl ha => ?_, fun hl ha => ?_⟩
  · have all := brings_crWords n.toNat bytes (crIssued (.words n.toNat)) s
      (fun _ w u hk _ _ => crUse_words hk w u) (by simpa using hl)
    have hn : bytes = [] ↔ n = 0 := by simp [← List.length_eq_zero_iff, hl, ← BitVec.toNat_inj]
    rw [exec, execCrReadwordsn, issue_crRun (k := .words n.toNat) hb he all rfl ha, words16_eq n.toNat bytes (by omega)]
    simp [crDeliver, State.withRx, hb, hn]
  · have cut := brings_crWordsFail n.toNat bytes (crIssued (.words n.toNat)) s
      (fun _ w u hk _ _ => crUse_words hk w u) (by simpa using hl)
    rw [exec, execCrReadwordsn, issue_crRun (k := .words n.toNat) hb he cut rfl ha, words16_eq _ bytes rfl]
    simp [crError, crDropData, State.withRx, hb, ErrClass.code]

/-! ### CR.SCANRETR -/

/-- CR.SCANRETR past its status uses a word as the next of its payload. -/
theorem crUse_payload {op : CrOp} {s : State} {c : Config} (hk : op.kind = .scan) (hr : op.statusRead = true) (hc : s.cfg = c)
    (w : BitVec 16) : crUse op w s = crNextWord { op with words := op.words ++ [w] } c.scanWords s := by
  simp [crUse, hk, hr, hc]

/-- CR.SCANRETR with its status word read. -/
def scanStatus (b0 b1 : Byte) (s : State) : State :=
  crGo { crIssued .scan with hi := b0 } (.rx 1) { s with
    cr := { s.cr with word := ⟨word16 b0 b1, .written⟩ }
    hist := s.hist ++ (writes .cr [s.cfg.retrieveCmd] ++ reads .cr [b0, b1]) }

/-- CR.SCANRETR as it goes on past its status. -/
def scanOp (hi : Byte) : CrOp := { crIssued .scan with hi := hi, statusRead := true }

/-- The command and the status word of CR.SCANRETR: what it does with the status comes next. -/
theorem brings_scanStatus (b0 b1 : Byte) (s : State) :
    Brings crAdvance (crStart .scan s) (writes .cr [s.cfg.retrieveCmd] ++ reads .cr [b0, b1])
      (if word16 b0 b1 = s.cfg.scanFail then crError .protocolFault (crIssued .scan) (scanStatus b0 b1 s)
        else crNextWord (scanOp b0) s.cfg.scanWords (scanStatus b0 b1 s)) := by
  refine ((brings_crStart .scan s).trans (brings_crWord (crIssued .scan) b0 b1 _)).to ?_
  rw [scanStatus, ← List.append_assoc]
  rfl

/-- The word register with the last word of `bytes`, or as it was where the bytes hold no whole word. -/
theorem held_getLastD {r : Held (BitVec 16)} (hr : r.held = .written) {bytes : List Byte} {p : Prop} [Decidable p]
    (hp : p ↔ bytes.length < 2) :
    (if p then r else ⟨(words16 bytes).getLastD 0, .written⟩) = ⟨(words16 bytes).getLastD r.val, .written⟩ := by
  obtain ⟨w, _⟩ := r
  subst hr
  match bytes with
  | [] => exact if_pos (hp.2 (by simp))
  | [_] => exact if_pos (hp.2 (by simp))
  | b0 :: b1 :: bs => rw [if_neg (by simp [hp]), words16, List.getLastD_cons, List.getLastD_cons]

/-- Settles O38: the status word is the sentinel. -/
theorem scanRetrievalRefusesSentinel : Obligations.ScanRetrievalRefusesSentinel := by
  intro s b0 b1 pt cr ms rest hb hw he ha
  have hw' : word16 b0 b1 = s.cfg.scanFail := hw
  rw [exec, execCrScanretr, issue_crRun hb he ((brings_scanStatus b0 b1 s).to (if_pos hw')) rfl ha]
  simp [crError, crDropData, scanStatus, crGo, State.withRx, hb, hw', ErrClass.code]

/-- Settles O39: the payload after a status that is no sentinel, the read that fails before its end, and the failing write. -/
theorem scanRetrievalDeliversPayload : Obligations.ScanRetrievalDeliversPayload := by
  intro s pt cr ms rest hb he
  refine ⟨fun b0 b1 bytes hw hl ha => ?_, fun bytes hl hw ha => ?_, fun ha => ?_⟩
  · have all := ((brings_scanStatus b0 b1 s).to (if_neg hw)).trans
      (brings_crWords s.cfg.scanWords bytes (scanOp b0) (scanStatus b0 b1 s)
        (fun _ w _ hk hr hc => crUse_payload hk hr hc w) (by simpa [scanOp] using hl))
    rw [held_getLastD rfl (by rw [← List.length_eq_zero_iff]; omega)] at all
    rw [exec, execCrScanretr, issue_crRun hb he all rfl (by simpa [reads] using ha),
      words16_eq s.cfg.scanWords bytes (by omega)]
    simp [crDeliver, scanOp, scanStatus, crGo, State.withRx, hb, reads, word16]
  · by_cases h2 : bytes.length < 2
    · have cut := (brings_crStart .scan s).trans (brings_crWordCut (crIssued .scan) _ h2)
      rw [exec, execCrScanretr, issue_crRun hb he cut rfl (by simpa [crCommand] using ha), if_pos h2]
      simp [crError, crDropData, crCommand, State.withRx, State.log, hb, ErrClass.code]
    · match bytes, h2 with
      | [], h2 | [_], h2 => exact absurd (by simp) h2
      | b0 :: b1 :: tail, h2 =>
        have cut := ((brings_scanStatus b0 b1 s).to (if_neg (hw b0 b1 tail rfl))).trans
          (brings_crWordsFail s.cfg.scanWords tail (scanOp b0) (scanStatus b0 b1 s)
            (fun _ w _ hk hr hc => crUse_payload hk hr hc w) (by simp [scanOp] at hl ⊢; omega))
        rw [held_getLastD rfl Iff.rfl] at cut
        rw [exec, execCrScanretr, issue_crRun hb he cut rfl (by simpa [reads] using ha), if_neg h2,
          ← words16_eq _ (b0 :: b1 :: tail) rfl, words16, List.getLastD_cons]
        simp [crError, crDropData, scanOp, scanStatus, crGo, State.withRx, hb, ErrClass.code, reads]
  · rw [exec, execCrScanretr, issue_crRun_writeFail (k := .scan) (j := 0) hb he rfl ha]
    simp [crError, crDropData, crCommand, writes, State.withRx, State.log, hb, ErrClass.code]

end Sys2Proof
end

section
/-! SUPPORT. The two CR operations that test for a word before they read it: CR.IDCHECK and CR.ISTASKDONE
(41_command_response.md R164, R165). -/

namespace Sys2Proof

open Machine

/-! ### CR.IDCHECK -/

/-- CR.IDCHECK after its availability test. -/
def idTested (n : Nat) (s : State) : State :=
  s.log (writes .cr [s.cfg.idCmd] ++ [.delay s.cfg.idWaitMs, .avail .cr n])

/-- The command, the wait and the availability test of CR.IDCHECK. -/
theorem brings_idCheckTest (n : Nat) (s : State) :
    Brings crAdvance (crStart .idCheck s) (writes .cr [s.cfg.idCmd] ++ [.avail .cr n])
      (if n < 2 then crError .deviceUnavailable (crIssued .idCheck) (idTested n s)
        else crGo (crIssued .idCheck) (.rx 0) (idTested n s)) := by
  refine ((brings_crStart .idCheck s).trans (brings_crIdTest _)).to ?_
  simp [idTested, State.log, crCommand]

/-- Settles O35: the test finds the word or not, then the word is read or its read fails; and the failing write. -/
theorem identityCheck : Obligations.IdentityCheck := by
  intro s n pt cr ms rest hb he
  refine ⟨fun b0 b1 hn ha => ?_, fun took hl hn ha => ?_, fun hn ha => ?_, fun ha => ?_⟩
  · have whole := ((brings_idCheckTest n s).to (if_neg hn.not_gt)).trans (brings_crWord (crIssued .idCheck) b0 b1 _)
    rw [exec, execCrIdcheck, issue_crRun hb he whole rfl (by simpa using ha)]
    simp [crUse, idTested, State.withRx, State.log, hb, word16, beq_eq_decide]
  · have cut := ((brings_idCheckTest n s).to (if_neg hn.not_gt)).trans (brings_crWordCut (crIssued .idCheck) _ hl)
    rw [exec, execCrIdcheck, issue_crRun hb he cut rfl (by simpa using ha)]
    simp [crError, crDropData, idTested, State.withRx, State.log, hb, ErrClass.code]
  · rw [exec, execCrIdcheck, issue_crRun hb he ((brings_idCheckTest n s).to (if_pos hn)) rfl ha]
    simp [crError, crDropData, idTested, State.withRx, State.log, hb, ErrClass.code]
  · rw [exec, execCrIdcheck, issue_crRun_writeFail (k := .idCheck) (j := 0) hb he rfl ha]
    simp [crError, crDropData, crCommand, writes, State.withRx, State.log, hb, ErrClass.code]

/-! ### CR.ISTASKDONE -/

theorem log_nil (s : State) : s.log [] = s := by simp [State.log]

/-- The availability tests of CR.ISTASKDONE that find less than a word, none without `wait`. -/
theorem brings_taskDonePolls {wait : Bool} {polls : List Nat} (hl : ∀ k ∈ polls, k < 2) (hw : wait = false → polls = [])
    (s : State) : Brings crAdvance (crStart (.taskDone wait) s) (polls.map (Call.avail .cr))
      (crGo (crIssued (.taskDone wait)) .poll
        (s.log (polls.flatMap fun k => [.avail .cr k, .delay s.cfg.pollMs]))) := by
  cases wait with
  | true => exact brings_crPolls rfl polls s hl
  | false =>
    rw [hw rfl, List.flatMap_nil, log_nil]
    exact Brings.refl

/-- The test of CR.ISTASKDONE, without `wait`, that finds less than a word: not done (R165). -/
theorem brings_taskNotDone {n : Nat} (s : State) (hn : n < 2) :
    Brings crAdvance (crStart (.taskDone false) s) [.avail .cr n]
      (opOk .cr (.bool false) { s.log [.avail .cr n] with cr := { s.cr with done := false } }) := by
  refine brings_avail rfl (fun v x hx => ?_)
  have h2 : ¬ 2 ≤ x.cr.length := by rw [show x.cr.length = n from hx]; omega
  subst hx
  simp [crStart, crToTx, crCommand, crAfterTx, crAdvance, crCall, crPollTest, crGo, State.log, State.withRx, h2, Sides.get]

/-- Settles O36: the polls, then the test that finds the word, which is read or its read fails; and the answer at once. -/
theorem isTaskDoneAnswers : Obligations.IsTaskDoneAnswers := by
  intro s wait polls n pt cr ms rest hb he hl hw
  have polled := brings_taskDonePolls hl hw s
  refine ⟨fun b0 b1 hn ha => ?_, fun took ht hn ha => ?_, fun hf hn ha => ?_⟩
  · have whole := (polled.trans (brings_crPollFound _ hn)).trans (brings_crWord (crIssued (.taskDone wait)) b0 b1 _)
    rw [exec, execCrIstaskdone, issue_crRun hb he whole rfl (by simpa using ha)]
    simp [crUse, State.withRx, State.log, hb, word16]
  · have cut := (polled.trans (brings_crPollFound _ hn)).trans (brings_crWordCut (crIssued (.taskDone wait)) _ ht)
    rw [exec, execCrIstaskdone, issue_crRun hb he cut rfl (by simpa using ha)]
    simp [crError, crDropData, State.withRx, State.log, hb, ErrClass.code]
  · subst hf
    rw [exec, execCrIstaskdone, issue_crRun hb he (brings_taskNotDone s hn) rfl ha]
    simp [State.withRx, State.log, hb]

/-- Settles O37: the polls use every answer, and the operation still polls. -/
theorem waitingPollNeverReturnsAlone : Obligations.WaitingPollNeverReturnsAlone := by
  intro s polls pt cr hb hl ha
  have polled := (brings_taskDonePolls (wait := true) hl nofun s).pending ha
  rw [exec, execCrIstaskdone, issue_free _ hb, crRun, ← withRx_self (crStart (.taskDone true) s)]
  exact congrArg Host.Outcome.next polled

end Sys2Proof
end

section
/-! SUPPORT. The operations of SP as a whole: what each comes to from a free host, and the waiting consumer at the host's turn
(42_sampling_pipeline.md R182 to R186). -/

namespace Sys2Proof

open Machine

@[simp] theorem opOk_sp (d : Data) (s : State) : opOk .sp d s =
    { s with sp := { s.sp with ok := true, err := 0 }, busy := none, ret := some ⟨.sp, true, 0, d⟩ } := rfl

@[simp] theorem opError_sp (e : ErrClass) (s : State) : opError .sp e s =
    { s with sp := { s.sp with ok := false, err := e.code }, busy := none, ret := some ⟨.sp, false, e.code, .none⟩ } := rfl

variable {s : State}

/-! ### SP.ACTIVATE and SP.DEACTIVATE -/

theorem exec_spActivate {m : Mode} (hb : s.busy = none) (hm : usesOffset m = true → s.sp.offsetValid = true) :
    exec (.spActivate m) s = .next (opOk .sp .none { s with sp := spActivated m (spModeInit s.cfg m s.sp) }) := by
  have accepted : ¬ (usesOffset m && !s.sp.offsetValid) = true := by simpa using hm
  rw [exec, execSpActivate, issue_free _ hb, if_neg accepted]

theorem exec_spActivate_rejected {m : Mode} (hb : s.busy = none) (hm : usesOffset m = true) (hv : s.sp.offsetValid = false) :
    exec (.spActivate m) s = .next (opError .sp .invalidStateError s) := by
  rw [exec, execSpActivate, issue_free _ hb, if_pos (by simp [hm, hv])]

/-- Settles O41: the modes that need no offset, a valid offset, and neither. -/
theorem activation : Obligations.Activation := by
  intro s m hb
  refine ⟨fun h => ?_, fun h hv => ?_⟩
  · have hm : usesOffset m = true → s.sp.offsetValid = true := by
      rcases h with rfl | rfl | h
      · exact nofun
      · exact nofun
      · exact fun _ => h
    rw [exec_spActivate hb hm]
    cases m <;> simp [spActivated, spModeInit, hb]
  · have hm : usesOffset m = true := by rcases h with rfl | rfl | rfl <;> rfl
    rw [exec_spActivate_rejected hb hm hv]
    simp [ErrClass.code, hb]

theorem exec_spDeactivate (hb : s.busy = none) :
    exec .spDeactivate s = .next (opOk .sp .none { s with sp := { s.sp with active := false } }) := by
  rw [exec, execSpDeactivate, issue_free _ hb]

theorem exec_spPop (hb : s.busy = none) : exec .spPop s = .next (spTake { s with busy := some .pop }) := by
  rw [exec, execSpPop, issue_free _ hb]

theorem spIrq_inactive (ts : BitVec 64) (raw : List (BitVec 32)) (ha : s.sp.active = false) : spIrq ts raw s = .next s := by
  simp [spIrq, ha]

/-- Settles O42: the second deactivation writes what the first wrote, and the queue is as it was. -/
theorem deactivation : Obligations.Deactivation := by
  refine ⟨fun _ _ => rfl, fun s hb => ?_⟩
  obtain ⟨t, ht⟩ : ∃ t, t = { s with
    sp := { s.sp with active := false, ok := true, err := 0 }, ret := some ⟨.sp, true, 0, .none⟩ } := ⟨_, rfl⟩
  have hbt : t.busy = none := by rw [ht, ← hb]
  refine ⟨t, ht, ?_, ?_, fun e q hq => ?_, fun ts raw => spIrq_inactive ts raw (by rw [ht])⟩
  · simp [exec_spDeactivate hb, ht, hb]
  · rw [exec_spDeactivate hbt]
    simp [ht, hb]
  · have hqt : t.sp.q = e :: q := by rw [ht, ← hq]
    rw [exec_spPop hbt, spTake_of_cons (s := { t with busy := some .pop }) hqt]
    simp [ht, hb]

/-! ### SP.CALEND -/

theorem exec_spCalend (hb : s.busy = none) (ha : s.sp.active = true) (hm : s.sp.mode = .cal) :
    exec .spCalend s = .next (spCalEnd s) := by
  rw [exec, execSpCalend, issue_free _ hb, if_pos (by simp [ha, hm])]

theorem exec_spCalend_rejected (hb : s.busy = none) (h : s.sp.active = false ∨ s.sp.mode ≠ .cal) :
    exec .spCalend s = .next (opError .sp .invalidStateError s) := by
  have rejected : ¬ (s.sp.active && s.sp.mode == .cal) = true := by
    rcases h with h | h <;> simp [h]
  rw [exec, execSpCalend, issue_free _ hb, if_neg rejected]

theorem spCalEnd_of_discarded (h : s.sp.count.toNat ≤ s.cfg.discard) : spCalEnd s = opError .sp .invalidStateError
    { s with sp := { s.sp with active := false, offset := { s.sp.offset with held := .failed } } } := if_pos h

theorem spCalEnd_of_accumulated (h : s.cfg.discard < s.sp.count.toNat) : spCalEnd s = opOk .sp .none
    { s with sp := { s.sp with
      active := false, offset := ⟨offsets s.cfg s.sp.sum (s.sp.count.toNat - s.cfg.discard), .written⟩
      offsetValid := true } } := if_neg h.not_ge

@[simp] theorem length_offsets (c : Config) (sum : List (BitVec 64)) (n : Nat) : (offsets c sum n).length = c.nAxes := by
  simp [offsets]

theorem getElem?_offsets {c : Config} (sum : List (BitVec 64)) (n : Nat) {a : Nat} (ha : a < c.nAxes) :
    (offsets c sum n)[a]? = some (fDiv c.flen (fOfInt c.flen (sum.getD a 0).toInt) (fOfInt c.flen n)) := by
  simp [offsets, ha]

/-- Settles O43: not calibrating, every sample discarded, and some accumulated. -/
theorem calibrationEnd : Obligations.CalibrationEnd := by
  refine fun s hb => ⟨fun h => ?_, fun ha hm => ⟨fun h => ?_, fun h => ?_⟩⟩
  · rw [exec_spCalend_rejected hb h]
    simp [ErrClass.code, hb]
  · rw [exec_spCalend hb ha hm, spCalEnd_of_discarded h]
    simp [ErrClass.code, hb]
  · refine ⟨_, length_offsets _ _ _, fun a => getElem?_offsets s.sp.sum _, ?_⟩
    rw [exec_spCalend hb ha hm, spCalEnd_of_accumulated h]
    simp [hb]

/-! ### SP.POP and SP.POPT -/

theorem exec_spPopt (ms : BitVec 32) (hb : s.busy = none) :
    exec (.spPopt ms) s = .next (spPoptRun { s with busy := some (.popt ms) }) := by
  rw [exec, execSpPopt, issue_free _ hb]

/-- An element that is there is returned whatever the environment does (93 U19). -/
theorem spPoptRun_of_cons {e : QElem} {rest : List QElem} (h : s.sp.q = e :: rest) :
    spPoptRun s = opOk .sp (.elem e) { s with sp := { s.sp with q := rest } } := by
  rw [spPoptRun, spTake_of_cons h, drive_stopped _ _ _ rfl]
  rfl

theorem spPoptRun_of_nil (h : s.sp.q = []) : spPoptRun s = drive spAdvance s.env s := by
  rw [spPoptRun, spTake_of_nil h]

/-- The environment lets the time of SP.POPT pass (R186). -/
theorem brings_spPoptTimeout {ms : BitVec 32} (hb : s.busy = some (.popt ms)) :
    Brings spAdvance s [.popTimeout ms] (opError .sp .deviceUnavailable (s.log [.popTimeout ms])) :=
  brings_popTimeout (callOutstanding_popt hb) (fun x => by simp [spAdvance, hb, State.withRx, State.log])
    fun x => spAdvance_proceed _

/-- Settles O44: an element that is there is taken by both consumers; the environment's answer ends a wait on an empty queue. -/
theorem popReturnsOldest : Obligations.PopReturnsOldest := by
  refine fun s ms hb => ⟨fun e q hq i hi => ?_, fun moves rest pt cr hq he ha => ?_⟩
  · rcases hi with rfl | rfl
    · rw [exec_spPop hb, spTake_of_cons (s := { s with busy := some .pop }) hq]
      simp [hb]
    · rw [exec_spPopt ms hb, spPoptRun_of_cons (s := { s with busy := some (.popt ms) }) hq]
      simp [hb]
  · have timeout := (brings_spPoptTimeout (s := { s with busy := some (.popt ms) }) rfl).finish rfl ha rest
    rw [← he] at timeout
    rw [exec_spPopt ms hb, spPoptRun_of_nil (by exact hq)]
    refine (congrArg Host.Outcome.next timeout).trans ?_
    simp [State.withRx, State.log, hb, ErrClass.code]

/-- At its turn the host blocked in SP.POP or SP.POPT takes the element that is there. -/
theorem resume_take {e : QElem} {q : List QElem} (hb : s.busy = some .pop ∨ ∃ ms, s.busy = some (.popt ms))
    (hq : s.sp.q = e :: q) : resume s = opOk .sp (.elem e) { s with sp := { s.sp with q := q } } := by
  rcases hb with hb | ⟨ms, hb⟩
  · rw [resume, hb]
    exact spTake_of_cons hq
  · rw [resume_of_outstanding (callOutstanding_popt hb), goOn, hb]
    exact spPoptRun_of_cons hq

/-- Settles O45: both consumers stay on an empty queue, and take a pushed element at the host's next turn. -/
theorem popWaitsForAPush : Obligations.PopWaitsForAPush := by
  refine ⟨fun s hb hq => ⟨?_, fun ms n he => ?_⟩, fun u e q es hc hb ht hq => ?_⟩
  · rw [exec_spPop hb, spTake_of_nil (by exact hq)]
  · rw [exec_spPopt ms hb, spPoptRun_of_nil (by exact hq), he]
    exact congrArg Host.Outcome.next (drive_proceeds (callOutstanding_popt rfl) (spAdvance_proceed _) n)
  · obtain ⟨p, hp⟩ : ∃ p, u.busy = some p := hb.elim (⟨_, ·⟩) fun ⟨_, hp⟩ => ⟨_, hp⟩
    exact step_resume hc ht hp (resume_take (s := { u with sched := es }) hb hq)

end Sys2Proof
end

section
/-! SUPPORT. The interrupt, one equation for each mode of an active unit, and a row of interrupts that find no pop between them
(42_sampling_pipeline.md R187 to R196; 70_reset_and_hazards.md R301). -/

namespace Sys2Proof

open Machine

variable {s t : State} {ts : BitVec 64} {raw : List (BitVec 32)} {es : List Event}

/-- The interrupt at the head of the schedule is taken. -/
theorem step_irq (hc : legalConfig s.cfg = true) (hs : s.sched = .irq ts raw :: es) :
    step s = spIrq ts raw { s with sched := es } := step_event hc hs

/-- Settles O46: the handler of an inactive unit returns at once. -/
theorem inactiveHandlerIgnores : Obligations.InactiveHandlerIgnores := by
  intro s ts raw es hc hs ha
  rw [step_irq hc hs, spIrq_inactive ts raw (by exact ha)]

theorem spIrq_active (ts : BitVec 64) (raw : List (BitVec 32)) (ha : s.sp.active = true) :
    spIrq ts raw s = spHandle ts (busVector s.cfg raw) (s.log [.busRead (busVector s.cfg raw)]) := if_pos ha

/-! ### Mode Heading -/

theorem spIrq_heading (ts : BitVec 64) (raw : List (BitVec 32)) (ha : s.sp.active = true) (hm : s.sp.mode = .heading) :
    spIrq ts raw s = .next (spIntegrate (busVector s.cfg raw) (s.log [.busRead (busVector s.cfg raw)])) := by
  rw [spIrq_active ts raw ha, spHandle, log_sp, hm]

/-- Settles O48: the integrated angle, pushed to a queue with room and dropped at a full one. -/
theorem headingMode : Obligations.HeadingMode := by
  rintro s ts raw _ _ ha hm rfl rfl
  rw [spIrq_heading ts raw ha hm, spIntegrate]
  refine ⟨fun h => ?_, fun h => ?_⟩
  · rw [qPush_of_room (by exact h)]
    rfl
  · rw [qPush_of_full (by exact h)]
    simp [State.log, correct, period]

/-! ### Mode Cal -/

theorem spIrq_cal (ts : BitVec 64) (raw : List (BitVec 32)) (ha : s.sp.active = true) (hm : s.sp.mode = .cal) :
    spIrq ts raw s = spCalibrate (busVector s.cfg raw) (s.log [.busRead (busVector s.cfg raw)]) := by
  rw [spIrq_active ts raw ha, spHandle, log_sp, hm]

/-- A reading within the counter's range is counted, and after the first DISCARD accumulated. -/
theorem spIrq_cal_of_lt (ts : BitVec 64) (raw : List (BitVec 32)) (ha : s.sp.active = true) (hm : s.sp.mode = .cal)
    (h : s.sp.count.toNat + 1 < 2 ^ 32) : spIrq ts raw s = .next { s with
      sp := { s.sp with
        sum := if s.cfg.discard ≤ s.sp.count.toNat then accumulate s.cfg s.sp.sum (busVector s.cfg raw) else s.sp.sum
        count := s.sp.count + 1 }
      hist := s.hist ++ [.busRead (busVector s.cfg raw)] } :=
  (spIrq_cal ts raw ha hm).trans (if_pos h)

theorem spIrq_cal_overflow (ts : BitVec 64) (raw : List (BitVec 32)) (ha : s.sp.active = true) (hm : s.sp.mode = .cal)
    (h : 2 ^ 32 ≤ s.sp.count.toNat + 1) : spIrq ts raw s = .fault (.counterOverflow .spCount) :=
  (spIrq_cal ts raw ha hm).trans (if_neg h.not_gt)

theorem getElem?_accumulate {c : Config} (sum : List (BitVec 64)) (v : List (BitVec 32)) {a : Nat} (ha : a < c.nAxes) :
    (accumulate c sum v)[a]? = some (sum.getD a 0 + (v.getD a 0).signExtend 64) := by
  simp [accumulate, ha]

/-- Settles O49: a count that goes on, its reading discarded or accumulated, and the counter's end. -/
theorem calibrationMode : Obligations.CalibrationMode := by
  refine fun s ts raw ha hm => ⟨fun h => ⟨_, fun hd => ?_, fun hd => ?_, spIrq_cal_of_lt ts raw ha hm (by omega)⟩,
    fun h => spIrq_cal_overflow ts raw ha hm (by omega)⟩
  · rw [if_neg hd.not_ge]
  · rw [if_pos hd]
    exact ⟨length_accumulate _ _ _, fun a => getElem?_accumulate _ _⟩

/-! ### Modes Raw, Offset and DeadZone -/

/-- The value that the handler samples of a bus answer in the three modes that push samples (R188, R190, R191). -/
inductive Sampled (s : State) (raw : List (BitVec 32)) : SampleValue → Prop where
  | raw (hm : s.sp.mode = .raw) : Sampled s raw (.raw (busVector s.cfg raw))
  | offset (hm : s.sp.mode = .offset) : Sampled s raw (.float (correctAll s.cfg s.sp.offset.val (busVector s.cfg raw)))
  | deadZone (hm : s.sp.mode = .deadZone) :
    Sampled s raw (.float ((correctAll s.cfg s.sp.offset.val (busVector s.cfg raw)).map (clamp s.cfg)))

theorem sampled_of_mode (raw : List (BitVec 32)) (hm : s.sp.mode = .raw ∨ s.sp.mode = .offset ∨ s.sp.mode = .deadZone) :
    ∃ value, Sampled s raw value := by
  rcases hm with hm | hm | hm
  · exact ⟨_, .raw hm⟩
  · exact ⟨_, .offset hm⟩
  · exact ⟨_, .deadZone hm⟩

theorem spIrq_sampled (ts : BitVec 64) {value : SampleValue} (ha : s.sp.active = true) (hv : Sampled s raw value) :
    spIrq ts raw s = .next (spPushSample ts value (s.log [.busRead (busVector s.cfg raw)])) := by
  rw [spIrq_active ts raw ha, spHandle, log_sp]
  cases hv with
  | raw hm | offset hm | deadZone hm => rw [hm, log_cfg]

theorem spIrq_sampled_room (ts : BitVec 64) {value : SampleValue} (ha : s.sp.active = true) (hv : Sampled s raw value)
    (h : s.sp.q.length < s.cfg.qCap) : spIrq ts raw s = .next { s with
      sp := { s.sp with lastTs := ts, q := s.sp.q ++ [.sample value (ts - s.sp.lastTs)] }
      hist := s.hist ++ [.busRead (busVector s.cfg raw)] } := by
  rw [spIrq_sampled ts ha hv, spPushSample, qPush_of_room (by exact h)]
  rfl

theorem spIrq_sampled_full (ts : BitVec 64) {value : SampleValue} (ha : s.sp.active = true) (hv : Sampled s raw value)
    (h : s.cfg.qCap ≤ s.sp.q.length) : spIrq ts raw s = .next { s with
      sp := { s.sp with lastTs := ts, ovr := true }
      hist := s.hist ++ [.busRead (busVector s.cfg raw), .emit .queueOverrun] } := by
  rw [spIrq_sampled ts ha hv, spPushSample, qPush_of_full (by exact h)]
  simp [State.log]

theorem getElem?_busVector {c : Config} (raw : List (BitVec 32)) {a : Nat} (ha : a < c.nAxes) :
    (busVector c raw)[a]? = some (rawNorm c.raww (raw.getD a 0)) := by
  simp [busVector, ha]

/-- A reading of 16 bits stands for its two's complement value. -/
theorem rawNorm_w16_toInt (v : BitVec 32) :
    (rawNorm .w16 v).toInt = (v.toNat % 65536 : Int) - if 32768 ≤ v.toNat % 65536 then 65536 else 0 := by
  rw [rawNorm, BitVec.toInt_signExtend_of_le (by decide), BitVec.toInt_eq_toNat_cond]
  simp only [BitVec.extractLsb'_toNat, Nat.shiftRight_zero]
  split <;> split <;> omega

/-! ### A row of interrupts -/

/-- What a row of interrupts in a sampling mode makes of `s`: `new` are the elements queued. -/
structure RowTaken (s : State) (irqs : List (BitVec 64 × List (BitVec 32))) (t : State) (new : List QElem) : Prop where
  q : t.sp.q = s.sp.q ++ new
  length : new.length = min irqs.length (s.cfg.qCap - s.sp.q.length)
  ovr : t.sp.ovr = (s.sp.ovr || decide (s.cfg.qCap - s.sp.q.length < irqs.length))
  lastTs : t.sp.lastTs = (irqs.map Prod.fst).getLastD s.sp.lastTs
  deltas : (new.map deltaOf).sum = ((irqs.take new.length).map Prod.fst).getLastD s.sp.lastTs - s.sp.lastTs

theorem rowTaken_nil (s : State) : RowTaken s [] s [] where
  q := (List.append_nil _).symm
  length := (Nat.zero_min _).symm
  ovr := by simp
  lastTs := rfl
  deltas := (sub_self _).symm

variable {u : State} {irqs : List (BitVec 64 × List (BitVec 32))} {new : List QElem}

/-- A sample that fits, and the row after it. -/
theorem RowTaken.cons_room {value : SampleValue} (h : RowTaken u irqs t new) (hr : s.sp.q.length < s.cfg.qCap)
    (hc : u.cfg = s.cfg) (hu : u.sp = { s.sp with lastTs := ts, q := s.sp.q ++ [.sample value (ts - s.sp.lastTs)] }) :
    RowTaken s ((ts, raw) :: irqs) t (.sample value (ts - s.sp.lastTs) :: new) where
  q := by rw [h.q, hu, List.append_assoc, List.singleton_append]
  length := by
    have hl := h.length
    rw [hu, hc, List.length_append, List.length_singleton] at hl
    rw [List.length_cons, List.length_cons, hl]
    omega
  ovr := by
    rw [h.ovr, hu, hc, List.length_append, List.length_singleton, List.length_cons]
    exact congrArg _ (decide_eq_decide.mpr (by omega))
  lastTs := by rw [h.lastTs, hu, List.map_cons, List.getLastD_cons]
  deltas := by
    rw [List.map_cons, List.sum_cons, h.deltas, hu, List.length_cons, List.take_succ_cons, List.map_cons, List.getLastD_cons,
      deltaOf]
    exact sub_add_sub_cancel' ..

/-- A sample dropped at a full queue, and the row after it, of which none fits. -/
theorem RowTaken.cons_full (h : RowTaken u irqs t new) (hf : s.cfg.qCap ≤ s.sp.q.length) (hc : u.cfg = s.cfg)
    (hu : u.sp = { s.sp with lastTs := ts, ovr := true }) : RowTaken s ((ts, raw) :: irqs) t new := by
  have room : s.cfg.qCap - s.sp.q.length = 0 := Nat.sub_eq_zero_of_le hf
  have none : new = [] := List.eq_nil_of_length_eq_zero (by rw [h.length, hu, hc, room, Nat.min_zero])
  subst none
  exact {
    q := by rw [h.q, hu]
    length := by rw [room, Nat.min_zero, List.length_nil]
    ovr := by rw [h.ovr, hu, room]; simp
    lastTs := by rw [h.lastTs, hu, List.map_cons, List.getLastD_cons]
    deltas := (sub_self _).symm }

/-- The unit is active in a mode that pushes samples (R188, R190, R191). -/
abbrev Sampling (s : State) : Prop :=
  s.sp.active = true ∧ (s.sp.mode = .raw ∨ s.sp.mode = .offset ∨ s.sp.mode = .deadZone)

/-- The first interrupt of a row: what it leaves samples on, and the rest of the row is a row from there. -/
theorem step_row (irqs : List (BitVec 64 × List (BitVec 32))) (hc : legalConfig s.cfg = true) (hm : Sampling s)
    (hs : s.sched = .irq ts raw :: es) : ∃ u, step s = .next u ∧ u.cfg = s.cfg ∧ u.sched = es ∧ Sampling u ∧
      ∀ t new, RowTaken u irqs t new → ∃ new', RowTaken s ((ts, raw) :: irqs) t new' := by
  obtain ⟨ha, hm⟩ := hm
  obtain ⟨value, hv⟩ := sampled_of_mode (s := { s with sched := es }) raw hm
  by_cases hr : s.sp.q.length < s.cfg.qCap
  · exact ⟨_, (step_irq hc hs).trans (spIrq_sampled_room ts ha hv hr), rfl, rfl, ⟨ha, hm⟩,
      fun t new row => ⟨_, row.cons_room hr rfl rfl⟩⟩
  · have hf := Nat.not_lt.mp hr
    exact ⟨_, (step_irq hc hs).trans (spIrq_sampled_full ts ha hv hf), rfl, rfl, ⟨ha, hm⟩,
      fun t new row => ⟨_, row.cons_full hf rfl rfl⟩⟩

/-- A row of interrupts with no pop between them. -/
theorem run_row (irqs : List (BitVec 64 × List (BitVec 32))) (es : List Event) (s : State) (hc : legalConfig s.cfg = true)
    (hm : Sampling s) (hs : s.sched = irqs.map (fun i => .irq i.1 i.2) ++ es) :
    ∃ t new, Host.Core.run core irqs.length s = .next t ∧ t.sched = es ∧ RowTaken s irqs t new := by
  induction irqs generalizing s with
  | nil =>
    obtain rfl : s.sched = es := hs
    exact ⟨s, [], rfl, rfl, rowTaken_nil s⟩
  | cons i irqs ih =>
    obtain ⟨u, hu, uc, us, um, cons⟩ := step_row irqs hc hm hs
    obtain ⟨t, new, hrun, ht, row⟩ := ih u (uc ▸ hc) um us
    obtain ⟨new', row'⟩ := cons t new row
    exact ⟨t, new', (run_next hu _).trans hrun, ht, row'⟩

/-- Settles O47: the bus answer, one sample that fits or is dropped, and by induction a row of them. -/
theorem samplingModes : Obligations.SamplingModes := by
  refine ⟨fun c raw => ⟨length_busVector c raw, fun a ha => ⟨_, getElem?_busVector raw ha, fun hw => ?_, fun hw => ?_⟩⟩,
    fun s ts raw value ha hv => ?_, fun s irqs es hc ha hm hs => ?_⟩
  · rw [hw, rawNorm]
  · rw [hw, rawNorm_w16_toInt]
  · have sampled : Sampled s raw value := by
      rcases hv with ⟨hm, rfl⟩ | ⟨hm, rfl⟩ | ⟨hm, rfl⟩
      · exact .raw hm
      · exact .offset hm
      · rw [← Function.comp_def (clamp s.cfg), ← List.map_map]
        exact .deadZone hm
    exact ⟨spIrq_sampled_room ts ha sampled, spIrq_sampled_full ts ha sampled⟩
  · obtain ⟨t, new, hrun, ht, row⟩ := run_row irqs es s hc ⟨ha, hm⟩ hs
    exact ⟨t, new, hrun, ht, row.q, row.length, row.ovr, row.lastTs, List.sum_eq_foldl.symm.trans row.deltas⟩

end Sys2Proof
end

section
/-! SUPPORT. The order of the integers that are converted to floats, and the dead zone (42_sampling_pipeline.md R194). -/

namespace Sys2Proof.Machine

/-! ### Conversion keeps the order -/

theorem log2_mul_two_pow {n : Nat} (h : n ≠ 0) (k : Nat) : Nat.log2 (n * 2 ^ k) = Nat.log2 n + k := by
  induction k with
  | zero => rw [Nat.pow_zero, Nat.mul_one, Nat.add_zero]
  | succ k ih =>
    rw [Nat.pow_succ, ← Nat.mul_assoc, Nat.mul_comm, Nat.log2_two_mul (Nat.mul_ne_zero h (Nat.two_pow_pos k).ne'), ih,
      Nat.add_assoc]

/-- The magnitude that an integer's absolute value is rounded to. -/
def magOf (fl : FLen) (n : Nat) : Nat := roundMag fl (n * 2 ^ fl.unitExp) 1

@[simp] theorem magOf_zero (fl : FLen) : magOf fl 0 = 0 := by
  cases fl <;> simp [magOf, roundMag, FLen.prec]

theorem magOf_exact (fl : FLen) {n : Nat} (h0 : 0 < n) (hn : n < 2 ^ fl.prec) :
    magOf fl n = (Nat.log2 n + fl.unitExp + 1 - fl.prec) * 2 ^ (fl.prec - 1) + n * 2 ^ (fl.prec - 1 - Nat.log2 n) :=
  roundMag_exact fl n h0 hn

/-- A magnitude is at least the least one of its binade, whether it is exact or rounded. -/
theorem magOf_ge (fl : FLen) {n : Nat} (h0 : 0 < n) :
    (Nat.log2 n + fl.unitExp + 2 - fl.prec) * 2 ^ (fl.prec - 1) ≤ magOf fl n := by
  have hp := FLen.prec_lt_unitExp fl
  have hl := log2_mul_two_pow h0.ne' fl.unitExp
  exact hl ▸ roundMag_ge fl _ (by omega) (Nat.mul_pos h0 (Nat.two_pow_pos _)).ne'

/-- An exact magnitude is below the least one of the next binade. -/
theorem magOf_lt (fl : FLen) {n : Nat} (h0 : 0 < n) (hn : n < 2 ^ fl.prec) :
    magOf fl n < (Nat.log2 n + fl.unitExp + 3 - fl.prec) * 2 ^ (fl.prec - 1) := by
  have hp := FLen.prec_lt_unitExp fl
  have hl : Nat.log2 n < fl.prec := (Nat.log2_lt h0.ne').2 hn
  have next : n * 2 ^ (fl.prec - 1 - Nat.log2 n) < 2 * 2 ^ (fl.prec - 1) := by
    calc n * 2 ^ (fl.prec - 1 - Nat.log2 n)
        < 2 ^ (Nat.log2 n + 1) * 2 ^ (fl.prec - 1 - Nat.log2 n) :=
          Nat.mul_lt_mul_of_pos_right Nat.lt_log2_self (Nat.two_pow_pos _)
      _ = 2 ^ (fl.prec - 1 + 1) := by rw [← Nat.pow_add]; congr 1; omega
      _ = 2 * 2 ^ (fl.prec - 1) := by rw [Nat.pow_succ, Nat.mul_comm]
  rw [magOf_exact fl h0 hn, show Nat.log2 n + fl.unitExp + 3 - fl.prec = (Nat.log2 n + fl.unitExp + 1 - fl.prec) + 2 by omega,
    Nat.add_mul]
  exact Nat.add_lt_add_left next _

/-- A number that is converted exactly lies below every larger one, rounded or not. -/
theorem magOf_lt_magOf (fl : FLen) {m n : Nat} (hm : m < 2 ^ fl.prec) (h : m < n) : magOf fl m < magOf fl n := by
  have hp := FLen.prec_lt_unitExp fl
  have hn0 : 0 < n := by omega
  obtain rfl | hm0 := m.eq_zero_or_pos
  · have least : 0 < (Nat.log2 n + fl.unitExp + 2 - fl.prec) * 2 ^ (fl.prec - 1) := Nat.mul_pos (by omega) (Nat.two_pow_pos _)
    rw [magOf_zero]
    exact least.trans_le (magOf_ge fl hn0)
  have hl : Nat.log2 m ≤ Nat.log2 n := (Nat.le_log2 hn0.ne').mpr ((Nat.log2_self_le hm0.ne').trans h.le)
  obtain same | next := hl.eq_or_lt
  · have hn : n < 2 ^ fl.prec := (Nat.log2_lt hn0.ne').1 (same ▸ (Nat.log2_lt hm0.ne').2 hm)
    rw [magOf_exact fl hm0 hm, magOf_exact fl hn0 hn, same]
    exact Nat.add_lt_add_left (Nat.mul_lt_mul_of_pos_right h (Nat.two_pow_pos _)) _
  · calc magOf fl m < (Nat.log2 m + fl.unitExp + 3 - fl.prec) * 2 ^ (fl.prec - 1) := magOf_lt fl hm0 hm
      _ ≤ (Nat.log2 n + fl.unitExp + 2 - fl.prec) * 2 ^ (fl.prec - 1) := Nat.mul_le_mul_right _ (by omega)
      _ ≤ magOf fl n := magOf_ge fl hn0

/-- The place in the order of the absolute value of a converted integer. -/
def keyOf (fl : FLen) (n : Nat) : Nat := if fl.infMag ≤ magOf fl n then 2 ^ 63 else magOf fl n

/-- The place in the order of a converted integer. -/
def signedKey (fl : FLen) (z : Int) : Int := if z < 0 then -keyOf fl z.natAbs else keyOf fl z.natAbs

theorem fKey_fOfInt (fl : FLen) (z : Int) : fKey (fOfInt fl z) = some (signedKey fl z) := by
  unfold fOfInt roundF signedKey keyOf magOf
  dsimp only
  split <;> by_cases hz : z < 0 <;> simp [fKey, hz]

/-- An integer that is converted exactly is finite, and any larger one lies above it, finite or not. -/
theorem keyOf_lt_keyOf (fl : FLen) {m n : Nat} (hm : m < 2 ^ fl.prec) (h : m < n) : keyOf fl m < keyOf fl n := by
  have finite : magOf fl m < fl.infMag := by
    obtain rfl | hm0 := m.eq_zero_or_pos
    · rw [magOf_zero]
      exact infMag_pos fl
    have hl : Nat.log2 m < fl.prec := (Nat.log2_lt hm0.ne').2 hm
    calc magOf fl m < (Nat.log2 m + fl.unitExp + 3 - fl.prec) * 2 ^ (fl.prec - 1) := magOf_lt fl hm0 hm
      _ ≤ (fl.unitExp + 2) * 2 ^ (fl.prec - 1) := Nat.mul_le_mul_right _ (by omega)
      _ ≤ fl.infMag := by cases fl <;> decide
  have top : fl.infMag ≤ 2 ^ 63 := by cases fl <;> decide
  have order := magOf_lt_magOf fl hm h
  unfold keyOf
  rw [if_neg finite.not_ge]
  split <;> omega

@[simp] theorem keyOf_zero (fl : FLen) : keyOf fl 0 = 0 := by
  rw [keyOf, magOf_zero, if_neg (infMag_pos fl).not_ge]

/-- An integer that is converted exactly keeps its place among all integers. -/
theorem signedKey_le_iff (fl : FLen) {a : Int} (ha : a.natAbs < 2 ^ fl.prec) (z : Int) :
    (signedKey fl a ≤ signedKey fl z ↔ a ≤ z) ∧ (signedKey fl z ≤ signedKey fl a ↔ z ≤ a) := by
  have zero := keyOf_zero fl
  have pos : ∀ n, 0 < n → 0 < keyOf fl n := fun n hn => zero ▸ keyOf_lt_keyOf fl (Nat.two_pow_pos _) hn
  have below : a.natAbs < z.natAbs → keyOf fl a.natAbs < keyOf fl z.natAbs := keyOf_lt_keyOf fl ha
  have above : z.natAbs < a.natAbs → keyOf fl z.natAbs < keyOf fl a.natAbs := fun h => keyOf_lt_keyOf fl (h.trans ha) h
  have same : z.natAbs = a.natAbs → keyOf fl z.natAbs = keyOf fl a.natAbs := congrArg _
  have posA := pos a.natAbs
  have posZ := pos z.natAbs
  unfold signedKey
  omega

/-- An integer below `2 ^ prec` compares with every integer as they do before they are converted. -/
theorem fLe_fOfInt (fl : FLen) {a : Int} (ha : a.natAbs < 2 ^ fl.prec) (z : Int) :
    fLe (fOfInt fl a) (fOfInt fl z) = decide (a ≤ z) ∧ fLe (fOfInt fl z) (fOfInt fl a) = decide (z ≤ a) := by
  obtain ⟨le, ge⟩ := signedKey_le_iff fl ha z
  simp only [fLe, fKey_fOfInt]
  exact ⟨decide_eq_decide.mpr le, decide_eq_decide.mpr ge⟩

/-! ### The dead zone -/

theorem fNeg_fOfInt (fl : FLen) {z : Int} (hz : 0 < z) : fNeg (fOfInt fl z) = fOfInt fl (-z) := by
  unfold fOfInt roundF
  rw [Int.natAbs_neg, decide_eq_false (by omega : ¬ z < 0), decide_eq_true (by omega : -z < 0)]
  dsimp only
  split <;> rfl

/-- Settles O50: 20 and -20 are converted exactly, so that the comparisons with the bounds are those of the integers. -/
theorem deadZoneClampsToExactZero : Obligations.DeadZoneClampsToExactZero := by
  refine fun c => ⟨fun hd z => ?_, ?_, fun x => ⟨fun h => ?_, fun h => ?_⟩⟩
  · have exact20 : 20 < 2 ^ c.flen.prec := by cases c.flen <;> decide
    have zone : clamp c (fOfInt c.flen z) = if -20 ≤ z ∧ z ≤ 20 then F.zero else fOfInt c.flen z := by
      rw [clamp, hd, fNeg_fOfInt _ (by decide), (fLe_fOfInt c.flen (a := -20) (by simpa using exact20) z).1,
        (fLe_fOfInt c.flen (a := 20) exact20 z).2, ← Bool.decide_and]
      simp only [decide_eq_true_eq]
    exact ⟨fun h => zone.trans (if_pos h), fun h => zone.trans (if_neg (by omega))⟩
  · simp [clamp, fLe, fKey]
  · rw [clamp, h.1, h.2]
    rfl
  · refine if_neg fun hin => ?_
    obtain ⟨hlo, hhi⟩ := Bool.and_eq_true_iff.mp hin
    simp [hlo, hhi] at h

end Sys2Proof.Machine
end

section
/-! SUPPORT. Calibration with one constant reading: the sums while it runs, and the averages at its end
(42_sampling_pipeline.md R184, R189, R195 (1)). -/

namespace Sys2Proof

open Machine

/-! ### Sums and averages of a constant reading -/

/-- The sum of `k` equal readings, wrapped as its register does. -/
def constSum (k : Nat) (x : BitVec 32) : BitVec 64 := .ofInt 64 (x.toInt * k)

@[simp] theorem constSum_zero_left (x : BitVec 32) : constSum 0 x = 0 := by
  simp [constSum]

@[simp] theorem constSum_zero_right (k : Nat) : constSum k 0 = 0 := by
  simp [constSum]

theorem constSum_succ (k : Nat) (x : BitVec 32) : constSum (k + 1) x = constSum k x + x.signExtend 64 := by
  rw [constSum, constSum, Int.natCast_succ, Int.mul_add, Int.mul_one, BitVec.ofInt_add]
  rfl

/-- Below `2 ^ prec` the sum has not wrapped. -/
theorem constSum_toInt {fl : FLen} {k : Nat} {x : BitVec 32} (h : (x.toInt * k).natAbs < 2 ^ fl.prec) :
    (constSum k x).toInt = x.toInt * k := by
  have narrow : 2 ^ fl.prec ≤ 2 ^ 53 := by cases fl <;> decide
  exact BitVec.toInt_ofInt_eq_self (by decide) (by omega) (by omega)

/-- A map over the axes that reads a vector of one entry per axis is a map over the vector. -/
theorem map_range_getD {α β : Type} (v : List α) (d : α) (f : α → β) :
    (List.range v.length).map (fun a => f (v.getD a d)) = v.map f := by
  refine List.ext_getElem (by simp) fun a h _ => ?_
  have ha : a < v.length := by simpa using h
  simp [ha]

theorem getD_map_constSum (k : Nat) (v : List (BitVec 32)) (a : Nat) :
    (v.map (constSum k)).getD a 0 = constSum k (v.getD a 0) := by
  rw [← constSum_zero_right k, List.getD_map]

variable {c : Config} {v : List (BitVec 32)}

theorem accumulate_constSum (hv : v.length = c.nAxes) (k : Nat) :
    accumulate c (v.map (constSum k)) v = v.map (constSum (k + 1)) := by
  rw [accumulate, ← hv, ← map_range_getD v 0 (constSum (k + 1))]
  simp only [getD_map_constSum, constSum_succ]

theorem offsets_constSum (hv : v.length = c.nAxes) {k : Nat} (hk : 0 < k) (hp : k < 2 ^ c.flen.prec)
    (hx : ∀ x ∈ v, (x.toInt * k).natAbs < 2 ^ c.flen.prec) :
    offsets c (v.map (constSum k)) k = v.map fun x => fOfInt c.flen x.toInt := by
  rw [offsets, ← hv]
  simp only [getD_map_constSum]
  rw [map_range_getD v 0 fun x => fDiv c.flen (fOfInt c.flen (constSum k x).toInt) (fOfInt c.flen k)]
  refine List.map_congr_left fun x h => ?_
  rw [constSum_toInt (hx x h), exactQuotientIsExact c.flen x.toInt k hk hp (hx x h)]

/-! ### The run -/

/-- Calibrating on the bus answer `v`, after `k` interrupts (R189). -/
structure CalibratedBy (c : Config) (v : List (BitVec 32)) (k : Nat) (s : State) : Prop where
  cfg : s.cfg = c
  active : s.sp.active = true
  mode : s.sp.mode = .cal
  count : s.sp.count.toNat = k
  sum : s.sp.sum = v.map (constSum (k - c.discard))

variable {s t : State} {k : Nat} {ts : BitVec 64} {raw : List (BitVec 32)} {es : List Event}

/-- An activation in mode Cal starts a calibration, on whatever the bus will answer. -/
theorem exec_spActivate_cal (raw : List (BitVec 32)) (hb : s.busy = none) :
    ∃ t, exec (.spActivate .cal) s = .next t ∧ CalibratedBy s.cfg (busVector s.cfg raw) 0 t ∧
      t.sched = s.sched ∧ t.busy = none ∧ t.host = s.host := by
  have cleared : List.replicate s.cfg.nAxes 0 = (busVector s.cfg raw).map (constSum 0) := by
    rw [show constSum 0 = fun _ => 0 from funext constSum_zero_left, List.map_const', length_busVector]
  exact ⟨_, exec_spActivate hb nofun, ⟨rfl, rfl, rfl, rfl, (Nat.zero_sub _).symm ▸ cleared⟩, rfl, rfl, rfl⟩

theorem CalibratedBy.irq (h : CalibratedBy c (busVector c raw) k s) (hk : k + 1 < 2 ^ 32) (ts : BitVec 64) :
    ∃ t, spIrq ts raw s = .next t ∧ CalibratedBy c (busVector c raw) (k + 1) t := by
  obtain ⟨rfl, ha, hm, rfl, hs⟩ := h
  refine ⟨_, spIrq_cal_of_lt ts raw ha hm hk, rfl, ha, hm, BitVec.toNat_add_of_lt hk, ?_⟩
  dsimp only
  split
  · rename_i hd
    rw [hs, accumulate_constSum (length_busVector _ _), Nat.sub_add_comm hd]
  · rename_i hd
    rw [hs, Nat.sub_eq_zero_of_le (by omega), Nat.sub_eq_zero_of_le (by omega)]

theorem CalibratedBy.of_same (h : CalibratedBy c v k s) (hc : t.cfg = s.cfg) (hs : t.sp = s.sp) :
    CalibratedBy c v k t := by
  obtain ⟨cfg, active, mode, count, sum⟩ := h
  exact ⟨hc.trans cfg, hs ▸ active, hs ▸ mode, hs ▸ count, hs ▸ sum⟩

/-- An interrupt of the row takes the calibration one reading further, and the host does not move. -/
theorem CalibratedBy.step (h : CalibratedBy c (busVector c raw) k s) (hc : legalConfig c = true) (hk : k + 1 < 2 ^ 32)
    (hs : s.sched = .irq ts raw :: es) :
    ∃ t, step s = .next t ∧ CalibratedBy c (busVector c raw) (k + 1) t ∧
      t.sched = es ∧ t.busy = s.busy ∧ t.host = s.host := by
  obtain ⟨t, ht, cal⟩ := (h.of_same (t := { s with sched := es }) rfl rfl).irq hk ts
  have only := (spIrq_handled ht).only
  exact ⟨t, (step_irq (h.cfg ▸ hc) hs).trans ht, cal, by rw [only], by rw [only], by rw [only]⟩

/-- `n` interrupts with one reading, and the run goes on where they have come to. -/
theorem CalibratedBy.run (n : Nat) (h : CalibratedBy c (busVector c raw) k s) (hc : legalConfig c = true)
    (hn : k + n < 2 ^ 32) (hs : s.sched = List.replicate n (.irq ts raw) ++ es) :
    ∃ t, (∀ m, Host.Core.run core (m + n) s = Host.Core.run core m t) ∧ CalibratedBy c (busVector c raw) (k + n) t ∧
      t.sched = es ∧ t.busy = s.busy ∧ t.host = s.host := by
  induction n generalizing s k with
  | zero => exact ⟨s, fun _ => rfl, h, hs, rfl, rfl⟩
  | succ n ih =>
    obtain ⟨u, hu, cal, us, ub, uh⟩ := h.step hc (by omega) hs
    obtain ⟨t, hrun, cal', ht, tb, th⟩ := ih cal (by omega) us
    rw [Nat.add_right_comm] at cal'
    exact ⟨t, fun m => (run_next hu _).trans (hrun m), cal', ht, tb.trans ub, th.trans uh⟩

/-- The end of a calibration that accumulated `k - DISCARD` equal readings: each average is the reading. -/
theorem CalibratedBy.exec_spCalend (h : CalibratedBy c v k s) (hb : s.busy = none) (hv : v.length = c.nAxes)
    (hd : c.discard < k) (hp : k - c.discard < 2 ^ c.flen.prec)
    (hx : ∀ x ∈ v, (x.toInt * (k - c.discard : Nat)).natAbs < 2 ^ c.flen.prec) :
    ∃ t, exec .spCalend s = .next t ∧ t.sp.active = false ∧ t.sp.offsetValid = true ∧ t.sp.count.toNat = k ∧
      t.sp.offset.val = v.map fun x => fOfInt c.flen x.toInt := by
  obtain ⟨rfl, ha, hm, rfl, hs⟩ := h
  rw [Sys2Proof.exec_spCalend hb ha hm, spCalEnd_of_accumulated hd, hs, offsets_constSum hv (Nat.sub_pos_of_lt hd) hp hx]
  exact ⟨_, rfl, rfl, rfl, rfl, rfl⟩

/-- At its entry the host issues the descriptor it holds. -/
theorem step_issue {i : Instr} {rest : List Byte} (hc : legalConfig s.cfg = true) (hs : s.sched = .host :: es)
    (hb : s.busy = none) (hd : decode s.cfg.flen s.host = .ok (i, rest)) : step s = exec i { s with sched := es, host := rest } :=
  (step_event hc hs).trans (hostTurn_exec (s := { s with sched := es }) hb hd)

/-- Settles O52: the activation clears the sums, each interrupt adds one reading, and the quotient at the end is exact. -/
theorem calibrationConverges : Obligations.CalibrationConverges := by
  intro s n ts raw hc hb hh hs hd hn hp hx
  have first : step s = exec (.spActivate .cal) { s with sched := _, host := [0x22] } := step_issue hc hs hb (by rw [hh]; rfl)
  obtain ⟨u, hu, cal0, us, ub, uh⟩ := exec_spActivate_cal raw
    (s := { s with sched := List.replicate n (.irq ts raw) ++ [.host], host := [0x22] }) hb
  obtain ⟨w, hrun, cal, ws, wb, wh⟩ := cal0.run n hc (by omega) us
  have last : step w = exec .spCalend { w with sched := [], host := [] } :=
    step_issue (cal.cfg ▸ hc) ws (wb.trans ub) (by rw [wh, uh]; rfl)
  rw [Nat.zero_add] at cal
  obtain ⟨t, ht, final⟩ := (cal.of_same (t := { w with sched := [], host := [] }) rfl rfl).exec_spCalend (wb.trans ub)
    (length_busVector _ _) hd hp hx
  have whole : Host.Core.run core (n + 2) s = .next t := by
    rw [run_next (first.trans hu), Nat.add_comm, hrun, run_next (last.trans ht)]
    rfl
  exact ⟨t, whole, final⟩

end Sys2Proof
end

section
/-! SUPPORT. The operations and the toggle steps of the PG unit, one equation for each way they can go (43_pulse_generator.md R212 to
R219). -/

namespace Sys2Proof

open Machine

variable {s : State}

@[simp] theorem opOk_pg (d : Data) (s : State) : opOk .pg d s =
    { s with pg := { s.pg with ok := true, err := 0 }, busy := none, ret := some ⟨.pg, true, 0, d⟩ } := rfl

@[simp] theorem opError_pg (e : ErrClass) (s : State) : opError .pg e s =
    { s with pg := { s.pg with ok := false, err := e.code }, busy := none, ret := some ⟨.pg, false, e.code, .none⟩ } := rfl

/-! ### PG.RUN and PG.STEPCOUNT -/

/-- What PG.RUN programs (R211, R212). -/
def runOp (c : Config) (d : Dir) (v : FBits) : LaunchOp := ⟨d, halfPeriod c (fOfBits v), .infinite, false, true, .delay⟩

/-- What PG.STEPCOUNT programs (R211, R213). -/
def countOp (c : Config) (n : BitVec 32) (d : Dir) (v : FBits) (bg cb : Bool) : LaunchOp :=
  ⟨d, halfPeriod c (fOfBits v), .finite n, cb, bg, .delay⟩

section
variable (hb : s.busy = none) (d : Dir) {v : FBits} (hv : legalSpeed s.cfg.flen v = true)
include hb hv

theorem exec_pgRun_closed (hc : s.pg.closed = true) : exec (.pgRun d v) s = .next (opError .pg .invalidStateError s) := by
  rw [exec, execPgRun, issue_free _ hb, require_legal _ _ hv, if_pos hc]

theorem exec_pgRun_loop (hc : s.pg.closed = false) (hl : s.pg.phase.hasLoop = true) :
    exec (.pgRun d v) s = .next (launchStop (runOp s.cfg d v) s) := by
  rw [exec, execPgRun, issue_free _ hb, require_legal _ _ hv, if_neg (by simp [hc]), if_pos hl, runOp]

theorem exec_pgRun_noLoop (hc : s.pg.closed = false) (hl : s.pg.phase.hasLoop = false) :
    exec (.pgRun d v) s = .next (launchSettle (runOp s.cfg d v) s) := by
  rw [exec, execPgRun, issue_free _ hb, require_legal _ _ hv, if_neg (by simp [hc]), if_neg (by simp [hl]), runOp]

variable (bg cb : Bool) {n : BitVec 32} (hn : legalCount n = true)
include hn

theorem exec_pgStepcount_rejected (h : s.pg.closed = true ∨ s.pg.running = true) :
    exec (.pgStepcount n d v bg cb) s = .next (opError .pg .invalidStateError s) := by
  rw [exec, execPgStepcount, issue_free _ hb, require_legal _ _ hn, require_legal _ _ hv]
  rcases h with h | h <;> simp [h]

theorem exec_pgStepcount (hc : s.pg.closed = false) (hr : s.pg.running = false) :
    exec (.pgStepcount n d v bg cb) s = .next (launchSettle (countOp s.cfg n d v bg cb) s) := by
  rw [exec, execPgStepcount, issue_free _ hb, require_legal _ _ hn, require_legal _ _ hv, if_neg (by simp [hc]),
    if_neg (by simp [hr]), countOp]

end

/-- PG.RUN that was not refused has a legal speed. -/
theorem legalSpeed_of_exec_pgRun {t : State} {d : Dir} {v : FBits} (h : exec (.pgRun d v) s = .next t) :
    legalSpeed s.cfg.flen v = true := by
  rw [exec, execPgRun] at h
  exact (require_next (issue_next h).2).1

/-- PG.STEPCOUNT that was not refused has a legal count and a legal speed. -/
theorem legal_of_exec_pgStepcount {t : State} {n : BitVec 32} {d : Dir} {v : FBits} {bg cb : Bool}
    (h : exec (.pgStepcount n d v bg cb) s = .next t) : legalCount n = true ∧ legalSpeed s.cfg.flen v = true := by
  rw [exec, execPgStepcount] at h
  obtain ⟨hn, h⟩ := require_next (issue_next h).2
  exact ⟨hn, (require_next h).1⟩

/-! ### PG.STOP, PG.GETSTEPCOUNT and PG.CLOSE -/

theorem exec_pgStop (hb : s.busy = none) : exec .pgStop s = .next (opOk .pg .none (stopLoop s)) := by
  rw [exec, execPgStop, issue_free _ hb]

theorem exec_pgGetstepcount (hb : s.busy = none) :
    exec .pgGetstepcount s = .next (opOk .pg (.count s.pg.count) (s.log [.toggleCycles s.pg.count])) := by
  rw [exec, execPgGetstepcount, issue_free _ hb, toggleCycles]

theorem exec_pgClose (hb : s.busy = none) : exec .pgClose s =
    .next (opOk .pg .none { stopLoop s with pg := { (stopLoop s).pg with closed := true, phase := .closed } }) := by
  rw [exec, execPgClose, issue_free _ hb]

theorem stopLoop_of_loop (h : s.pg.phase.hasLoop = true) : stopLoop s = emitComplete (stopEmits s) (haltLoop s) := if_pos h

theorem stopLoop_of_noLoop (h : s.pg.phase.hasLoop = false) :
    stopLoop s = { s with pg := { s.pg with running := false } } := if_neg (by simp [h])

/-! ### EV.TOGGLE -/

theorem pgToggle_high {k : Nat} (hp : s.pg.phase = .high k) : pgToggle s = .next (pgGo (.low k) (setStep false s)) := by
  simp only [pgToggle, hp]

theorem pgToggle_low {k : Nat} (hp : s.pg.phase = .low k) : pgToggle s = toggleLow k s := by
  simp only [pgToggle, hp]

theorem pgToggle_completing (hp : s.pg.phase = .completing) : pgToggle s = .next (toggleComplete s) := by
  simp only [pgToggle, hp]

theorem pgToggle_noLoop (hp : s.pg.phase.hasLoop = false) : pgToggle s = .next s := by
  cases h : s.pg.phase with
  | noLoop | settling | closed => simp only [pgToggle, h]
  | high | low | completing => simp [h, PgPhase.hasLoop] at hp

/-- The cycle that reaches the target: the completion action is next (R218). -/
theorem toggleLow_target (k : Nat) (hn : s.pg.count.toNat + 1 < 2 ^ 32) (ht : s.pg.target = .finite (s.pg.count + 1)) :
    toggleLow k s = .next (pgGo .completing { s with pg := { s.pg with count := s.pg.count + 1 } }) := by
  rw [toggleLow, if_pos hn]
  exact if_pos ht

/-- Any other cycle: the next one begins (R218). -/
theorem toggleLow_next (k : Nat) (hn : s.pg.count.toNat + 1 < 2 ^ 32) (ht : s.pg.target ≠ .finite (s.pg.count + 1)) :
    toggleLow k s = .next (pgGo (.high (k + 1)) (setStep true { s with pg := { s.pg with count := s.pg.count + 1 } })) := by
  rw [toggleLow, if_pos hn]
  exact if_neg ht

theorem toggleLow_overflow (k : Nat) (hn : 2 ^ 32 ≤ s.pg.count.toNat + 1) :
    toggleLow k s = .fault (.counterOverflow .pgCount) := if_neg hn.not_gt

end Sys2Proof
end

section
/-! SUPPORT. The invariant of the PG unit (43_pulse_generator.md R220) as its two cases: PG.RUN or PG.STEPCOUNT is between two of
its actions, or it is not. What each agent's step does to each of them, and the obligation that every step keeps the invariant. -/

namespace Sys2Proof

open Machine

variable {s t : State} {op : LaunchOp}

/-! ### The two cases -/

/-- What the invariant says of a loop that turns, at a configuration (R217, R218, R220 (3)). -/
structure LoopInv (c : Config) (p : PgUnit) : Prop where
  counted : p.phase.hasLoop = true →
    (p.target = .infinite ∧ p.cbEn = false ∧ p.phase ≠ .completing) ∨
    ∃ n, p.target = .finite n ∧ p.count.toNat ≤ n.toNat ∧ (p.count = n ↔ p.phase = .completing)
  high : ∀ k, p.phase = .high k → p.count.toNat = k ∧ p.stepOut = true
  low : ∀ k, p.phase = .low k → p.count.toNat = k ∧ p.stepOut = false
  completing : p.phase = .completing → p.stepOut = false
  programmed : p.phase.hasLoop = true →
    p.dir.held = .written ∧ p.half.held = .written ∧ p.dirOut = ⟨dirLevel c p.dir.val, .written⟩

/-- Without a loop it says nothing. -/
theorem LoopInv.of_noLoop {c : Config} {p : PgUnit} (h : p.phase.hasLoop = false) : LoopInv c p where
  counted hl := absurd hl (by simp [h])
  high k hk := by simp [hk, PgPhase.hasLoop] at h
  low k hk := by simp [hk, PgPhase.hasLoop] at h
  completing hk := by simp [hk, PgPhase.hasLoop] at h
  programmed hl := absurd hl (by simp [h])

/-- The host is not inside PG.RUN or PG.STEPCOUNT before its loop turns: the flag tells whether a loop exists (R220 (1)). -/
structure Unlaunched (s : State) : Prop where
  free : ∀ op, s.busy ≠ some (.launch op)
  settled : s.pg.phase ≠ .settling
  runs : s.pg.running = s.pg.phase.hasLoop
  closed : s.pg.closed = true ↔ s.pg.phase = .closed
  loop : LoopInv s.cfg s.pg

/-- The host is inside PG.RUN or PG.STEPCOUNT with the action `op.act` next: no loop turns, and the registers that the actions
before it write are written (R212, R213, R220 (2)). -/
structure Launching (op : LaunchOp) (s : State) : Prop where
  busy : s.busy = some (.launch op)
  ok : LaunchOk op
  phase : s.pg.phase = if op.act = .emit then .noLoop else .settling
  closed : s.pg.closed = false
  runs : s.pg.running = (op.act == .start || op.act == .stepOn)
  directed : op.act = .registers ∨ op.act = .start ∨ op.act = .stepOn →
    s.pg.dir = ⟨op.dir, .written⟩ ∧ s.pg.dirOut = ⟨dirLevel s.cfg op.dir, .written⟩
  marked : op.act = .start ∨ op.act = .stepOn →
    s.pg.half = ⟨op.half, .written⟩ ∧ s.pg.target = op.target ∧ s.pg.cbEn = op.cbEn ∧ s.pg.count = 0

theorem markedRunning_launch (hb : s.busy = some (.launch op)) : markedRunning s = (op.act == .start || op.act == .stepOn) := by
  simp only [markedRunning, hb]

theorem markedRunning_free (hb : ∀ op, s.busy ≠ some (.launch op)) : markedRunning s = false := by
  unfold markedRunning
  split
  · exact absurd ‹_› (hb _)
  all_goals rfl

theorem Unlaunched.pgInv (h : Unlaunched s) : PgInv s where
  launch op hb := absurd hb (h.free op)
  settling hp := absurd hp h.settled
  directed op hb := absurd hb (h.free op)
  marked op hb := absurd hb (h.free op)
  runs := by rw [markedRunning_free h.free, Bool.or_false, h.runs]
  closed := h.closed
  counted := h.loop.counted
  high := h.loop.high
  low := h.loop.low
  completing := h.loop.completing
  programmed := h.loop.programmed

theorem PgInv.unlaunched (h : PgInv s) (hb : ∀ op, s.busy ≠ some (.launch op)) : Unlaunched s where
  free := hb
  settled hp := (h.settling hp).elim hb
  runs := by rw [h.runs, markedRunning_free hb, Bool.or_false]
  closed := h.closed
  loop := ⟨h.counted, h.high, h.low, h.completing, h.programmed⟩

theorem Launching.noLoop (h : Launching op s) : s.pg.phase.hasLoop = false := by
  rw [h.phase]
  split <;> rfl

theorem Launching.pgInv (h : Launching op s) : PgInv s := by
  have only : ∀ op', s.busy = some (.launch op') → op' = op := fun op' hb => by simpa [h.busy] using hb.symm
  have notClosed : s.pg.phase ≠ .closed := by rw [h.phase]; split <;> exact nofun
  have loop : LoopInv s.cfg s.pg := .of_noLoop h.noLoop
  exact {
    launch := fun op' hb => only op' hb ▸ ⟨h.ok, h.phase⟩
    settling := fun _ => ⟨op, h.busy⟩
    directed := fun op' hb => only op' hb ▸ h.directed
    marked := fun op' hb => only op' hb ▸ h.marked
    runs := by rw [h.runs, h.noLoop, markedRunning_launch h.busy, Bool.false_or]
    closed := by simp [h.closed, notClosed]
    counted := loop.counted
    high := loop.high
    low := loop.low
    completing := loop.completing
    programmed := loop.programmed }

theorem PgInv.launching (h : PgInv s) (hb : s.busy = some (.launch op)) : Launching op s := by
  obtain ⟨ok, phase⟩ := h.launch op hb
  have noLoop : s.pg.phase.hasLoop = false := by rw [phase]; split <;> rfl
  have notClosed : s.pg.phase ≠ .closed := by rw [phase]; split <;> exact nofun
  exact {
    busy := hb
    ok := ok
    phase := phase
    closed := Bool.eq_false_of_not_eq_true fun hc => notClosed (h.closed.mp hc)
    runs := by rw [h.runs, noLoop, markedRunning_launch hb, Bool.false_or]
    directed := h.directed op hb
    marked := h.marked op hb }

/-- A closed unit has no loop. -/
theorem Unlaunched.opened (h : Unlaunched s) (hl : s.pg.phase.hasLoop = true) : s.pg.closed = false :=
  Bool.eq_false_of_not_eq_true fun hc => by simp [h.closed.mp hc, PgPhase.hasLoop] at hl

/-- The invariant is one of its two cases. -/
theorem PgInv.cases (h : PgInv s) : Unlaunched s ∨ ∃ op, Launching op s := by
  by_cases hb : ∃ op, s.busy = some (.launch op)
  · obtain ⟨op, hb⟩ := hb
    exact .inr ⟨op, h.launching hb⟩
  · exact .inl (h.unlaunched (not_exists.mp hb))

/-! ### What writes no register of the loop -/

theorem PgInv.of_same (h : PgInv s) (hc : t.cfg = s.cfg) (hp : t.pg = s.pg) (hb : t.busy = s.busy) : PgInv t := by
  have marked : markedRunning t = markedRunning s := by simp only [markedRunning, hb]
  obtain ⟨launch, settling, directed, marks, runs, closed, counted, high, low, completing, programmed⟩ := h
  rw [← hc, ← hp, ← hb] at *
  exact ⟨launch, settling, directed, marks, marked ▸ runs, closed, counted, high, low, completing, programmed⟩

/-- Only the flags of PG and the operation in progress may change, and no launch begins. -/
theorem Unlaunched.of_flags (h : Unlaunched s) (ok : Bool) (err : BitVec 3) (hc : t.cfg = s.cfg)
    (hp : t.pg = { s.pg with ok := ok, err := err }) (hb : ∀ op, t.busy ≠ some (.launch op)) : Unlaunched t := by
  obtain ⟨-, settled, runs, closed, counted, high, low, completing, programmed⟩ := h
  refine ⟨hb, ?_, ?_, ?_, ?_⟩ <;> rw [hp]
  · exact settled
  · exact runs
  · exact closed
  · rw [hc]
    exact ⟨counted, high, low, completing, programmed⟩

/-- PG and the configuration are as they were, and no launch begins. -/
theorem Unlaunched.of_pg (h : Unlaunched s) (hc : t.cfg = s.cfg) (hp : t.pg = s.pg) (hb : ∀ op, t.busy ≠ some (.launch op)) :
    Unlaunched t := h.of_flags s.pg.ok s.pg.err hc hp hb

theorem Unlaunched.opReturn (u : UnitName) (ok : Bool) (e : BitVec 3) (d : Data) (h : Unlaunched s) :
    Unlaunched (opReturn u ok e d s) := by
  cases u with
  | pt | cr | sp => exact h.of_pg rfl rfl (by simp)
  | pg => exact h.of_flags ok e rfl rfl (by simp)

theorem Unlaunched.opOk (u : UnitName) (d : Data) (h : Unlaunched s) : Unlaunched (opOk u d s) := h.opReturn _ _ _ _

theorem Unlaunched.opError (u : UnitName) (e : ErrClass) (h : Unlaunched s) : Unlaunched (opError u e s) := h.opReturn _ _ _ _

theorem Unlaunched.setRx (ch : Chan) (b : List Byte) (h : Unlaunched s) : Unlaunched (s.setRx ch b) :=
  h.of_pg (setRx_cfg _ _ _) (setRx_pg _ _ _) (by simpa using h.free)

/-! ### The other units' operations -/

theorem unlaunched_ptKeeps : PtKeeps Unlaunched where
  go _ _ _ h := h.of_pg rfl rfl (by simp)
  upd _ _ h _ _ _ := h.of_pg rfl rfl h.free
  updB _ _ h _ _ _ := h.of_pg rfl rfl h.free
  log _ _ h := h.of_pg rfl rfl h.free
  rx _ ch b h := h.setRx ch b
  env _ _ h := h.of_pg rfl rfl h.free
  ok _ _ h := h.opOk _ _
  er _ _ _ h := h.opError _ _

theorem unlaunched_crKeeps : CrKeeps Unlaunched where
  go _ _ _ h := h.of_pg rfl rfl (by simp)
  upd _ _ h _ _ _ := h.of_pg rfl rfl h.free
  log _ _ h := h.of_pg rfl rfl h.free
  rx _ ch b h := h.setRx ch b
  env _ _ h := h.of_pg rfl rfl h.free
  ok _ _ h := h.opOk _ _
  er _ _ _ h := h.opError _ _

theorem Unlaunched.spTake (h : Unlaunched s) : Unlaunched (spTake s) := by
  unfold Machine.spTake
  split
  · exact h
  · exact Unlaunched.opOk _ _ (h.of_pg rfl rfl h.free)

theorem Unlaunched.spAdvance (v : Verdict) (h : Unlaunched s) : Unlaunched (spAdvance v s) := by
  unfold Machine.spAdvance
  split
  · exact Unlaunched.opError _ _ (h.of_pg rfl rfl h.free)
  · exact h

theorem Unlaunched.spPoptRun (h : Unlaunched s) : Unlaunched (spPoptRun s) :=
  drive_keeps (fun _ ch b h => h.setRx ch b) (fun _ _ h => h.of_pg rfl rfl h.free) (fun v _ h => h.spAdvance v) _ _ h.spTake

theorem Unlaunched.spCalEnd (h : Unlaunched s) : Unlaunched (spCalEnd s) := by
  unfold Machine.spCalEnd
  split
  · exact Unlaunched.opError _ _ (h.of_pg rfl rfl h.free)
  · exact Unlaunched.opOk _ _ (h.of_pg rfl rfl h.free)

/-! ### Programming a loop -/

/-- The settle delay begins where no loop is marked running. -/
theorem Launching.settle (ho : LaunchOk op) (hc : s.pg.closed = false) (hr : s.pg.running = false) :
    Launching { op with act := .delay } (launchSettle op s) :=
  ⟨rfl, ho, rfl, hc, hr, nofun, nofun⟩

theorem Launching.stop (ho : LaunchOk op) (hc : s.pg.closed = false) : ∃ op', Launching op' (launchStop op s) := by
  unfold launchStop
  split
  · exact ⟨{ op with act := .emit }, rfl, ho, rfl, hc, rfl, nofun, nofun⟩
  · exact ⟨_, .settle ho hc rfl⟩

/-- The last action sets a loop turning that has counted nothing, and a legal count is not zero. -/
theorem Launching.stepOn (h : Launching op s) (ha : op.act = .stepOn) (hb : ∀ op, t.busy ≠ some (.launch op))
    (hc : t.cfg = s.cfg) (hp : t.pg = { s.pg with phase := .high 0, stepOut := true }) : Unlaunched t := by
  obtain ⟨dir, dirOut⟩ := h.directed (.inr (.inr ha))
  obtain ⟨half, target, cbEn, count⟩ := h.marked (.inr ha)
  have running : s.pg.running = true := by rw [h.runs, ha]; rfl
  have counted : (s.pg.target = .infinite ∧ s.pg.cbEn = false ∧ PgPhase.high 0 ≠ .completing) ∨
      ∃ n, s.pg.target = .finite n ∧ s.pg.count.toNat ≤ n.toNat ∧ (s.pg.count = n ↔ PgPhase.high 0 = .completing) := by
    rw [target, cbEn, count]
    obtain ⟨ht, hcb, -⟩ | ⟨n, ht, hn⟩ := h.ok
    · exact .inl ⟨ht, hcb, nofun⟩
    · have pos : 0 ≠ n := by rintro rfl; cases hn
      exact .inr ⟨n, ht, Nat.zero_le _, fun e => absurd e pos, nofun⟩
  refine ⟨hb, ?_, ?_, ?_, ?_⟩ <;> rw [hp]
  · exact nofun
  · exact running
  · simp [h.closed]
  · rw [hc]
    exact {
      counted := fun _ => counted
      high := fun k hk => by cases hk; exact ⟨by rw [count]; rfl, rfl⟩
      low := nofun
      completing := nofun
      programmed := fun _ => ⟨by rw [dir], by rw [half], by rw [dirOut, dir]⟩ }

/-- Each action of PG.RUN and PG.STEPCOUNT writes what the invariant says of the ones after it. -/
theorem Launching.step (h : Launching op s) : PgInv (launchStep op s) := by
  obtain ⟨d, half, target, cb, bg, act⟩ := op
  cases act with
  | emit => exact (Launching.settle (s := emitComplete true s) h.ok h.closed h.runs).pgInv
  | delay =>
    exact Launching.pgInv (op := ⟨d, half, target, cb, bg, .dir⟩) ⟨rfl, h.ok, h.phase, h.closed, h.runs, nofun, nofun⟩
  | dir =>
    exact Launching.pgInv (op := ⟨d, half, target, cb, bg, .registers⟩)
      ⟨rfl, h.ok, h.phase, h.closed, h.runs, fun _ => ⟨rfl, rfl⟩, nofun⟩
  | registers =>
    have directed := h.directed (.inl rfl)
    exact Launching.pgInv (op := ⟨d, half, target, cb, bg, .start⟩)
      ⟨rfl, h.ok, h.phase, h.closed, rfl, fun _ => directed, fun _ => ⟨rfl, rfl, rfl, rfl⟩⟩
  | start =>
    have directed := h.directed (.inr (.inl rfl))
    have marked := h.marked (.inl rfl)
    exact Launching.pgInv (op := ⟨d, half, target, cb, bg, .stepOn⟩)
      ⟨rfl, h.ok, h.phase, h.closed, h.runs, fun _ => directed, fun _ => marked⟩
  | stepOn =>
    have turning : ∀ b : Option Pending, (∀ op, b ≠ some (.launch op)) →
        Unlaunched { pgGo (.high 0) (setStep true s) with busy := b } := fun b hb => h.stepOn rfl hb rfl rfl
    refine Unlaunched.pgInv ?_
    cases bg with
    | false => exact turning (some .loopEnd) (by simp)
    | true => exact (turning none (by simp)).opOk .pg .none

/-! ### Stopping a loop -/

theorem Unlaunched.stopLoop (h : Unlaunched s) : Unlaunched (stopLoop s) := by
  cases hl : s.pg.phase.hasLoop with
  | false =>
    rw [stopLoop_of_noLoop hl]
    exact ⟨h.free, h.settled, hl.symm, h.closed, .of_noLoop hl⟩
  | true =>
    have halted : Unlaunched (haltLoop s) :=
      ⟨h.free, nofun, rfl, by simp [haltLoop, h.opened hl], .of_noLoop rfl⟩
    rw [stopLoop_of_loop hl]
    exact halted.of_pg (emitComplete_cfg _ _) (emitComplete_pg _ _) (by simpa using halted.free)

theorem Unlaunched.close (h : Unlaunched s) (hr : s.pg.running = false) :
    Unlaunched { s with pg := { s.pg with closed := true, phase := .closed } } :=
  ⟨h.free, nofun, hr, ⟨fun _ => rfl, fun _ => rfl⟩, .of_noLoop rfl⟩

theorem stopLoop_running (s : State) : (stopLoop s).pg.running = false := by
  cases hl : s.pg.phase.hasLoop with
  | false => rw [stopLoop_of_noLoop hl]
  | true => rw [stopLoop_of_loop hl, emitComplete_pg]; rfl

/-! ### The toggle steps -/

theorem Unlaunched.toggle_high {k : Nat} (h : Unlaunched s) (hp : s.pg.phase = .high k) :
    Unlaunched (pgGo (.low k) (setStep false s)) := by
  have loop : s.pg.phase.hasLoop = true := by rw [hp]; rfl
  refine ⟨h.free, nofun, h.runs.trans loop, by simp [h.opened loop], ?_⟩
  exact {
    counted := fun _ => by simpa [hp] using h.loop.counted loop
    high := nofun
    low := fun j hj => by cases hj; exact ⟨(h.loop.high k hp).1, rfl⟩
    completing := nofun
    programmed := fun _ => h.loop.programmed loop }

/-- The count goes on to the target, where the completion action is next, or stays below it. -/
theorem Unlaunched.toggle_low {k : Nat} (h : Unlaunched s) (hp : s.pg.phase = .low k) (ht : toggleLow k s = .next t) :
    Unlaunched t := by
  have loop : s.pg.phase.hasLoop = true := by rw [hp]; rfl
  have running : s.pg.running = true := h.runs.trans loop
  obtain ⟨count, stepOff⟩ := h.loop.low k hp
  by_cases hn : s.pg.count.toNat + 1 < 2 ^ 32
  case neg => rw [toggleLow_overflow k (by omega)] at ht; cases ht
  have next : (s.pg.count + 1).toNat = k + 1 := by rw [← count]; exact BitVec.toNat_add_of_lt hn
  by_cases target : s.pg.target = .finite (s.pg.count + 1)
  · rw [toggleLow_target k hn target] at ht
    cases ht
    refine ⟨h.free, nofun, running, by simp [h.opened loop], ?_⟩
    exact {
      counted := fun _ => .inr ⟨_, target, le_rfl, fun _ => rfl, fun _ => rfl⟩
      high := nofun
      low := nofun
      completing := fun _ => stepOff
      programmed := fun _ => h.loop.programmed loop }
  · rw [toggleLow_next k hn target] at ht
    cases ht
    have counted : (s.pg.target = .infinite ∧ s.pg.cbEn = false ∧ PgPhase.high (k + 1) ≠ .completing) ∨
        ∃ n, s.pg.target = .finite n ∧ (s.pg.count + 1).toNat ≤ n.toNat ∧
          (s.pg.count + 1 = n ↔ PgPhase.high (k + 1) = .completing) := by
      obtain ⟨unbounded, cbEn, -⟩ | ⟨n, bounded, le, atTarget⟩ := h.loop.counted loop
      · exact .inl ⟨unbounded, cbEn, nofun⟩
      · have below : s.pg.count ≠ n := fun e => by simpa [hp] using atTarget.mp e
        have lt : s.pg.count.toNat < n.toNat := lt_of_le_of_ne le fun e => below (BitVec.eq_of_toNat_eq e)
        exact .inr ⟨n, bounded, by omega, fun e => absurd (e ▸ bounded) target, nofun⟩
    refine ⟨h.free, nofun, running, by simp [h.opened loop], ?_⟩
    exact {
      counted := fun _ => counted
      high := fun j hj => by cases hj; exact ⟨next, rfl⟩
      low := nofun
      completing := nofun
      programmed := fun _ => h.loop.programmed loop }

theorem Unlaunched.toggle_completing (h : Unlaunched s) (hp : s.pg.phase = .completing) : Unlaunched (toggleComplete s) := by
  have pg : (toggleComplete s).pg = { s.pg with running := false, phase := .noLoop } := by simp [toggleComplete]
  refine ⟨by simpa [toggleComplete] using h.free, ?_, ?_, ?_, ?_⟩ <;> rw [pg]
  · exact nofun
  · rfl
  · simp [h.opened (by rw [hp]; rfl)]
  · exact .of_noLoop rfl

/-- A toggle step finds a loop only where the host is not inside PG.RUN or PG.STEPCOUNT. -/
theorem PgInv.pgToggle (h : PgInv s) (ht : pgToggle s = .next t) : PgInv t := by
  obtain hu | ⟨op, hl⟩ := h.cases
  · cases hp : s.pg.phase with
    | high k => rw [pgToggle_high hp] at ht; cases ht; exact (hu.toggle_high hp).pgInv
    | low k => rw [pgToggle_low hp] at ht; exact (hu.toggle_low hp ht).pgInv
    | completing => rw [pgToggle_completing hp] at ht; cases ht; exact (hu.toggle_completing hp).pgInv
    | noLoop | settling | closed => rw [pgToggle_noLoop (by rw [hp]; rfl)] at ht; cases ht; exact h
  · rw [pgToggle_noLoop hl.noLoop] at ht
    cases ht
    exact h

/-! ### Every step -/

theorem PgInv.goOn {p : Pending} (h : PgInv s) (hb : s.busy = some p) : PgInv (goOn s) := by
  have free (hp : ∀ op, p ≠ .launch op) : Unlaunched s := h.unlaunched fun op hl => hp op (by simpa [hb] using hl)
  cases p with
  | pt op => simp only [Machine.goOn, hb]; exact (drive_ptKeeps unlaunched_ptKeeps _ _ (free (by simp))).pgInv
  | cr op => simp only [Machine.goOn, hb]; exact (drive_crKeeps unlaunched_crKeeps _ _ (free (by simp))).pgInv
  | popt ms => simp only [Machine.goOn, hb]; exact (free (by simp)).spPoptRun.pgInv
  | pop | launch op | loopEnd => simpa only [Machine.goOn, hb] using h

theorem PgInv.exec_pgRun {d : Dir} {v : FBits} (h : Unlaunched s) (he : exec (.pgRun d v) s = .next t) : PgInv t := by
  have hb : s.busy = none := exec_free he
  have hv := legalSpeed_of_exec_pgRun he
  have ok : LaunchOk (runOp s.cfg d v) := .inl ⟨rfl, rfl, rfl⟩
  cases hc : s.pg.closed with
  | true => rw [exec_pgRun_closed hb d hv hc] at he; cases he; exact (h.opError _ _).pgInv
  | false =>
    cases hl : s.pg.phase.hasLoop with
    | true =>
      rw [exec_pgRun_loop hb d hv hc hl] at he
      cases he
      obtain ⟨_, launching⟩ := Launching.stop ok hc
      exact launching.pgInv
    | false => rw [exec_pgRun_noLoop hb d hv hc hl] at he; cases he; exact (Launching.settle ok hc (h.runs.trans hl)).pgInv

theorem PgInv.exec_pgStepcount {n : BitVec 32} {d : Dir} {v : FBits} {bg cb : Bool} (h : Unlaunched s)
    (he : exec (.pgStepcount n d v bg cb) s = .next t) : PgInv t := by
  have hb : s.busy = none := exec_free he
  obtain ⟨hn, hv⟩ := legal_of_exec_pgStepcount he
  by_cases hr : s.pg.closed = true ∨ s.pg.running = true
  · rw [exec_pgStepcount_rejected hb d hv bg cb hn hr] at he
    cases he
    exact (h.opError _ _).pgInv
  · obtain ⟨hc, hr⟩ : s.pg.closed = false ∧ s.pg.running = false := by simpa using hr
    rw [Sys2Proof.exec_pgStepcount hb d hv bg cb hn hc hr] at he
    cases he
    exact (Launching.settle (.inr ⟨n, rfl, hn⟩) hc hr).pgInv

theorem PgInv.exec {i : Instr} (h : PgInv s) (he : exec i s = .next t) : PgInv t := by
  have hb : s.busy = none := exec_free he
  have hu : Unlaunched s := h.unlaunched (by simp [hb])
  cases hi : i.unit with
  | pt =>
    obtain ⟨k, n, rfl⟩ := exec_pt hi he
    exact (drive_ptKeeps unlaunched_ptKeeps _ _ (ptStart_keeps unlaunched_ptKeeps _ _ _ hu)).pgInv
  | cr =>
    obtain ⟨k, rfl⟩ := exec_cr hi he
    exact (drive_crKeeps unlaunched_crKeeps _ _ (crStart_keeps unlaunched_crKeeps _ _ hu)).pgInv
  | sp =>
    refine Unlaunched.pgInv ?_
    obtain rfl | ⟨m, -, rfl⟩ | rfl | ⟨-, -, rfl⟩ | rfl | ⟨ms, rfl⟩ := exec_sp hi he
    · exact hu.opError _ _
    · exact Unlaunched.opOk _ _ (hu.of_pg rfl rfl hu.free)
    · exact Unlaunched.opOk _ _ (hu.of_pg rfl rfl hu.free)
    · exact hu.spCalEnd
    · exact Unlaunched.spTake (hu.of_pg rfl rfl (by simp))
    · exact Unlaunched.spPoptRun (hu.of_pg rfl rfl (by simp))
  | pg =>
    cases i with
    | pgRun => exact PgInv.exec_pgRun hu he
    | pgStepcount => exact PgInv.exec_pgStepcount hu he
    | pgStop => rw [exec_pgStop hb] at he; cases he; exact (hu.stopLoop.opOk _ _).pgInv
    | pgGetstepcount =>
      rw [exec_pgGetstepcount hb] at he
      cases he
      exact (Unlaunched.opOk _ _ (hu.of_pg (t := s.log _) rfl rfl hu.free)).pgInv
    | pgClose =>
      rw [exec_pgClose hb] at he
      cases he
      exact ((hu.stopLoop.close (stopLoop_running s)).opOk _ _).pgInv
    | _ => cases hi

theorem PgInv.pgLoopEnd (h : PgInv s) (hb : s.busy = some .loopEnd) : PgInv (pgLoopEnd s) := by
  unfold Machine.pgLoopEnd
  split
  · exact ((h.unlaunched (by simp [hb])).opOk _ _).pgInv
  · exact h

theorem pgInv_stepKeeps : StepKeeps PgInv where
  outside _ _ _ _ _ _ h := h.of_same rfl rfl rfl
  goOn _ _ hb h := h.goOn hb
  launch _ _ hb h := (h.launching hb).step
  pop _ hb h := (h.unlaunched (by simp [hb])).spTake.pgInv
  loopEnd _ hb h := h.pgLoopEnd hb
  exec _ _ _ he h := h.exec he
  irq _ _ _ _ he h := by
    rw [(spIrq_handled he).only]
    exact h.of_same rfl rfl rfl
  toggle _ _ he h := h.pgToggle he
  reset s _ := (pgInv_resetAt s.cfg).of_same rfl rfl rfl

/-- Settles O18: every agent's step keeps the invariant. -/
theorem pgInvariantKept : Obligations.PgInvariantKept := fun _ _ h hs => pgInv_stepKeeps.step hs h

end Sys2Proof
end

section
/-! SUPPORT. The obligations on the operations of the PG unit (43_pulse_generator.md R212 to R216). -/

namespace Sys2Proof

open Machine

variable {s : State} {op : LaunchOp}

/-! ### PG.RUN and PG.STEPCOUNT -/

/-- Of several turns of the host the first is one, and the others follow it. -/
theorem HostTurns.head {n : Nat} {es : List Event} (h : HostTurns (n + 1) s es) :
    ∃ es', HostTurns 1 s es' ∧ HostTurns n { s with sched := es' } es := by
  obtain ⟨hs, rfl⟩ | hs := h
  · exact ⟨[], .inl ⟨hs, rfl⟩, .inl ⟨rfl, rfl⟩⟩
  · exact ⟨_, .inr hs, .inr rfl⟩

/-- The loop that PG.RUN stops fires its completion action: the Emit is the next action (R214). -/
theorem launchStop_fires (h : stopEmits s = true) : launchStop op s = launchNext op .emit (haltLoop s) := if_pos h

theorem launchStop_quiet (h : stopEmits s = false) : launchStop op s = launchSettle op (haltLoop s) :=
  if_neg (by simp [h])

/-- After the Emit the settle delay is next, as it is where nothing is emitted. -/
theorem run_launchEmit {es : List Event} (hc : legalConfig s.cfg = true) (hs : HostTurns 6 s es) :
    ∃ es', HostTurns 5 ({ s with sched := es' }.log [.emit .complete]) es ∧ Host.Core.run core 6 (launchNext op .emit s) =
      Host.Core.run core 5 (launchSettle op ({ s with sched := es' }.log [.emit .complete])) := by
  obtain ⟨es', first, others⟩ := hs.head
  exact ⟨es', others, run_launch (s := launchNext op .emit s) hc first rfl 5⟩

/-- Settles O53: without a loop, with one whose stop is quiet, and with one whose stop fires; then action by action. -/
theorem runStartsUnboundedLoop : Obligations.RunStartsUnboundedLoop := by
  refine ⟨fun s d v h fires op hb hv hh hf ho => ⟨fun hc => ?_, fun hc hl => ?_, fun hc hl => ?_, fun es hc legal ht => ?_⟩,
    fun u op es hc ht hb => ?_⟩
  · rw [exec_pgRun_closed hb d hv hc]
    simp [ErrClass.code, hb]
  · rw [exec_pgRun_noLoop hb d hv hc hl, ho, hh]
    rfl
  · refine ⟨Config.freeLevel s.fresh, ?_⟩
    obtain rfl : fires = stopEmits s := hf
    rw [exec_pgRun_loop hb d hv hc hl, ho, hh]
    cases hf : stopEmits s with
    | true => rw [launchStop_fires hf]; rfl
    | false => rw [launchStop_quiet hf]; rfl
  · obtain rfl : fires = stopEmits s := hf
    obtain rfl : h = halfPeriod s.cfg (fOfBits v) := hh
    cases hl : s.pg.phase.hasLoop with
    | false =>
      refine ⟨_, exec_pgRun_noLoop hb d hv hc hl, ?_⟩
      simp only [hl, Bool.false_eq_true, false_and, if_false] at ht ⊢
      rw [run_launchSettle _ legal ht]
      simp [runOp, hb, Target.iterations, Target.counted]
    | true =>
      refine ⟨_, exec_pgRun_loop hb d hv hc hl, ?_⟩
      cases hf : stopEmits s with
      | false =>
        simp only [hl, hf, Bool.false_eq_true, and_false, if_false] at ht ⊢
        rw [launchStop_quiet hf, run_launchSettle (s := haltLoop s) _ legal ht]
        simp [runOp, hb, Target.iterations, Target.counted, haltLoop]
      | true =>
        simp only [hl, hf, and_self, if_true] at ht ⊢
        obtain ⟨es', others, emitted⟩ := run_launchEmit (s := haltLoop s) (op := runOp s.cfg d v) legal ht
        rw [launchStop_fires hf, emitted, run_launchSettle _ (by exact legal) others]
        simp [runOp, hb, Target.iterations, Target.counted, haltLoop]
  · have action := step_launch hc ht hb
    obtain ⟨d, half, target, cb, bg, act⟩ := op
    refine ⟨?_, ?_, ?_, ?_, ?_, ?_⟩ <;> rintro rfl <;> rw [action]
    · rfl
    · rfl
    · rfl
    · rfl
    · rfl
    · cases bg <;> rfl

/-- Settles O54: PG.STEPCOUNT is rejected, or programs its loop action by action as PG.RUN does. -/
theorem stepCountStartsCountedLoop : Obligations.StepCountStartsCountedLoop := by
  refine fun s n d v bg cb h hb hn hv hh => ⟨fun hr => ?_, fun hc hr => ⟨_, rfl, ?_, fun es legal ht => ?_⟩⟩
  · rw [exec_pgStepcount_rejected hb d hv bg cb hn hr]
    simp [ErrClass.code, hb]
  · rw [exec_pgStepcount hb d hv bg cb hn hc hr, hh]
    rfl
  · exact run_launchSettle ⟨d, h, .finite n, cb, bg, .delay⟩ legal ht

theorem resume_loopEnd_of_noLoop (hb : s.busy = some .loopEnd) (hp : s.pg.phase = .noLoop) : resume s = opOk .pg .none s := by
  rw [resume, hb]
  exact if_pos hp

/-- Settles O60: the phase that the host waits for is there. -/
theorem foregroundRunReturns : Obligations.ForegroundRunReturns := fun s es hc hb ht hp =>
  step_resume hc ht hb (resume_loopEnd_of_noLoop (s := { s with sched := es }) hb hp)

/-! ### PG.STOP, PG.GETSTEPCOUNT and PG.CLOSE -/

/-- Settles O55: without a loop and with one. -/
theorem stopHaltsTheLoop : Obligations.StopHaltsTheLoop := by
  refine fun s hb => ⟨fun hl => ?_, fun hl => ⟨Config.freeLevel s.fresh, ?_⟩⟩ <;> rw [exec_pgStop hb]
  · simp [stopLoop_of_noLoop hl, hb]
  · rw [stopLoop_of_loop hl]
    simp [haltLoop, stopEmits, hb]

/-- Settles O56: the count returned is the one the call answers. -/
theorem getStepCountReturnsCount : Obligations.GetStepCountReturnsCount := by
  intro s hb
  rw [exec_pgGetstepcount hb]
  simp [State.log, hb]

/-- Closing a closed unit again writes what it holds. -/
theorem exec_pgClose_of_closed (hb : s.busy = none) (hp : s.pg.phase = .closed) (hc : s.pg.closed = true)
    (hr : s.pg.running = false) :
    exec .pgClose s = .next { s with pg := { s.pg with ok := true, err := 0 }, ret := some ⟨.pg, true, 0, .none⟩ } := by
  rw [exec_pgClose hb, stopLoop_of_noLoop (by rw [hp]; rfl)]
  simp [hb, hp, hc, hr]

/-- Settles O57: without a loop and with one, and closed once more. -/
theorem closeStopsAndCloses : Obligations.CloseStopsAndCloses := by
  intro s hb
  refine ⟨_, exec_pgClose hb, ?_⟩
  cases hl : s.pg.phase.hasLoop with
  | false =>
    rw [stopLoop_of_noLoop hl]
    simp [exec_pgClose_of_closed]
  | true =>
    rw [stopLoop_of_loop hl]
    simp [haltLoop, stopEmits, exec_pgClose_of_closed]

end Sys2Proof
end

section
/-! SUPPORT. The obligations on the toggle steps and on a counted loop that runs to its end (43_pulse_generator.md R217 to
R219). -/

namespace Sys2Proof

open Machine

variable {s t : State} {es : List Event}

/-- Settles O58: phase by phase. -/
theorem toggleSteps : Obligations.ToggleSteps := by
  refine fun s => ⟨fun k hp => ?_, fun k hp hn => ⟨fun ht => ?_, fun ht => ?_⟩, fun k hp hn => ?_, fun hp => ?_,
    pgToggle_noLoop⟩
  · rw [pgToggle_high hp]; rfl
  · rw [pgToggle_low hp, toggleLow_target k (by omega) ht]; rfl
  · rw [pgToggle_low hp, toggleLow_next k (by omega) ht]; rfl
  · rw [pgToggle_low hp, toggleLow_overflow k (by omega)]
  · rw [pgToggle_completing hp, toggleComplete]
    cases hcb : s.pg.cbEn <;> simp [emitComplete, pgGo, State.log, hcb]

/-! ### A counted loop -/

/-- The toggle step at the head of the schedule is taken. -/
theorem step_toggle (hc : legalConfig s.cfg = true) (hs : s.sched = .toggle :: es) :
    step s = pgToggle { s with sched := es } := step_event hc hs

section
variable {k : Nat} (hc : legalConfig s.cfg = true) (hp : s.pg.phase = .high k) (hn : s.pg.count.toNat + 1 < 2 ^ 32)
include hc hp hn

/-- A cycle that does not reach the target takes two steps, and the next one begins (R217, R218). -/
theorem run_cycle (ht : s.pg.target ≠ .finite (s.pg.count + 1)) (hs : s.sched = .toggle :: .toggle :: es) (j : Nat) :
    Host.Core.run core (j + 2) s = Host.Core.run core j { s with
      pg := { s.pg with phase := .high (k + 1), count := s.pg.count + 1, stepOut := true }
      hist := s.hist ++ [.dout .step false, .dout .step true], sched := es } := by
  obtain ⟨low, hlow⟩ : ∃ u, u = pgGo (.low k) (setStep false { s with sched := .toggle :: es }) := ⟨_, rfl⟩
  have first : step s = .next low := by rw [step_toggle hc hs, pgToggle_high (by exact hp), hlow]
  have second : step low = toggleLow k { low with sched := es } := by
    rw [step_toggle (es := es) (by rw [hlow]; exact hc) (by rw [hlow]; rfl), pgToggle_low (by rw [hlow]; rfl)]
  rw [run_next first, run_next (second.trans (toggleLow_next k (by rw [hlow]; exact hn) (by rw [hlow]; exact ht)))]
  simp [hlow, pgGo, setStep, State.log]

/-- The last cycle and the completion action take three steps (R217 to R219). -/
theorem run_lastCycle (ht : s.pg.target = .finite (s.pg.count + 1)) (hs : s.sched = [.toggle, .toggle, .toggle]) :
    Host.Core.run core 3 s = .next { s with
      pg := { s.pg with phase := .noLoop, count := s.pg.count + 1, stepOut := false, running := false }
      hist := s.hist ++ .dout .step false :: (if s.pg.cbEn then [.emit .complete] else []), sched := [] } := by
  obtain ⟨low, hlow⟩ : ∃ u, u = pgGo (.low k) (setStep false { s with sched := [.toggle, .toggle] }) := ⟨_, rfl⟩
  obtain ⟨done, hdone⟩ : ∃ u, u =
      pgGo .completing { low with sched := [.toggle], pg := { low.pg with count := s.pg.count + 1 } } := ⟨_, rfl⟩
  have first : step s = .next low := by rw [step_toggle hc hs, pgToggle_high (by exact hp), hlow]
  have second : step low = .next done := by
    rw [step_toggle (es := [.toggle]) (by rw [hlow]; exact hc) (by rw [hlow]; rfl), pgToggle_low (by rw [hlow]; rfl),
      toggleLow_target k (by rw [hlow]; exact hn) (by rw [hlow]; exact ht), hdone, hlow]
    rfl
  have third : step done = .next (toggleComplete { done with sched := [] }) := by
    rw [step_toggle (es := []) (by rw [hdone, hlow]; exact hc) (by rw [hdone]; rfl), pgToggle_completing (by rw [hdone]; rfl)]
  rw [run_next first, run_next second, run_next third, hdone, hlow]
  cases hcb : s.pg.cbEn <;> simp [Host.Core.run, toggleComplete, emitComplete, pgGo, setStep, State.log, hcb]

end

/-- From `s` to `t` a counted loop has run to its count `n`, and emitted Complete once if there is a callback (R218, R219). -/
structure Completed (n : BitVec 32) (s t : State) : Prop where
  phase : t.pg.phase = .noLoop
  running : t.pg.running = false
  count : t.pg.count = n
  stepOut : t.pg.stepOut = false
  sched : t.sched = []
  hist : ∃ cs, t.hist = s.hist ++ cs ∧ cs.count (.emit .complete) = if s.pg.cbEn = true then 1 else 0

/-- A cycle before the last one emits nothing. -/
theorem Completed.of_cycle {n : BitVec 32} {u : State} {a b : Bool} (h : Completed n u t)
    (hh : u.hist = s.hist ++ [.dout .step a, .dout .step b]) (hcb : u.pg.cbEn = s.pg.cbEn) : Completed n s t := by
  obtain ⟨phase, running, count, stepOut, sched, cs, hist, emitted⟩ := h
  refine ⟨phase, running, count, stepOut, sched, .dout .step a :: .dout .step b :: cs, ?_, ?_⟩
  · simp [hist, hh]
  · simpa [hcb] using emitted

/-- A loop with `m + 1` cycles to go takes two steps for each, and one for the completion action. -/
theorem run_countedLoop {n : BitVec 32} {k : Nat} (m : Nat) (hc : legalConfig s.cfg = true) (hp : s.pg.phase = .high k)
    (ht : s.pg.target = .finite n) (hn : s.pg.count.toNat + (m + 1) = n.toNat)
    (hs : s.sched = List.replicate (2 * (m + 1) + 1) .toggle) :
    ∃ t, Host.Core.run core (2 * (m + 1) + 1) s = .next t ∧ Completed n s t := by
  have fits : ∀ {c : BitVec 32} {j : Nat}, c.toNat + (j + 1) = n.toNat → c.toNat + 1 < 2 ^ 32 := by omega
  induction m generalizing s k with
  | zero =>
    have last : s.pg.count + 1 = n := BitVec.eq_of_toNat_eq ((BitVec.toNat_add_of_lt (fits hn)).trans hn)
    refine ⟨_, run_lastCycle hc hp (fits hn) (last ▸ ht) hs, rfl, rfl, last, rfl, rfl, _, rfl, ?_⟩
    cases s.pg.cbEn <;> rfl
  | succ m ih =>
    have next : (s.pg.count + 1).toNat = s.pg.count.toNat + 1 := BitVec.toNat_add_of_lt (fits hn)
    have more : s.pg.target ≠ .finite (s.pg.count + 1) := by
      rw [ht, ne_eq, Target.finite.injEq, ← BitVec.toNat_inj]
      omega
    obtain ⟨t, run, completed⟩ := ih (s := { s with
      pg := { s.pg with phase := .high (k + 1), count := s.pg.count + 1, stepOut := true }
      hist := s.hist ++ [.dout .step false, .dout .step true], sched := List.replicate (2 * (m + 1) + 1) .toggle })
      hc rfl ht (by rw [next]; omega) rfl
    exact ⟨t, (run_cycle hc hp (fits hn) more hs _).trans run, completed.of_cycle rfl rfl⟩

/-- Settles O59: a legal count is at least one cycle, and the first begins at count 0. -/
theorem countedRunCompletes : Obligations.CountedRunCompletes := by
  intro s n hc hn hp h0 ht hs
  have pos : 0 < n.toNat := of_decide_eq_true (Bool.and_eq_true_iff.mp hn).1
  obtain ⟨m, hm⟩ : ∃ m, n.toNat = m + 1 := ⟨n.toNat - 1, by omega⟩
  rw [hm] at hs ⊢
  obtain ⟨t, run, phase, running, count, stepOut, sched, hist⟩ := run_countedLoop m hc hp ht (by rw [h0, hm]; simp) hs
  exact ⟨t, run, phase, running, count, stepOut, sched, hist⟩

end Sys2Proof
end
